-- ==== Sys2Proof/Word.lean ====
section
/-! DEFINITION. The words of FRAL: the item and register widths of 00_scope.md R9 and 20_memory.md R71. -/

namespace Sys2Proof

/-- `u8`: data, sync and sentinel items, label characters, preamble elements. -/
abbrev U8 := BitVec 8

/-- `u16`: ENC.CNT (10_state.md R38) and the command word (30_encoding.md R90). -/
abbrev U16 := BitVec 16

/-- `u32`: samplesPerBit, payloadSize, rooms, side-channel items. -/
abbrev U32 := BitVec 32

/-- `s32`: counter and control items, ALN.BDELAY; two's complement, read with `BitVec.toInt`. -/
abbrev S32 := BitVec 32

end Sys2Proof
end

