-- ==== Sys2Proof/Config.lean ====
section
/-! DEFINITION. The parameters of FRAL (00_scope.md R8): the constants the source fixes, the OPEN
parameters as a record that State carries, and the one free value of the model. -/

namespace Sys2Proof

/-- CNT_BITS: width of the counter field and of ENC.CNT (R8). -/
def Config.cntBits : Nat := 16

/-- CAP: the slots of the RingBank (R8, 10_state.md R48). -/
def Config.cap : Nat := 5

/-- ERR_MIS (R8): aligner code, misaligned pulses. -/
def Config.errMis : U8 := 251#8

/-- ERR_OFF (R8): aligner code, pulses offset from index 0. -/
def Config.errOff : U8 := 252#8

/-- ERR_OVF (R8): aligner code, delay exceeds capacity. -/
def Config.errOvf : U8 := 253#8

/-- ERR_FILL (R8): aligner code, filling buffer. -/
def Config.errFill : U8 := 255#8

/-- INVALID (R8): the decoder's invalid payload marker. -/
def Config.invalid : U8 := 255#8

/-- NOSYNC_CNT (R8): the decoder's loss-of-sync counter value. -/
def Config.noSyncCnt : S32 := BitVec.ofInt 32 (-1)

/-- MATCH_TOL (R8, 40_primitives.md R142): which best-effort acceptance test the matcher uses. -/
inductive MatchTol where
  /-- `4·minSum ≤ 3·(H − N)`: the spec's value for FRAL. -/
  | tolGlobal
  /-- `4·minSum ≤ N`: the alternative a model may select. -/
  | tolNeedle
  deriving DecidableEq, Repr

/-- The OPEN parameters of R8 (92_eei_decisions.md D7, D19). The spec gives no default for the five
bounds, so State carries them, no step writes them, and a statement about every state is a statement
about every choice of them (log entries 2 and 3). -/
structure Params where
  /-- MAX_PRE: largest preamble length in bits. -/
  maxPre : Nat
  /-- MAX_LAB: largest label length in characters. -/
  maxLab : Nat
  /-- MAX_SPB: largest samplesPerBit. -/
  maxSpb : Nat
  /-- MAX_PSZ: largest payloadSize of ENC, DEC and ALN. -/
  maxPsz : Nat
  /-- MAX_ALN_K: largest aligner window in packets. -/
  maxAlnK : Nat
  /-- MATCH_TOL. -/
  matchTol : MatchTol
  deriving DecidableEq, Repr

/-- What R8 and the table of open parameters (92_eei_decisions.md) ask of the bounds: each is at
least 1, and MAX_SPB and MAX_PSZ are at most 2^32 − 1. -/
abbrev Params.Wf (c : Params) : Prop :=
  1 ≤ c.maxPre ∧ 1 ≤ c.maxLab ∧ 1 ≤ c.maxSpb ∧ c.maxSpb ≤ 4294967295 ∧
    1 ≤ c.maxPsz ∧ c.maxPsz ≤ 4294967295 ∧ 1 ≤ c.maxAlnK

/-- The parameters State.reset carries. MATCH_TOL is the spec's value for FRAL; the bounds are a
DESIGN CHOICE, unsafe (log entry 2): the largest `u32`, so that no `u32` operand from 1 up is refused. -/
def Params.atReset : Params where
  maxPre := 4294967295
  maxLab := 4294967295
  maxSpb := 4294967295
  maxPsz := 4294967295
  maxAlnK := 4294967295
  matchTol := .tolGlobal

/-- FREE VALUE (log entry 8): item `i` of a control window whose value does not fit `s32`, at the
`n`-th draw. Only an aligner index or index difference outside [−2^31, 2^31) draws it. -/
opaque Config.freeCtl (n i : Nat) : S32

end Sys2Proof
end

