-- ==== Sys2Proof/Syntax.lean ====
section
/-! DEFINITION. The commands of FRAL as the host presents them (a word with an operand record,
30_encoding.md R90, R94), the instructions they decode to (one constructor per row of
spec/opcode_table.json), and the ports (20_memory.md R71). -/

namespace Sys2Proof

/-- The three units (00_scope.md R2). -/
inductive UnitId where
  | enc
  | dec
  | aln
  deriving DecidableEq, Repr

/-- The operand names of R94. -/
inductive Field where
  | pre
  | lab
  | spb
  | psz
  | sc
  | pay
  | sci
  | out
  | raw
  | p
  | k
  | d1
  | s1
  | c1
  | d2
  | s2
  | c2
  deriving DecidableEq, Repr

/-- An operand's value before its type is checked: a mathematical integer or a sequence of them
(00_scope.md R9, R10; log entry 6). -/
inductive Value where
  | int (v : Int)
  | list (vs : List Int)
  deriving DecidableEq, Repr

/-- An operand record: names with values, in the order the host wrote them (R102: any order). -/
abbrev Record := List (Field × Value)

/-- A command as issued: one 16-bit word and its operand record (R90). -/
structure Command where
  word : U16
  record : Record
  deriving DecidableEq, Repr

/-- The instructions: one constructor per command of R92, with the typed operands of R94. `sci` is
`none` where the side-channel window is absent. -/
inductive Instr where
  | encReset (pre lab : List U8) (spb psz : U32) (sc : Bool)
  | encSetpre (pre : List U8)
  | encSetlab (lab : List U8)
  | encSetspb (spb : U32)
  | encSetpsz (psz : U32)
  | encEncode (pay : List U8) (sci : Option (List U32)) (out : U32)
  | decReset (pre lab : List U8) (spb psz : U32) (sc : Bool)
  | decSetpre (pre : List U8)
  | decSetlab (lab : List U8)
  | decSetspb (spb : U32)
  | decSetpsz (psz : U32)
  | decDecode (raw : List U8) (sci : Option (List U32)) (out : U32)
  | alnReset (p k : U32)
  | alnAlign (d1 s1 : List U8) (c1 : List S32) (d2 s2 : List U8) (c2 : List S32) (out : U32)
  deriving DecidableEq, Repr

/-- The fourteen operations without their operands: what the command word alone selects. -/
inductive Opcode where
  | encReset
  | encSetpre
  | encSetlab
  | encSetspb
  | encSetpsz
  | encEncode
  | decReset
  | decSetpre
  | decSetlab
  | decSetspb
  | decSetpsz
  | decDecode
  | alnReset
  | alnAlign
  deriving DecidableEq, Repr

/-- The operation of an instruction. -/
def Instr.opcode : Instr → Opcode
  | .encReset .. => .encReset
  | .encSetpre .. => .encSetpre
  | .encSetlab .. => .encSetlab
  | .encSetspb .. => .encSetspb
  | .encSetpsz .. => .encSetpsz
  | .encEncode .. => .encEncode
  | .decReset .. => .decReset
  | .decSetpre .. => .decSetpre
  | .decSetlab .. => .decSetlab
  | .decSetspb .. => .decSetspb
  | .decSetpsz .. => .decSetpsz
  | .decDecode .. => .decDecode
  | .alnReset .. => .alnReset
  | .alnAlign .. => .alnAlign

/-- The unit a command addresses (R91): exactly one (60_exceptions.md R280). -/
def Opcode.unit : Opcode → UnitId
  | .encReset | .encSetpre | .encSetlab | .encSetspb | .encSetpsz | .encEncode => .enc
  | .decReset | .decSetpre | .decSetlab | .decSetspb | .decSetpsz | .decDecode => .dec
  | .alnReset | .alnAlign => .aln

/-- The reset commands: the ones a unit accepts while it is unconfigured (10_state.md R33). -/
def Opcode.isReset : Opcode → Bool
  | .encReset | .decReset | .alnReset => true
  | .encSetpre | .encSetlab | .encSetspb | .encSetpsz | .encEncode => false
  | .decSetpre | .decSetlab | .decSetspb | .decSetpsz | .decDecode => false
  | .alnAlign => false

/-- The ports of the units (20_memory.md R71). -/
inductive Port where
  | encPayIn
  | encScIn
  | encFrmOut
  | encScOut
  | decRawIn
  | decScIn
  | decPayOut
  | decSyncOut
  | decCntOut
  | decScOut
  | alnD1In
  | alnS1In
  | alnC1In
  | alnD2In
  | alnS2In
  | alnC2In
  | alnO1Out
  | alnO2Out
  | alnCtlOut
  deriving DecidableEq, Repr

/-- The item types of the ports (R71). -/
inductive ItemType where
  | u8
  | u32
  | s32
  deriving DecidableEq, Repr

/-- The unit a port belongs to (R71). -/
def Port.unit : Port → UnitId
  | .encPayIn | .encScIn | .encFrmOut | .encScOut => .enc
  | .decRawIn | .decScIn | .decPayOut | .decSyncOut | .decCntOut | .decScOut => .dec
  | .alnD1In | .alnS1In | .alnC1In | .alnD2In | .alnS2In | .alnC2In => .aln
  | .alnO1Out | .alnO2Out | .alnCtlOut => .aln

/-- Whether a port is an input (R71). -/
def Port.isInput : Port → Bool
  | .encPayIn | .encScIn | .decRawIn | .decScIn => true
  | .alnD1In | .alnS1In | .alnC1In | .alnD2In | .alnS2In | .alnC2In => true
  | .encFrmOut | .encScOut | .decPayOut | .decSyncOut | .decCntOut | .decScOut => false
  | .alnO1Out | .alnO2Out | .alnCtlOut => false

/-- Whether a port exists only when its unit's SC bit is 1 (R71, 10_state.md R37). -/
def Port.isSideChannel : Port → Bool
  | .encScIn | .encScOut | .decScIn | .decScOut => true
  | .encPayIn | .encFrmOut | .decRawIn | .decPayOut | .decSyncOut | .decCntOut => false
  | .alnD1In | .alnS1In | .alnC1In | .alnD2In | .alnS2In | .alnC2In => false
  | .alnO1Out | .alnO2Out | .alnCtlOut => false

/-- The type of one item of a port (R71). -/
def Port.itemType : Port → ItemType
  | .encPayIn | .encFrmOut | .decRawIn | .decPayOut | .decSyncOut => .u8
  | .alnD1In | .alnS1In | .alnD2In | .alnS2In | .alnO1Out | .alnO2Out => .u8
  | .encScIn | .encScOut | .decScIn | .decScOut => .u32
  | .decCntOut | .alnC1In | .alnC2In | .alnCtlOut => .s32

end Sys2Proof
end

