-- ==== Sys2Proof/WellFormed.lean ====
section
/-! DEFINITION. When an operand record fits its operation (30_encoding.md R94, 60_exceptions.md R271
"an operand missing, extra or of the wrong type"). An `Instr` carries typed operands, so nothing is
left to check in it (20_memory.md R75): the checks stand here, on the record the host presents.
Whether a side-channel window may be present depends on the unit's SC bit, which is state: the
meanings of enc.encode and dec.decode check it. -/

namespace Sys2Proof

/-- The operand types of R94. -/
inductive FieldType where
  | u8List
  | u32List
  | s32List
  | u32
  | bit
  deriving DecidableEq, Repr

/-- The value ranges of R9 for one item. -/
def Value.fitsU8 (v : Int) : Bool := decide (0 ≤ v) && decide (v.toNat < 256)
def Value.fitsU32 (v : Int) : Bool := decide (0 ≤ v) && decide (v.toNat < 4294967296)
def Value.fitsS32 (v : Int) : Bool := decide (-2147483648 ≤ v) && decide (v.toNat < 2147483648)
def Value.fitsBit (v : Int) : Bool := decide (0 ≤ v) && decide (v.toNat < 2)

/-- Whether a value is of an operand type: the right kind, and every item in range (R75, R94). -/
def FieldType.admits : FieldType → Value → Bool
  | .u8List, .list vs => vs.all Value.fitsU8
  | .u32List, .list vs => vs.all Value.fitsU32
  | .s32List, .list vs => vs.all Value.fitsS32
  | .u32, .int v => Value.fitsU32 v
  | .bit, .int v => Value.fitsBit v
  | .u8List, .int _ | .u32List, .int _ | .s32List, .int _ => false
  | .u32, .list _ | .bit, .list _ => false

/-- The operands an operation requires, with their types (the table of R94). -/
def Opcode.required : Opcode → List (Field × FieldType)
  | .encReset | .decReset =>
    [(.pre, .u8List), (.lab, .u8List), (.spb, .u32), (.psz, .u32), (.sc, .bit)]
  | .encSetpre | .decSetpre => [(.pre, .u8List)]
  | .encSetlab | .decSetlab => [(.lab, .u8List)]
  | .encSetspb | .decSetspb => [(.spb, .u32)]
  | .encSetpsz | .decSetpsz => [(.psz, .u32)]
  | .encEncode => [(.pay, .u8List), (.out, .u32)]
  | .decDecode => [(.raw, .u8List), (.out, .u32)]
  | .alnReset => [(.p, .u32), (.k, .u32)]
  | .alnAlign =>
    [(.d1, .u8List), (.s1, .u8List), (.c1, .s32List), (.d2, .u8List), (.s2, .u8List),
      (.c2, .s32List), (.out, .u32)]

/-- The operands an operation may have: only the side-channel windows are optional (R94, R102). -/
def Opcode.optional : Opcode → List (Field × FieldType)
  | .encEncode | .decDecode => [(.sci, .u32List)]
  | .encReset | .encSetpre | .encSetlab | .encSetspb | .encSetpsz => []
  | .decReset | .decSetpre | .decSetlab | .decSetspb | .decSetpsz => []
  | .alnReset | .alnAlign => []

/-- No operand is given twice (log entry 18). -/
def Record.noDuplicate (r : Record) : Bool := decide (r.map Prod.fst).Nodup

/-- Every operand the operation requires is given (R94 "a field missing"). -/
def Record.allPresent (op : Opcode) (r : Record) : Bool :=
  op.required.all fun f => (r.map Prod.fst).contains f.1

/-- Every operand given is one of the operation's (R271 "extra"). -/
def Record.noExtra (op : Opcode) (r : Record) : Bool :=
  r.all fun x => ((op.required ++ op.optional).map Prod.fst).contains x.1

/-- Every operand given has a value of its type (R94 "of the wrong type"). -/
def Record.allTyped (op : Opcode) (r : Record) : Bool :=
  r.all fun x => (op.required ++ op.optional).all fun f => f.1 != x.1 || f.2.admits x.2

/-- A record fits its operation's shape (R94). -/
def Record.wellFormed (op : Opcode) (r : Record) : Bool :=
  Record.noDuplicate r && Record.allPresent op r && Record.noExtra op r && Record.allTyped op r

end Sys2Proof
end

