-- ==== Sys2Proof/Decode.lean ====
section
/-! DEFINITION. From a command (word and operand record) to an instruction, total and refusing by
name (30_encoding.md R90 to R94); and the encoder, from an instruction back to its command. -/

namespace Sys2Proof

/-- `UNIT = w[15:12]` (R90). -/
def unitField (w : U16) : Nat := (w.toNat / 4096) % 16

/-- `OP = w[11:8]` (R90). -/
def opField (w : U16) : Nat := (w.toNat / 256) % 16

/-- `Z = w[7:0]` (R90). -/
def zField (w : U16) : Nat := w.toNat % 256

/-- The operation a command word selects (R91, R92), or none: the word is illegal (R93). -/
def opcodeOf (w : U16) : Option Opcode :=
  if zField w ≠ 0 then none
  else match unitField w, opField w with
    | 1, 0 => some .encReset
    | 1, 1 => some .encSetpre
    | 1, 2 => some .encSetlab
    | 1, 3 => some .encSetspb
    | 1, 4 => some .encSetpsz
    | 1, 8 => some .encEncode
    | 2, 0 => some .decReset
    | 2, 1 => some .decSetpre
    | 2, 2 => some .decSetlab
    | 2, 3 => some .decSetspb
    | 2, 4 => some .decSetpsz
    | 2, 8 => some .decDecode
    | 3, 0 => some .alnReset
    | 3, 8 => some .alnAlign
    | _, _ => none

/-- A value read at an operand type (R94); none where it is not of that type (R75). -/
def Value.asU8List : Value → Option (List U8)
  | .list vs => if vs.all Value.fitsU8 then some (vs.map (BitVec.ofInt 8)) else none
  | .int _ => none

def Value.asU32List : Value → Option (List U32)
  | .list vs => if vs.all Value.fitsU32 then some (vs.map (BitVec.ofInt 32)) else none
  | .int _ => none

def Value.asS32List : Value → Option (List S32)
  | .list vs => if vs.all Value.fitsS32 then some (vs.map (BitVec.ofInt 32)) else none
  | .int _ => none

def Value.asU32 : Value → Option U32
  | .int v => if Value.fitsU32 v then some (BitVec.ofInt 32 v) else none
  | .list _ => none

def Value.asBit : Value → Option Bool
  | .int v => if Value.fitsBit v then some (decide (v = 1)) else none
  | .list _ => none

/-- The record's operands are all among `fs`, none twice (R94, R271; log entry 18). -/
def Record.within (fs : List Field) (r : Record) : Bool :=
  decide (r.map Prod.fst).Nodup && r.all fun x => fs.contains x.1

/-- The typed operand `f` of a record: none where it is missing or of the wrong type. -/
def Record.u8List (r : Record) (f : Field) : Option (List U8) := (r.lookup f).bind Value.asU8List
def Record.s32List (r : Record) (f : Field) : Option (List S32) := (r.lookup f).bind Value.asS32List
def Record.u32 (r : Record) (f : Field) : Option U32 := (r.lookup f).bind Value.asU32
def Record.bit (r : Record) (f : Field) : Option Bool := (r.lookup f).bind Value.asBit

/-- The side-channel window: `some none` where it is absent, none where it is of the wrong type. -/
def Record.sideChannel (r : Record) : Option (Option (List U32)) :=
  match r.lookup .sci with
  | none => some none
  | some v => v.asU32List.map some

/-- A layout's five operands (R94, enc.reset and dec.reset). -/
def Record.layout {α : Type} (r : Record) (mk : List U8 → List U8 → U32 → U32 → Bool → α) : Option α :=
  if Record.within [.pre, .lab, .spb, .psz, .sc] r then
    match r.u8List .pre, r.u8List .lab, r.u32 .spb, r.u32 .psz, r.bit .sc with
    | some pre, some lab, some spb, some psz, some sc => some (mk pre lab spb psz sc)
    | _, _, _, _, _ => none
  else none

/-- A setter's one list operand (R94). -/
def Record.onlyU8List {α : Type} (r : Record) (f : Field) (mk : List U8 → α) : Option α :=
  if Record.within [f] r then (r.u8List f).map mk else none

/-- A setter's one `u32` operand (R94). -/
def Record.onlyU32 {α : Type} (r : Record) (f : Field) (mk : U32 → α) : Option α :=
  if Record.within [f] r then (r.u32 f).map mk else none

/-- The operands of enc.encode and dec.decode (R94): the main window `f`, `sci` and `out`. -/
def Record.windows {α : Type} (r : Record) (f : Field)
    (mk : List U8 → Option (List U32) → U32 → α) : Option α :=
  if Record.within [f, .out, .sci] r then
    match r.u8List f, r.sideChannel, r.u32 .out with
    | some w, some sci, some out => some (mk w sci out)
    | _, _, _ => none
  else none

/-- The operands of aln.reset (R94). -/
def Record.dimensions {α : Type} (r : Record) (mk : U32 → U32 → α) : Option α :=
  if Record.within [.p, .k] r then
    match r.u32 .p, r.u32 .k with
    | some p, some k => some (mk p k)
    | _, _ => none
  else none

/-- The operands of aln.align (R94). -/
def Record.alignWindows {α : Type} (r : Record)
    (mk : List U8 → List U8 → List S32 → List U8 → List U8 → List S32 → U32 → α) : Option α :=
  if Record.within [.d1, .s1, .c1, .d2, .s2, .c2, .out] r then
    match r.u8List .d1, r.u8List .s1, r.s32List .c1, r.u8List .d2, r.u8List .s2, r.s32List .c2,
        r.u32 .out with
    | some d1, some s1, some c1, some d2, some s2, some c2, some out =>
      some (mk d1 s1 c1 d2 s2 c2 out)
    | _, _, _, _, _, _, _ => none
  else none

/-- The instruction of an operation and a record, or none where the record does not fit (R94). -/
def decodeRecord (op : Opcode) (r : Record) : Option Instr :=
  match op with
  | .encReset => r.layout .encReset
  | .encSetpre => r.onlyU8List .pre .encSetpre
  | .encSetlab => r.onlyU8List .lab .encSetlab
  | .encSetspb => r.onlyU32 .spb .encSetspb
  | .encSetpsz => r.onlyU32 .psz .encSetpsz
  | .encEncode => r.windows .pay .encEncode
  | .decReset => r.layout .decReset
  | .decSetpre => r.onlyU8List .pre .decSetpre
  | .decSetlab => r.onlyU8List .lab .decSetlab
  | .decSetspb => r.onlyU32 .spb .decSetspb
  | .decSetpsz => r.onlyU32 .psz .decSetpsz
  | .decDecode => r.windows .raw .decDecode
  | .alnReset => r.dimensions .alnReset
  | .alnAlign => r.alignWindows .alnAlign

/-- What a command decodes to. -/
inductive Decoded where
  /-- A legal word with a fitting record. -/
  | instr (i : Instr)
  /-- The word is not one of the fourteen (R93). -/
  | illegalWord
  /-- The word is legal and the record does not fit its shape (R94). -/
  | badRecord
  deriving DecidableEq, Repr

/-- Decoding a command; the word is checked before the record (60_exceptions.md R273). -/
def decode (c : Command) : Decoded :=
  match opcodeOf c.word with
  | none => .illegalWord
  | some op =>
    match decodeRecord op c.record with
    | none => .badRecord
    | some i => .instr i

/-- The command word of an operation (the table of R92). -/
def Opcode.word : Opcode → U16
  | .encReset => 0x1000#16
  | .encSetpre => 0x1100#16
  | .encSetlab => 0x1200#16
  | .encSetspb => 0x1300#16
  | .encSetpsz => 0x1400#16
  | .encEncode => 0x1800#16
  | .decReset => 0x2000#16
  | .decSetpre => 0x2100#16
  | .decSetlab => 0x2200#16
  | .decSetspb => 0x2300#16
  | .decSetpsz => 0x2400#16
  | .decDecode => 0x2800#16
  | .alnReset => 0x3000#16
  | .alnAlign => 0x3800#16

/-- Typed operands as integer values (R9). -/
def Value.ofU8List (xs : List U8) : Value := .list (xs.map fun x => (x.toNat : Int))
def Value.ofU32List (xs : List U32) : Value := .list (xs.map fun x => (x.toNat : Int))
def Value.ofS32List (xs : List S32) : Value := .list (xs.map BitVec.toInt)
def Value.ofU32 (x : U32) : Value := .int (x.toNat : Int)
def Value.ofBit (b : Bool) : Value := .int (if b then 1 else 0)

/-- The side-channel operand of a record: present exactly when the window is. -/
def Record.ofSideChannel : Option (List U32) → Record
  | none => []
  | some xs => [(.sci, Value.ofU32List xs)]

/-- The operand record of an instruction, its fields in the order of R94. -/
def Instr.record : Instr → Record
  | .encReset pre lab spb psz sc | .decReset pre lab spb psz sc =>
    [(.pre, Value.ofU8List pre), (.lab, Value.ofU8List lab), (.spb, Value.ofU32 spb),
      (.psz, Value.ofU32 psz), (.sc, Value.ofBit sc)]
  | .encSetpre pre | .decSetpre pre => [(.pre, Value.ofU8List pre)]
  | .encSetlab lab | .decSetlab lab => [(.lab, Value.ofU8List lab)]
  | .encSetspb spb | .decSetspb spb => [(.spb, Value.ofU32 spb)]
  | .encSetpsz psz | .decSetpsz psz => [(.psz, Value.ofU32 psz)]
  | .encEncode pay sci out =>
    (.pay, Value.ofU8List pay) :: (Record.ofSideChannel sci ++ [(.out, Value.ofU32 out)])
  | .decDecode raw sci out =>
    (.raw, Value.ofU8List raw) :: (Record.ofSideChannel sci ++ [(.out, Value.ofU32 out)])
  | .alnReset p k => [(.p, Value.ofU32 p), (.k, Value.ofU32 k)]
  | .alnAlign d1 s1 c1 d2 s2 c2 out =>
    [(.d1, Value.ofU8List d1), (.s1, Value.ofU8List s1), (.c1, Value.ofS32List c1),
      (.d2, Value.ofU8List d2), (.s2, Value.ofU8List s2), (.c2, Value.ofS32List c2),
      (.out, Value.ofU32 out)]

/-- The command of an instruction. -/
def encode (i : Instr) : Command := ⟨i.opcode.word, i.record⟩

/-- The pseudo-command link.reset (R103): enc.reset then dec.reset, with one layout. -/
def linkReset (pre lab : List U8) (spb psz : U32) (sc : Bool) : List Command :=
  [encode (.encReset pre lab spb psz sc), encode (.decReset pre lab spb psz sc)]

/-- The instruction of an operation whose operands are all zero or empty, the side channel absent:
what the table's word stands for, since the table gives operands no bits (log entry 7). -/
def Opcode.zeroInstr : Opcode → Instr
  | .encReset => .encReset [] [] 0 0 false
  | .encSetpre => .encSetpre []
  | .encSetlab => .encSetlab []
  | .encSetspb => .encSetspb 0
  | .encSetpsz => .encSetpsz 0
  | .encEncode => .encEncode [] none 0
  | .decReset => .decReset [] [] 0 0 false
  | .decSetpre => .decSetpre []
  | .decSetlab => .decSetlab []
  | .decSetspb => .decSetspb 0
  | .decSetpsz => .decSetpsz 0
  | .decDecode => .decDecode [] none 0
  | .alnReset => .alnReset 0 0
  | .alnAlign => .alnAlign [] [] [] [] [] [] 0

/-- The command of a word of the opcode table: the word with its operation's zero record; an illegal
word stands with an empty record. -/
def tableCommand (w : U16) : Command :=
  match opcodeOf w with
  | none => ⟨w, []⟩
  | some op => ⟨w, op.zeroInstr.record⟩

/-- The low `nbits` bits of `w`: the bits above are zero. -/
def tableWord (nbits w : Nat) : Nat := w % 2 ^ nbits

/-- The instruction the decoder reads from a word of the opcode table (log entry 7). A command has
one 16-bit word, so a bit at or above bit 16 makes it no command. -/
def decodeTableWord (nbits w : Nat) : Option Instr :=
  if tableWord nbits w < 65536 then
    match decode (tableCommand (BitVec.ofNat 16 (tableWord nbits w))) with
    | .instr i => some i
    | .illegalWord => none
    | .badRecord => none
  else none

end Sys2Proof
end

