-- ==== Sys2Proof/Machine/State.lean ====
section
/-! DEFINITION. FRAL's state (10_state.md R30 to R52), the result records a command returns
(30_encoding.md R98, R99), the host's side of the interface, and the state at power-on. -/

namespace Sys2Proof.Machine

/-- Why a step could stop with a fault: NEVER. FRAL raises no exception, trap or fault, and "a model of
FRAL therefore has no fault outcome of its own" (60_exceptions.md R270); nothing raises a fault, which
is safe (log entry 19). -/
inductive Fault where
  deriving DecidableEq, Repr

/-- Why a step could be refused. -/
inductive Refusal where
  /-- Raised by exec's arm of an instruction that has no meaning yet, and by nothing else; safe. No
  arm raises it in this model. -/
  | notModelled (mnemonic : String)
  deriving DecidableEq, Repr

/-- The registers ENC and DEC have alike (R33 to R37, R45) with the derived ones (R41 to R44). -/
structure FrameRegs where
  /-- CFGD: whether the unit holds a configuration. -/
  cfgd : Bool
  /-- PRE: the preamble, each element 0 or 1. -/
  pre : List U8
  /-- LAB: the label's characters. -/
  lab : List U8
  /-- SPB: samplesPerBit. -/
  spb : U32
  /-- PSZ: payloadSize. -/
  psz : U32
  /-- SC: whether the side channel is connected. -/
  sc : Bool
  /-- HP: the derived header pattern. -/
  hp : List U8
  /-- HDRT: the derived header template, the decoder's needle. -/
  hdrt : List U8
  /-- N: the derived length of HDRT. -/
  n : Nat
  /-- FL: the derived frame length. -/
  fl : Nat
  deriving DecidableEq, Repr

/-- ENC (R33 to R38, R41 to R44). -/
structure Enc where
  regs : FrameRegs
  /-- CNT: the running packet counter. -/
  cnt : U16
  deriving DecidableEq, Repr

/-- One slot of the RingBank (R48): RANK and DATA mean something only when V is 1. -/
structure Slot where
  /-- V: the valid bit. -/
  v : Bool
  /-- RANK: the age rank, 0 the oldest. -/
  rank : Nat
  /-- DATA: the packet. -/
  data : List U8
  deriving DecidableEq, Repr

/-- ALN.BANK with ALN.OCC (R48, R49): CAP slots, kept as a list of that length (Safety.lean states it). -/
structure Bank where
  slots : List Slot
  /-- OCC: the occupied count. -/
  occ : Nat
  deriving DecidableEq, Repr

/-- ALN (R47 to R51). -/
structure Aln where
  /-- CFGD: whether ALN holds a configuration. -/
  cfgd : Bool
  /-- P: payloadSize. -/
  p : U32
  /-- K: window length in packets. -/
  k : U32
  /-- BANK and OCC. -/
  bank : Bank
  /-- F: the bank holds exactly |BDELAY| packets. -/
  f : Bool
  /-- BDELAY: the delay for which the bank's contents were collected. -/
  bdelay : S32
  deriving DecidableEq, Repr

/-- ALN.W, the alignment window in items (R47): computed from P and K where it is read (log entry 11). -/
def Aln.w (a : Aln) : Nat := a.k.toNat * a.p.toNat

/-- The status of a command (30_encoding.md R99). -/
inductive Status where
  | ok
  | rejected
  | illegal
  deriving DecidableEq, Repr

/-- The status codes of R99. -/
def Status.code : Status → Nat
  | .ok => 0
  | .rejected => 1
  | .illegal => 2

/-- What enc.encode returns beside its status: the items consumed on each input port and produced on
each output port, and the produced items; `sc` is present exactly when the side channel is (R98). -/
structure EncRun where
  consumed : Nat
  produced : Nat
  frm : List U8
  sc : Option (List U32)
  deriving DecidableEq, Repr

/-- What dec.decode returns beside its status (R98). -/
structure DecRun where
  consumed : Nat
  produced : Nat
  pay : List U8
  sync : List U8
  cnt : List S32
  sc : Option (List U32)
  deriving DecidableEq, Repr

/-- What aln.align returns beside its status (R98). -/
structure AlnRun where
  consumed : Nat
  produced : Nat
  o1 : List U8
  o2 : List U8
  ctl : List S32
  deriving DecidableEq, Repr

/-- What a command delivers beside its status: nothing, for a configuration command and for every
command that is not OK, or the counts and items of a RUN (R98; log entry 16). -/
inductive Delivery where
  | nothing
  | enc (run : EncRun)
  | dec (run : DecRun)
  | aln (run : AlnRun)
  deriving DecidableEq, Repr

/-- A result record (R98). -/
structure Result where
  status : Status
  delivery : Delivery
  deriving DecidableEq, Repr

/-- The state: the three units, which share nothing (R2, R30), and the model's own fields, which the
spec does not count as state (INVENTORY.md, '## State'). -/
structure State where
  /-- ENC. -/
  enc : Enc
  /-- DEC. -/
  dec : FrameRegs
  /-- ALN. -/
  aln : Aln
  /-- The OPEN parameters of R8: written by no step (log entries 2, 3). -/
  params : Params
  /-- How many free values have been drawn (log entry 8). -/
  draws : Nat
  /-- The commands the host has issued and FRAL has not performed, oldest first (log entry 4). -/
  pending : List Command
  /-- The result records returned, oldest first: a run's observation (R282; log entry 4). -/
  results : List Result
  deriving DecidableEq, Repr

/-- The registers of an unconfigured ENC or DEC at power-on: CFGD is 0 (R56, R300); every other value
is a DESIGN CHOICE, unsafe (log entry 1). -/
def FrameRegs.powerOn : FrameRegs where
  cfgd := false
  pre := []
  lab := []
  spb := 0
  psz := 0
  sc := false
  hp := []
  hdrt := []
  n := 0
  fl := 0

/-- A bank with no valid slot; ranks and data at power-on are a DESIGN CHOICE, unsafe (log entry 1). -/
def Bank.powerOn : Bank where
  slots := List.replicate Config.cap ⟨false, 0, []⟩
  occ := 0

/-- ALN at power-on: CFGD is 0 (R56, R300); the rest a DESIGN CHOICE, unsafe (log entry 1). -/
def Aln.powerOn : Aln where
  cfgd := false
  p := 0
  k := 0
  bank := Bank.powerOn
  f := false
  bdelay := 0

/-- FRAL at power-on (R300): every unit unconfigured, no command issued, no result returned. -/
def State.reset : State where
  enc := ⟨FrameRegs.powerOn, 0⟩
  dec := FrameRegs.powerOn
  aln := Aln.powerOn
  params := Params.atReset
  draws := 0
  pending := []
  results := []

end Sys2Proof.Machine
end

