-- ==== Sys2Proof/Machine/Operands.lean ====
section
/-! DEFINITION. ArrayOps (40_primitives.md R130 to R137) and the reading of windows: slices, packets,
rooms (00_scope.md R10, 20_memory.md R72 to R74). -/

namespace Sys2Proof.Machine

/-- `a[lo..hi)` (00_scope.md R10); of a range that goes past the end, the items there are (log entry 20). -/
def slice {α : Type} (a : List α) (lo hi : Nat) : List α := (a.drop lo).take (hi - lo)

/-- "Packet j" of a window of packets of `p` items (R10). -/
def packet {α : Type} (p : Nat) (a : List α) (j : Nat) : List α := slice a (j * p) ((j + 1) * p)

/-- `fill(n, v)` (R131). -/
def fill {α : Type} (n : Nat) (v : α) : List α := List.replicate n v

/-- `copy(src, len)`, defined when `len ≤ len(src)` (R131); else all of `src` (log entry 20). -/
def copy {α : Type} (src : List α) (len : Nat) : List α := src.take len

/-- `interpolate(src, ratio)`: each sample held `ratio` times, for a ratio of at least 1 (R132); for 0 the
empty list (log entry 20). -/
def interpolate {α : Type} (src : List α) (ratio : Nat) : List α :=
  src.flatMap fun x => fill ratio x

/-- `decimate(src, ratio)`: the elements `src[j·ratio]`, `ceil(len(src) / ratio)` of them,
for a ratio of at least 1 (R133); for 0 the empty list (log entry 20). -/
def decimate {α : Type} (src : List α) (ratio : Nat) : List α :=
  (List.range ((src.length + ratio - 1) / ratio)).filterMap fun j => src[j * ratio]?

/-- `numberToBits(n, bitLen)`: element i is `(n >> i) & 1` (R134). -/
def numberToBits (n bitLen : Nat) : List U8 :=
  (List.range bitLen).map fun i => BitVec.ofNat 8 ((n >>> i) &&& 1)

/-- `bitsToNumber(bits, bitLen)`: the sum of `bits[i] << i` for i < bitLen, the elements unmasked
(R135). R135 gives no value for fewer than `bitLen` elements: DESIGN CHOICE, the missing ones count as 0
(log entry 20). DEC reads 16 elements in every state a run reaches. -/
def bitsToNumber (bits : List U8) (bitLen : Nat) : Nat :=
  ((List.range bitLen).map fun i => (bits[i]?.elim 0 BitVec.toNat) <<< i).sum

/-- `linearMap(src, a, b)`: element i is `src[i]*a+b`, over the number type FLOAT = `α` (R136; log
entry 12). No command calls it. -/
def linearMap {α : Type} [Mul α] [Add α] (src : List α) (a b : α) : List α :=
  src.map fun x => x * a + b

/-- The running numerator and denominator of `weightedAverage` after the terms k = 1, …, m (R137):
for each k first the side `c − k`, then the side `c + k`, each where it is in range (log entry 12). -/
def weightedSums {α : Type} [Mul α] [Add α] (buf weights : List α) (c len : Nat) (w0 b0 : α) :
    Nat → α × α
  | 0 => (w0 * b0, w0)
  | m + 1 =>
    let acc := weightedSums buf weights c len w0 b0 m
    let k := m + 1
    match weights[k]? with
    | none => acc
    | some w =>
      let low := match (if k ≤ c then buf[c - k]? else none) with
        | none => acc
        | some b => (acc.1 + w * b, acc.2 + w)
      match (if c + k < len then buf[c + k]? else none) with
      | none => low
      | some b => (low.1 + w * b, low.2 + w)

/-- `weightedAverage(buf, weights, c, len, wl)` over the number type FLOAT = `α` (R137): defined for
`c < len` (with the buffer and the weights as long as `len` and `wl` say) and a nonzero denominator
(93_implementation_defined.md I4), else none. No command calls it. -/
def weightedAverage {α : Type} [Mul α] [Add α] [Div α] [Zero α] [DecidableEq α]
    (buf weights : List α) (c len wl : Nat) : Option α :=
  if c < len ∧ len ≤ buf.length ∧ wl ≤ weights.length then
    match weights[0]?, buf[c]? with
    | some w0, some b0 =>
      let sums := weightedSums buf weights c len w0 b0 (wl - 1)
      if sums.2 = 0 then none else some (sums.1 / sums.2)
    | _, _ => none
  else none

/-- Whether an integer is an `s32` value (00_scope.md R9). -/
def fitsS32 (v : Int) : Bool := decide (-2147483648 ≤ v) && decide (v.toNat < 2147483648)

/-- `wrap_s32(v)` (R9). -/
def wrapS32 (v : Int) : S32 := BitVec.ofInt 32 v

/-- The side-channel window is present exactly when SC is 1 (R94, R176, R206). -/
def sideChannelFits {α : Type} (sc : Bool) (sci : Option α) : Bool := sc == sci.isSome

/-- The items available on a unit's inputs: those of the main window, cut to the side-channel window
where there is one (R176 `avail`, R206 `IN`). -/
def available (main : List U8) (sci : Option (List U32)) : Nat :=
  match sci with
  | none => main.length
  | some xs => min main.length xs.length

end Sys2Proof.Machine
end

