-- ==== Sys2Proof/Machine/Flags.lean ====
section
/-! DEFINITION. FRAL's one flag, ALN.F (10_state.md R50, R54). -/

namespace Sys2Proof.Machine

/-- ALN.F after a skew window: 1 when the bank holds exactly `d` packets, the complete delay line
(R50, 43_aligner.md R239, R241). -/
def delayLineFlag (occ d : Nat) : Bool := occ == d

/-- ALN.F after `clearAlignment()` and after aln.reset (43_aligner.md R230, R236). -/
def clearedFlag : Bool := false

end Sys2Proof.Machine
end

