-- ==== Sys2Proof/Machine/Ops.lean ====
section
/-! DEFINITION. The operations every meaning shares: answering a command, rejecting it, and the frame
layout of ENC and DEC (10_state.md R40 to R44). FRAL takes no exception (60_exceptions.md R274): what
stands in its place is a rejection, which changes no register. -/

namespace Sys2Proof.Machine

/-- The outcome of one step of this machine. -/
abbrev StepOutcome := Host.Outcome State Fault Refusal

/-- A result record is returned to the host (30_encoding.md R98): every command answers exactly one. -/
def State.answer (s : State) (status : Status) (delivery : Delivery) : State :=
  { s with results := s.results ++ [⟨status, delivery⟩] }

/-- `return OK` of a configuration command. -/
def State.accept (s : State) : StepOutcome := .next (s.answer .ok .nothing)

/-- `return OK` of a RUN command. -/
def State.deliver (s : State) (d : Delivery) : StepOutcome := .next (s.answer .ok d)

/-- `reject(REJECTED)`: no register and no output changes (R11, R272, R274). -/
def State.reject (s : State) : StepOutcome := .next (s.answer .rejected .nothing)

/-- `reject(ILLEGAL)`: the word is not a command's (30_encoding.md R93). -/
def State.rejectIllegal (s : State) : StepOutcome := .next (s.answer .illegal .nothing)

/-- `valid(pre, lab, spb, psz)` (R40). -/
def validLayout (c : Params) (pre lab : List U8) (spb psz : U32) : Bool :=
  decide (0 < pre.length + 8 * lab.length) && decide (1 ≤ spb.toNat) && decide (1 ≤ psz.toNat) &&
    (pre.all fun b => b == 0#8 || b == 1#8) && decide (pre.length ≤ c.maxPre) &&
    decide (lab.length ≤ c.maxLab) && decide (spb.toNat ≤ c.maxSpb) && decide (psz.toNat ≤ c.maxPsz)

/-- `labelBits(LAB)`: each character's 8 bits, least significant first (R41). -/
def labelBits (lab : List U8) : List U8 := lab.flatMap fun ch => numberToBits ch.toNat 8

/-- `HP = PRE ++ labelBits(LAB)` (R41). -/
def headerPattern (pre lab : List U8) : List U8 := pre ++ labelBits lab

/-- `FL = (Np + 8·Nl + 16)·SPB + PSZ` (R43). -/
def frameLength (pre lab : List U8) (spb psz : U32) : Nat :=
  (pre.length + 8 * lab.length + Config.cntBits) * spb.toNat + psz.toNat

/-- `recompute` (R44): HP, HDRT, N and FL from the configuration, together. -/
def FrameRegs.recompute (u : FrameRegs) : FrameRegs :=
  let hp := headerPattern u.pre u.lab
  let hdrt := interpolate hp u.spb.toNat
  { u with hp := hp, hdrt := hdrt, n := hdrt.length, fl := frameLength u.pre u.lab u.spb u.psz }

/-- The registers an accepted reset leaves (41_encoder.md R170, 42_decoder.md R200): none of the old
ones is kept. -/
def FrameRegs.configured (pre lab : List U8) (spb psz : U32) (sc : Bool) : FrameRegs :=
  FrameRegs.recompute
    { cfgd := true, pre := pre, lab := lab, spb := spb, psz := psz, sc := sc,
      hp := [], hdrt := [], n := 0, fl := 0 }

/-- An ENC or DEC reset (R170, R200): the new registers, or none where the layout is invalid. -/
def FrameRegs.afterReset (c : Params) (pre lab : List U8) (spb psz : U32) (sc : Bool) :
    Option FrameRegs :=
  if validLayout c pre lab spb psz then some (FrameRegs.configured pre lab spb psz sc) else none

/-- The registers a setter leaves, given the layout it asks for; none where the unit is unconfigured or
the layout invalid (R171 to R174, R201 to R204). -/
def FrameRegs.relaid (c : Params) (u : FrameRegs) (pre lab : List U8) (spb psz : U32) :
    Option FrameRegs :=
  if u.cfgd && validLayout c pre lab spb psz then
    some (FrameRegs.recompute { u with pre := pre, lab := lab, spb := spb, psz := psz })
  else none

/-- The four setters (R171 to R174). -/
def FrameRegs.setPre (c : Params) (u : FrameRegs) (pre : List U8) : Option FrameRegs :=
  u.relaid c pre u.lab u.spb u.psz
def FrameRegs.setLab (c : Params) (u : FrameRegs) (lab : List U8) : Option FrameRegs :=
  u.relaid c u.pre lab u.spb u.psz
def FrameRegs.setSpb (c : Params) (u : FrameRegs) (spb : U32) : Option FrameRegs :=
  u.relaid c u.pre u.lab spb u.psz
def FrameRegs.setPsz (c : Params) (u : FrameRegs) (psz : U32) : Option FrameRegs :=
  u.relaid c u.pre u.lab u.spb psz

/-- ENC takes new registers and keeps its counter (R175), or the command is rejected. -/
def State.configureEnc (s : State) : Option FrameRegs → StepOutcome
  | none => s.reject
  | some u => State.accept { s with enc := { s.enc with regs := u } }

/-- DEC takes new registers, or the command is rejected (R205). -/
def State.configureDec (s : State) : Option FrameRegs → StepOutcome
  | none => s.reject
  | some u => State.accept { s with dec := u }

/-- The oldest command issued, with the state in which it runs: the command is taken off `pending`
(log entry 4). -/
def State.fetch (s : State) : Option (Command × State) :=
  match s.pending with
  | [] => none
  | c :: rest => some (c, { s with pending := rest })

/-- What a step does when no command is pending: nothing (60_exceptions.md R276; log entry 5). -/
def State.idle (s : State) : StepOutcome := .next s

/-- The host issues a command ahead of all others. -/
def State.issueFirst (s : State) (c : Command) : State := { s with pending := c :: s.pending }

/-- The unit whose RUN a delivery answers, with its counts and whether its side channel is connected. -/
def Delivery.counts : Delivery → Option (UnitId × Nat × Nat × Bool)
  | .nothing => none
  | .enc r => some (.enc, r.consumed, r.produced, r.sc.isSome)
  | .dec r => some (.dec, r.consumed, r.produced, r.sc.isSome)
  | .aln r => some (.aln, r.consumed, r.produced, false)

/-- `consumed(p)` (R98): every input port of a unit consumes the same count, the side channel's where it
is connected; none where the result has no such port. -/
def Result.consumedOn (r : Result) (p : Port) : Option Nat :=
  match r.delivery.counts with
  | none => none
  | some (u, c, _, side) =>
    if p.unit = u ∧ p.isInput = true ∧ (p.isSideChannel = true → side = true) then some c else none

/-- `produced(p)` (R98): every output port of a unit produces the same count. -/
def Result.producedOn (r : Result) (p : Port) : Option Nat :=
  match r.delivery.counts with
  | none => none
  | some (u, _, c, side) =>
    if p.unit = u ∧ p.isInput = false ∧ (p.isSideChannel = true → side = true) then some c else none

/-- The items of an output port as integers of its item type (R9, R71): unsigned, but for `s32`. -/
def itemValues {w : Nat} (xs : List (BitVec w)) : List Int := xs.map fun x => (x.toNat : Int)
def signedValues (xs : List S32) : List Int := xs.map BitVec.toInt

/-- The items a result delivers on a port (R74, R98), none where it has no such port. -/
def Result.itemsOn (r : Result) (p : Port) : Option (List Int) :=
  match r.delivery, p with
  | .enc e, .encFrmOut => some (itemValues e.frm)
  | .enc e, .encScOut => e.sc.map itemValues
  | .dec d, .decPayOut => some (itemValues d.pay)
  | .dec d, .decSyncOut => some (itemValues d.sync)
  | .dec d, .decCntOut => some (signedValues d.cnt)
  | .dec d, .decScOut => d.sc.map itemValues
  | .aln a, .alnO1Out => some (itemValues a.o1)
  | .aln a, .alnO2Out => some (itemValues a.o2)
  | .aln a, .alnCtlOut => some (signedValues a.ctl)
  | _, _ => none

end Sys2Proof.Machine
end

