-- ==== Sys2Proof/Machine/RingBank.lean ====
section
/-! DEFINITION. The RingBank operations (40_primitives.md R150 to R155). -/

namespace Sys2Proof.Machine

/-- The valid slot of rank r (R153); none only in a bank whose ranks break R49 (log entry 10). -/
def Bank.slotOfRank (b : Bank) (r : Nat) : Option Slot := b.slots.find? fun s => s.v && s.rank == r

/-- `RANK[k] <- RANK[k] − 1` (R152, R153). -/
def Slot.age (s : Slot) : Slot := { s with rank := s.rank - 1 }

/-- What `pop` does to a slot (R153): the oldest is emptied, every other valid slot ages. -/
def Slot.afterPop (s : Slot) : Slot :=
  if s.v then (if s.rank = 0 then { s with v := false } else s.age) else s

/-- What a push into a full bank does to a slot (R152): the oldest is overwritten and becomes the
newest, every other slot ages. -/
def Slot.afterEviction (item : List U8) (s : Slot) : Slot :=
  if s.rank = 0 then { s with rank := Config.cap - 1, data := item } else s.age

/-- `push(item)` (R152): into the empty slot of lowest index (R151), or, when the bank is full, over the
oldest slot. -/
def Bank.push (b : Bank) (item : List U8) : Bank :=
  if b.occ < Config.cap then
    { slots := b.slots.set (b.slots.findIdx fun s => !s.v) ⟨true, b.occ, item⟩, occ := b.occ + 1 }
  else
    { b with slots := b.slots.map (Slot.afterEviction item) }

/-- `pop()` (R153): the oldest packet, the index of its slot, and the bank without it; none from an
empty bank. -/
def Bank.pop (b : Bank) : Option (List U8 × Nat × Bank) :=
  if b.occ = 0 then none
  else
    match b.slotOfRank 0 with
    | none => none
    | some oldest =>
      some (oldest.data, b.slots.findIdx fun s => s.v && s.rank == 0,
        { slots := b.slots.map Slot.afterPop, occ := b.occ - 1 })

/-- `clear()` (R154): RANK and DATA keep what they held. -/
def Bank.clear (b : Bank) : Bank := { slots := b.slots.map fun s => { s with v := false }, occ := 0 }

/-- `contents()` (R155): the packets of the valid slots, oldest first. -/
def Bank.contents (b : Bank) : List (List U8) :=
  (List.range b.occ).filterMap fun r => (b.slotOfRank r).map Slot.data

/-- Pushes, first to last. -/
def Bank.pushAll (b : Bank) (items : List (List U8)) : Bank := items.foldl Bank.push b

/-- `m` pops: the packets, oldest first, and the bank left. It stops early only at an empty bank. -/
def Bank.popMany : Nat → Bank → List (List U8) × Bank
  | 0, b => ([], b)
  | m + 1, b =>
    match b.pop with
    | none => ([], b)
    | some (item, _, b') => ((item :: (Bank.popMany m b').1), (Bank.popMany m b').2)

end Sys2Proof.Machine
end

