-- ==== Sys2Proof/Machine/Aligner.lean ====
section
/-! DEFINITION. The ALN commands (43_aligner.md R230 to R244). -/

namespace Sys2Proof.Machine

/-- `clearAlignment()` (R236): the bank emptied, F and BDELAY zeroed. -/
def Aln.clearAlignment (a : Aln) : Aln :=
  { a with bank := a.bank.clear, f := clearedFlag, bdelay := 0 }

/-- Whether P and K are in range (R230). -/
def validDimensions (c : Params) (p k : U32) : Bool :=
  decide (1 ≤ p.toNat) && decide (1 ≤ k.toNat) && decide (p.toNat ≤ c.maxPsz) &&
    decide (k.toNat ≤ c.maxAlnK)

/-- aln.reset (R230). -/
def execAlnReset (p k : U32) (s : State) : StepOutcome :=
  if validDimensions s.params p k then
    State.accept { s with aln := { s.aln.clearAlignment with cfgd := true, p := p, k := k } }
  else s.reject

/-- The six input windows of one ALIGN (R94). -/
structure AlnWindows where
  d1 : List U8
  s1 : List U8
  c1 : List S32
  d2 : List U8
  s2 : List U8
  c2 : List S32
  deriving DecidableEq, Repr

/-- `min(len(d1), …, len(c2))` (R232). -/
def AlnWindows.shortest (x : AlnWindows) : Nat :=
  min x.d1.length (min x.s1.length (min x.c1.length
    (min x.d2.length (min x.s2.length x.c2.length))))

/-- `syncIndex(s)` (R233): the first nonzero item of the first P, or P. -/
def syncIndex (p : Nat) (s : List U8) : Nat :=
  ((s.take p).findIdx? fun x => x != 0).getD p

/-- The counter at index 0 (R232); a window of W ≥ 1 items has one (log entry 10). -/
def counterAtZero (c : List S32) : Int :=
  match c with
  | [] => 0
  | v :: _ => v.toInt

/-- A control window of `n` items of the value `v`: where `v` is no `s32` value the spec states none,
and the items are free values (log entry 8). -/
def indexControl (draws n : Nat) (v : Int) : List S32 :=
  if fitsS32 v then fill n (wrapS32 v) else (List.range n).map (Config.freeCtl draws)

/-- The free values drawn by a control window of the value `v`. -/
def drawsAfter (draws : Nat) (v : Int) : Nat := if fitsS32 v then draws else draws + 1

/-- A window of `n` items on the three outputs and `n` consumed on the six inputs (R242). -/
def alnWindow (n : Nat) (o1 o2 : List U8) (ctl : List S32) : Delivery :=
  .aln ⟨n, n, o1, o2, ctl⟩

/-- MIS (R234). -/
def alignMis (i1 i2 : Nat) (s : State) : StepOutcome :=
  let w := s.aln.w
  let v : Int := (i1 : Int) - i2
  State.deliver { s with aln := s.aln.clearAlignment, draws := drawsAfter s.draws v }
    (alnWindow w (fill w Config.errMis) (fill w Config.errMis) (indexControl s.draws w v))

/-- OFF (R235). -/
def alignOff (i1 : Nat) (s : State) : StepOutcome :=
  State.deliver { s with aln := s.aln.clearAlignment, draws := drawsAfter s.draws i1 }
    (alnWindow i1 (fill i1 Config.errOff) (fill i1 Config.errOff) (indexControl s.draws i1 i1))

/-- OVF (R237). -/
def alignOvf (delay : Int) (s : State) : StepOutcome :=
  let w := s.aln.w
  State.deliver { s with aln := s.aln.clearAlignment }
    (alnWindow w (fill w Config.errOvf) (fill w Config.errOvf) (fill w (wrapS32 delay)))

/-- SYNC (R238). -/
def alignSync (x : AlnWindows) (s : State) : StepOutcome :=
  let w := s.aln.w
  State.deliver { s with aln := s.aln.clearAlignment }
    (alnWindow w (copy x.d1 w) (copy x.d2 w) (fill w 0))

/-- The bank a skew window starts from (R239): kept when it holds packets of the same lead, at most D of
them; else emptied. -/
def skewBank (a : Aln) (delay : Int) : Bank :=
  if decide (0 < a.bank.occ) && (decide (0 < a.bdelay.toInt) == decide (0 < delay)) &&
      decide (a.bank.occ ≤ delay.natAbs) then a.bank
  else a.bank.clear

/-- The lead output of the steady path (R240), packets j = 0, …, K − 1: the popped packets, then the
lead window's. -/
def steadyLead (popped : List (List U8)) (p k d : Nat) (lead : List U8) : List U8 :=
  (popped ++ (List.range (k - d)).map (packet p lead)).flatten

/-- The packets of the lead window that the steady path pushes (R240): j from max(0, K − D) to K − 1. -/
def steadyPushed (p k d : Nat) (lead : List U8) : List (List U8) :=
  (List.range (k - (k - d))).map fun j => packet p lead (k - d + j)

/-- The two data outputs in port order, given the lead's and the lag's (R239). -/
def byPort (delay : Int) (lead lag : List U8) : List U8 × List U8 :=
  if 0 < delay then (lead, lag) else (lag, lead)

/-- The steady path (R240): `min D K` pops, then the pushes. -/
def alignSteady (bank : Bank) (delay : Int) (lead lag : List U8) (s : State) : StepOutcome :=
  let w := s.aln.w
  let p := s.aln.p.toNat
  let k := s.aln.k.toNat
  let d := delay.natAbs
  let popped := Bank.popMany (min d k) bank
  let outs := byPort delay (steadyLead popped.1 p k d lead) (copy lag w)
  let bank' := popped.2.pushAll (steadyPushed p k d lead)
  State.deliver
    { s with aln :=
        { s.aln with bank := bank', f := delayLineFlag bank.occ d, bdelay := wrapS32 delay } }
    (alnWindow w outs.1 outs.2 (fill w (wrapS32 delay)))

/-- The filling path (R241): the `min (D − OCC) K` packets the delay line lacks. -/
def alignFill (bank : Bank) (delay : Int) (lead : List U8) (s : State) : StepOutcome :=
  let p := s.aln.p.toNat
  let d := delay.natAbs
  let n := min (d - bank.occ) s.aln.k.toNat
  let bank' := bank.pushAll ((List.range n).map (packet p lead))
  State.deliver
    { s with aln :=
        { s.aln with bank := bank', f := delayLineFlag bank'.occ d, bdelay := wrapS32 delay } }
    (alnWindow (n * p) (fill (n * p) Config.errFill) (fill (n * p) Config.errFill)
      (fill (n * p) (wrapS32 delay)))

/-- SKEW (R239): the lead is stream 1 when the delay is positive, else stream 2. -/
def alignSkew (x : AlnWindows) (delay : Int) (s : State) : StepOutcome :=
  let bank := skewBank s.aln delay
  let lead := if 0 < delay then x.d1 else x.d2
  let lag := if 0 < delay then x.d2 else x.d1
  if bank.occ = delay.natAbs then alignSteady bank delay lead lag s
  else alignFill bank delay lead s

/-- The branch of a full window, the first that applies (R232). -/
def alignBranch (x : AlnWindows) (s : State) : StepOutcome :=
  let i1 := syncIndex s.aln.p.toNat x.s1
  let i2 := syncIndex s.aln.p.toNat x.s2
  let delay := counterAtZero x.c1 - counterAtZero x.c2
  if i1 ≠ i2 then alignMis i1 i2 s
  else if i1 ≠ 0 then alignOff i1 s
  else if Config.cap < delay.natAbs then alignOvf delay s
  else if delay = 0 then alignSync x s
  else alignSkew x delay s

/-- aln.align (R231, R232). -/
def execAlnAlign (d1 s1 : List U8) (c1 : List S32) (d2 s2 : List U8) (c2 : List S32) (out : U32)
    (s : State) : StepOutcome :=
  let x : AlnWindows := ⟨d1, s1, c1, d2, s2, c2⟩
  if s.aln.cfgd && decide (s.aln.w ≤ x.shortest) && decide (s.aln.w ≤ out.toNat) then
    alignBranch x s
  else s.reject

end Sys2Proof.Machine
end

