-- ==== Sys2Proof/Machine/Matcher.lean ====
section
/-! DEFINITION. PatternMatcher (40_primitives.md R140 to R142). -/

namespace Sys2Proof.Machine

/-- `|a − b|` of two items (R9, R140). -/
def absDiff (a b : U8) : Nat := ((a.toNat : Int) - b.toNat).natAbs

/-- `dist(h, n, t)`: the pattern distance at offset t (R140), defined when `t + N ≤ len(h)`; past that, the
sum over the items there are (log entry 20). -/
def dist (h n : List U8) (t : Nat) : Nat := (List.zipWith absDiff (h.drop t) n).sum

/-- How an offset was found (R141). -/
inductive MatchKind where
  | exact
  | best
  deriving DecidableEq, Repr

/-- A match: an offset with its kind (R141). -/
structure MatchResult where
  offset : Nat
  kind : MatchKind
  deriving DecidableEq, Repr

/-- Where the scan of R141 ends: at the first zero sum, or after every offset with the first least sum
seen, as (offset, sum). -/
inductive Scan where
  | exactAt (t : Nat)
  | bestOf (best : Option (Nat × Nat))
  deriving DecidableEq, Repr

/-- The loop of R141 over `m` more offsets from `t` on, `best` the first least sum so far. -/
def scanFrom (h n : List U8) : Nat → Nat → Option (Nat × Nat) → Scan
  | 0, _, best => .bestOf best
  | m + 1, t, best =>
    let s := dist h n t
    if s = 0 then .exactAt t
    else
      match best with
      | none => scanFrom h n m (t + 1) (some (t, s))
      | some b => scanFrom h n m (t + 1) (if s < b.2 then some (t, s) else some b)

/-- `accept(minSum, H, N)` under MATCH_TOL (R142); `H − N` is positive where the scan saw an offset. -/
def accept (tol : MatchTol) (minSum haystack needle : Nat) : Bool :=
  match tol with
  | .tolGlobal => decide (4 * minSum ≤ 3 * (haystack - needle))
  | .tolNeedle => decide (4 * minSum ≤ needle)

/-- `matchPattern(h, n)` (R141): the offsets of `[0, H − N)`, so the last one, `H − N`, is not examined.
The needle has at least one item (R141); with none, the first offset matches exactly (log entry 20). -/
def matchPattern (tol : MatchTol) (h n : List U8) : Option MatchResult :=
  match scanFrom h n (h.length - n.length) 0 none with
  | .exactAt t => some ⟨t, .exact⟩
  | .bestOf none => none
  | .bestOf (some b) => if accept tol b.2 h.length n.length then some ⟨b.1, .best⟩ else none

end Sys2Proof.Machine
end

