-- ==== Sys2Proof/Machine/Decoder.lean ====
section
/-! DEFINITION. The DEC commands (42_decoder.md R200 to R211). -/

namespace Sys2Proof.Machine

/-- dec.reset (R200). -/
def execDecReset (pre lab : List U8) (spb psz : U32) (sc : Bool) (s : State) : StepOutcome :=
  s.configureDec (FrameRegs.afterReset s.params pre lab spb psz sc)

/-- dec.setpre (R201). -/
def execDecSetpre (pre : List U8) (s : State) : StepOutcome :=
  s.configureDec (s.dec.setPre s.params pre)

/-- dec.setlab (R202). -/
def execDecSetlab (lab : List U8) (s : State) : StepOutcome :=
  s.configureDec (s.dec.setLab s.params lab)

/-- dec.setspb (R203). -/
def execDecSetspb (spb : U32) (s : State) : StepOutcome :=
  s.configureDec (s.dec.setSpb s.params spb)

/-- dec.setpsz (R204). -/
def execDecSetpsz (psz : U32) (s : State) : StepOutcome :=
  s.configureDec (s.dec.setPsz s.params psz)

/-- The output windows of a DECODE (R206), each of NF·P items. -/
structure DecWindows where
  pay : List U8
  sync : List U8
  cnt : List S32
  side : List U32
  deriving DecidableEq, Repr

/-- The presets of R206: 255, 0, 0 and 0. -/
def decPreset (room : Nat) : DecWindows where
  pay := fill room Config.invalid
  sync := fill room 0
  cnt := fill room 0
  side := fill room 0

/-- The offset of a frame's payload region in the input (R43, R209). -/
def payloadStart (u : FrameRegs) (pos : Nat) : Nat :=
  pos + u.hdrt.length + Config.cntBits * u.spb.toNat

/-- The counter of the frame at `pos` (R209): the counter field decimated to one item a bit. -/
def frameCounter (u : FrameRegs) (raw : List U8) (pos : Nat) : Nat :=
  bitsToNumber
    (decimate (slice raw (pos + u.hdrt.length) (payloadStart u pos)) u.spb.toNat) Config.cntBits

/-- The payload region of the frame at `pos`, of the main window or the side channel's (R209, R210). -/
def framePayload {α : Type} (u : FrameRegs) (xs : List α) (pos : Nat) : List α :=
  slice xs (payloadStart u pos) (payloadStart u pos + u.psz.toNat)

/-- The sync items of one decoded packet (R209): 1 at its first item, 0 at its others. -/
def syncPacket (p : Nat) : List U8 := (fill p 0).set 0 1

/-- Where the frames that DECODE extracts stand in the window `raw` (R208): from `pos` on, at most
`room` of them, each searched for just after the one before it. -/
def framePositions (tol : MatchTol) (u : FrameRegs) (raw : List U8) : Nat → Nat → List Nat
  | 0, _ => []
  | room + 1, pos =>
    if raw.length < pos + u.fl then []
    else
      pos ::
        match matchPattern tol (raw.drop (pos + u.fl)) u.hdrt with
        | none => []
        | some r => framePositions tol u raw room (pos + u.fl + r.offset)

/-- Decoded slots written over a preset window, from its first slot on (R206, R209). -/
def overlay {α : Type} (slots : List (List α)) (preset : List α) : List α :=
  slots.flatten ++ preset.drop slots.flatten.length

/-- The windows after the frames at `frames` are extracted over the presets (R206, R209, R210). -/
def decExtract (u : FrameRegs) (raw : List U8) (sci : List U32) (frames : List Nat)
    (preset : DecWindows) : DecWindows where
  pay := overlay (frames.map (framePayload u raw)) preset.pay
  sync := overlay (frames.map fun _ => syncPacket u.psz.toNat) preset.sync
  cnt := overlay
    (frames.map fun pos => fill u.psz.toNat (BitVec.ofNat 32 (frameCounter u raw pos))) preset.cnt
  side := overlay (frames.map (framePayload u sci)) preset.side

/-- The result of a DECODE: the first `produced` items of each window are delivered (20_memory.md R74). -/
def DecWindows.deliver (w : DecWindows) (consumed produced : Nat) (side : Bool) : DecRun where
  consumed := consumed
  produced := produced
  pay := w.pay.take produced
  sync := w.sync.take produced
  cnt := w.cnt.take produced
  sc := if side then some (w.side.take produced) else none

/-- The loss-of-sync path (R207): every counter item −1, the whole window consumed, the whole room
produced. -/
def decLossOfSync (room input : Nat) (side : Bool) : DecRun :=
  DecWindows.deliver { decPreset room with cnt := fill room Config.noSyncCnt } input room side

/-- Where the input is used up to (R208): the end of the last frame, or the match where none fits. -/
def consumedBy (u : FrameRegs) (start : Nat) (frames : List Nat) : Nat :=
  match frames.getLast? with
  | none => start
  | some pos => pos + u.fl

/-- The frame path (R208) from the matched offset, `packets` slots of room. -/
def decFramePath (tol : MatchTol) (u : FrameRegs) (raw : List U8) (sci : Option (List U32))
    (packets start : Nat) : DecRun :=
  let frames := framePositions tol u raw packets start
  let windows := decExtract u raw (sci.getD []) frames (decPreset (packets * u.psz.toNat))
  windows.deliver (consumedBy u start frames) (frames.length * u.psz.toNat) sci.isSome

/-- What DEC.DECODE returns when it is accepted (R206): only the first `available` items of the windows
take part. -/
def decRun (tol : MatchTol) (u : FrameRegs) (raw : List U8) (sci : Option (List U32)) (out : U32) :
    DecRun :=
  let input := available raw sci
  let packets := out.toNat / u.psz.toNat
  let window := raw.take input
  if input = 0 ∨ packets = 0 then
    (decPreset (packets * u.psz.toNat)).deliver 0 0 sci.isSome
  else
    match matchPattern tol window u.hdrt with
    | none => decLossOfSync (packets * u.psz.toNat) input sci.isSome
    | some r => decFramePath tol u window (sci.map fun xs => xs.take input) packets r.offset

/-- dec.decode (R206 to R210): no register changes. -/
def execDecDecode (raw : List U8) (sci : Option (List U32)) (out : U32) (s : State) : StepOutcome :=
  if s.dec.cfgd && sideChannelFits s.dec.sc sci then
    s.deliver (.dec (decRun s.params.matchTol s.dec raw sci out))
  else s.reject

end Sys2Proof.Machine
end

