-- ==== Sys2Proof/Machine/Encoder.lean ====
section
/-! DEFINITION. The ENC commands (41_encoder.md R170 to R178). -/

namespace Sys2Proof.Machine

/-- enc.reset (R170). -/
def execEncReset (pre lab : List U8) (spb psz : U32) (sc : Bool) (s : State) : StepOutcome :=
  match FrameRegs.afterReset s.params pre lab spb psz sc with
  | none => s.reject
  | some u => State.accept { s with enc := ⟨u, 0⟩ }

/-- enc.setpre (R171). -/
def execEncSetpre (pre : List U8) (s : State) : StepOutcome :=
  s.configureEnc (s.enc.regs.setPre s.params pre)

/-- enc.setlab (R172). -/
def execEncSetlab (lab : List U8) (s : State) : StepOutcome :=
  s.configureEnc (s.enc.regs.setLab s.params lab)

/-- enc.setspb (R173). -/
def execEncSetspb (spb : U32) (s : State) : StepOutcome :=
  s.configureEnc (s.enc.regs.setSpb s.params spb)

/-- enc.setpsz (R174). -/
def execEncSetpsz (psz : U32) (s : State) : StepOutcome :=
  s.configureEnc (s.enc.regs.setPsz s.params psz)

/-- One frame (30_encoding.md R95, R176): header template, counter bits held SPB items each, payload. -/
def encFrame (u : FrameRegs) (cnt : U16) (chunk : List U8) : List U8 :=
  u.hdrt ++ interpolate (numberToBits cnt.toNat Config.cntBits) u.spb.toNat ++ chunk

/-- One side-channel frame (R97, R177): SPB over the whole header region, then the side payload. -/
def encSideFrame (u : FrameRegs) (chunk : List U32) : List U32 :=
  fill (u.hdrt.length + Config.cntBits * u.spb.toNat) u.spb ++ chunk

/-- The frames of ENC.ENCODE (R176): frame f of `m` carries counter `cnt + f` modulo 2^16 and packet f
of the payload. -/
def encFrames (u : FrameRegs) (cnt : U16) (pay : List U8) (m : Nat) : List (List U8) :=
  (List.range m).map fun f => encFrame u (cnt + BitVec.ofNat 16 f) (packet u.psz.toNat pay f)

/-- The side-channel frames of ENC.ENCODE (R177). -/
def encSideFrames (u : FrameRegs) (sci : List U32) (m : Nat) : List (List U32) :=
  (List.range m).map fun f => encSideFrame u (packet u.psz.toNat sci f)

/-- How many frames ENC.ENCODE emits (R176): whole chunks available, whole frames of room. -/
def encCount (u : FrameRegs) (pay : List U8) (sci : Option (List U32)) (out : U32) : Nat :=
  min (available pay sci / u.psz.toNat) (out.toNat / u.fl)

/-- What ENC.ENCODE returns when it is accepted (R176). -/
def encRun (e : Enc) (pay : List U8) (sci : Option (List U32)) (out : U32) : EncRun :=
  let m := encCount e.regs pay sci out
  { consumed := m * e.regs.psz.toNat
    produced := m * e.regs.fl
    frm := (encFrames e.regs e.cnt pay m).flatten
    sc := sci.map fun xs => (encSideFrames e.regs xs m).flatten }

/-- enc.encode (R176, R177). -/
def execEncEncode (pay : List U8) (sci : Option (List U32)) (out : U32) (s : State) : StepOutcome :=
  if s.enc.regs.cfgd && sideChannelFits s.enc.regs.sc sci then
    State.deliver
      { s with enc :=
          { s.enc with cnt := s.enc.cnt + BitVec.ofNat 16 (encCount s.enc.regs pay sci out) } }
      (.enc (encRun s.enc pay sci out))
  else s.reject

end Sys2Proof.Machine
end

