-- ==== Sys2Proof/Machine/Dispatch.lean ====
section
/-! DEFINITION. One arm per instruction, each a direct call of its meaning. -/

namespace Sys2Proof.Machine

def exec (i : Instr) (s : State) : Host.Outcome State Fault Refusal :=
  match i with
  | .encReset pre lab spb psz sc => Sys2Proof.Machine.execEncReset pre lab spb psz sc s
  | .encSetpre pre => Sys2Proof.Machine.execEncSetpre pre s
  | .encSetlab lab => Sys2Proof.Machine.execEncSetlab lab s
  | .encSetspb spb => Sys2Proof.Machine.execEncSetspb spb s
  | .encSetpsz psz => Sys2Proof.Machine.execEncSetpsz psz s
  | .encEncode pay sci out => Sys2Proof.Machine.execEncEncode pay sci out s
  | .decReset pre lab spb psz sc => Sys2Proof.Machine.execDecReset pre lab spb psz sc s
  | .decSetpre pre => Sys2Proof.Machine.execDecSetpre pre s
  | .decSetlab lab => Sys2Proof.Machine.execDecSetlab lab s
  | .decSetspb spb => Sys2Proof.Machine.execDecSetspb spb s
  | .decSetpsz psz => Sys2Proof.Machine.execDecSetpsz psz s
  | .decDecode raw sci out => Sys2Proof.Machine.execDecDecode raw sci out s
  | .alnReset p k => Sys2Proof.Machine.execAlnReset p k s
  | .alnAlign d1 s1 c1 d2 s2 c2 out => Sys2Proof.Machine.execAlnAlign d1 s1 c1 d2 s2 c2 out s

end Sys2Proof.Machine
end

