-- ==== Sys2Proof/Machine/Step.lean ====
section
/-! DEFINITION. One step: FRAL performs the oldest command the host has issued (20_memory.md R78, R81). -/

namespace Sys2Proof.Machine

/-- One command is one step (70_reset_and_hazards.md R312). The command word is checked before the
record (60_exceptions.md R273); with nothing issued, nothing happens (log entry 5). -/
def step (s : State) : Host.Outcome State Fault Refusal :=
  match s.fetch with
  | none => s.idle
  | some (c, s') =>
    match decode c with
    | .instr i => exec i s'
    | .illegalWord => s'.rejectIllegal
    | .badRecord => s'.reject

/-- The command of a word of the opcode table, issued ahead of all others (log entry 7): the very next
step performs it. -/
def State.withFetchWord (s : State) (nbits w : Nat) : State :=
  s.issueFirst (tableCommand (BitVec.ofNat 16 (tableWord nbits w)))

end Sys2Proof.Machine
end

