-- ==== Sys2Proof/Machine/Assembler.lean ====
section
/-! DEFINITION. The textual form of commands and results (30_encoding.md R102) and the pseudo-command
link.reset (R103). What R102 leaves open of the spelling is log entry 13. -/

namespace Sys2Proof.Machine

/-- The mnemonics of R92, in lower case (R102). -/
def mnemonics : List (String × Opcode) :=
  [("enc.reset", .encReset), ("enc.setpre", .encSetpre), ("enc.setlab", .encSetlab),
    ("enc.setspb", .encSetspb), ("enc.setpsz", .encSetpsz), ("enc.encode", .encEncode),
    ("dec.reset", .decReset), ("dec.setpre", .decSetpre), ("dec.setlab", .decSetlab),
    ("dec.setspb", .decSetspb), ("dec.setpsz", .decSetpsz), ("dec.decode", .decDecode),
    ("aln.reset", .alnReset), ("aln.align", .alnAlign)]

/-- The operand names of R94. -/
def fieldNames : List (String × Field) :=
  [("pre", .pre), ("lab", .lab), ("spb", .spb), ("psz", .psz), ("sc", .sc), ("pay", .pay),
    ("sci", .sci), ("out", .out), ("raw", .raw), ("p", .p), ("k", .k), ("d1", .d1), ("s1", .s1),
    ("c1", .c1), ("d2", .d2), ("s2", .s2), ("c2", .c2)]

/-- The tokens of a command line. -/
inductive Token where
  | word (s : String)
  | text (codes : List Int)
  | equals
  | comma
  | lbracket
  | rbracket
  | times
  deriving DecidableEq, Repr

/-- Where the lexer stands: between tokens, inside a word, inside a string (read so far, reversed). -/
inductive Lexing where
  | gap
  | inWord (read : List Char)
  | inText (read : List Char)
  deriving DecidableEq, Repr

/-- The one-character tokens. -/
def punctuation : Char → Option Token
  | '=' => some .equals
  | ',' => some .comma
  | '[' => some .lbracket
  | ']' => some .rbracket
  | '×' => some .times
  | _ => none

/-- The characters of mnemonics, names and numbers. -/
def isWordChar (c : Char) : Bool := c.isAlphanum || c == '.' || c == '-'

/-- A word just read, if any. -/
def Lexing.finished : Lexing → List Token
  | .gap => []
  | .inWord read => [.word (String.ofList read.reverse)]
  | .inText _ => []

/-- The tokens of a line; none where a character has no place or a string is not closed. -/
def lex : Lexing → List Char → Option (List Token)
  | .inText _, [] => none
  | .gap, [] => some []
  | .inWord read, [] => some (Lexing.inWord read).finished
  | .inText read, c :: cs =>
    if c = '"' then (lex .gap cs).map (Token.text (read.reverse.map fun x => (x.toNat : Int)) :: ·)
    else if c.toNat < 128 then lex (.inText (c :: read)) cs
    else none
  | .gap, c :: cs =>
    if c = ' ' then lex .gap cs
    else if c = '"' then lex (.inText []) cs
    else if isWordChar c then lex (.inWord [c]) cs
    else match punctuation c with
      | none => none
      | some t => (lex .gap cs).map (t :: ·)
  | .inWord read, c :: cs =>
    if isWordChar c then lex (.inWord (c :: read)) cs
    else if c = ' ' then (lex .gap cs).map ((Lexing.inWord read).finished ++ ·)
    else if c = '"' then (lex (.inText []) cs).map ((Lexing.inWord read).finished ++ ·)
    else match punctuation c with
      | none => none
      | some t => (lex .gap cs).map ((Lexing.inWord read).finished ++ t :: ·)

/-- The value of a digit. -/
def digit (base : Nat) (c : Char) : Option Nat :=
  let v :=
    if '0' ≤ c ∧ c ≤ '9' then c.toNat - '0'.toNat
    else if 'a' ≤ c ∧ c ≤ 'f' then c.toNat - 'a'.toNat + 10
    else if 'A' ≤ c ∧ c ≤ 'F' then c.toNat - 'A'.toNat + 10
    else base
  if v < base then some v else none

/-- The number a digit sequence spells, most significant digit first; none where a character is no
digit. -/
def digits (base : Nat) : Nat → List Char → Option Nat
  | acc, [] => some acc
  | acc, c :: cs =>
    match digit base c with
    | none => none
    | some v => digits base (acc * base + v) cs

/-- A decimal or `0x` hexadecimal natural number. -/
def natural : List Char → Option Nat
  | [] => none
  | '0' :: 'x' :: c :: cs => digits 16 0 (c :: cs)
  | c :: cs => digits 10 0 (c :: cs)

/-- An integer: a natural number, or one with a leading `-` (R102). -/
def integer (s : String) : Option Int :=
  match s.toList with
  | '-' :: cs => (natural cs).map fun n => -(n : Int)
  | cs => (natural cs).map fun n => (n : Int)

/-- `v×n`: n copies of v (R102). -/
def copies (v n : String) : Option (List Int) :=
  match integer v, natural n.toList with
  | some x, some m => some (List.replicate m x)
  | _, _ => none

/-- The items of a bracketed list up to its `]`, with the tokens left. -/
def bracketed : List Token → Option (List Int × List Token)
  | .word v :: .times :: .word n :: .comma :: ts =>
    match copies v n, bracketed ts with
    | some xs, some (ys, rest) => some (xs ++ ys, rest)
    | _, _ => none
  | .word v :: .times :: .word n :: .rbracket :: ts => (copies v n).map fun xs => (xs, ts)
  | .word v :: .comma :: ts =>
    match integer v, bracketed ts with
    | some x, some (ys, rest) => some (x :: ys, rest)
    | _, _ => none
  | .word v :: .rbracket :: ts => (integer v).map fun x => ([x], ts)
  | _ => none

/-- One operand's value (R102), with the tokens left. -/
def operandValue : List Token → Option (Value × List Token)
  | .text codes :: ts => some (.list codes, ts)
  | .lbracket :: .rbracket :: ts => some (.list [], ts)
  | .lbracket :: ts => (bracketed ts).map fun x => (.list x.1, x.2)
  | .word v :: .times :: .word n :: ts => (copies v n).map fun xs => (.list xs, ts)
  | .word v :: ts => (integer v).map fun x => (.int x, ts)
  | _ => none

/-- The operands `name=value, name=value, …` of a line, at most `fuel` of them. -/
def operandList : Nat → List Token → Option Record
  | _, [] => some []
  | fuel + 1, .word f :: .equals :: ts =>
    match fieldNames.lookup f, operandValue ts with
    | some field, some (v, []) => some [(field, v)]
    | some field, some (v, .comma :: next :: rest) =>
      (operandList fuel (next :: rest)).map ((field, v) :: ·)
    | _, _ => none
  | _, _ => none

/-- The commands a line stands for (R102, R103): one, or the two of link.reset. -/
def assemble (line : String) : Option (List Command) :=
  match lex .gap line.toList with
  | some (.word m :: ts) =>
    match operandList ts.length ts with
    | none => none
    | some r =>
      if m = "link.reset" then some [⟨Opcode.encReset.word, r⟩, ⟨Opcode.decReset.word, r⟩]
      else (mnemonics.lookup m).map fun op => [⟨op.word, r⟩]
  | _ => none

/-- The spelling of a status (R99). -/
def Status.text : Status → String
  | .ok => "OK"
  | .rejected => "REJECTED"
  | .illegal => "ILLEGAL"

/-- The output ports with their names (R71), in the order a result lists them. -/
def outputNames : List (Port × String) :=
  [(.encFrmOut, "frm_out"), (.encScOut, "sc_out"), (.decPayOut, "pay_out"),
    (.decSyncOut, "sync_out"), (.decCntOut, "cnt_out"), (.decScOut, "sc_out"), (.alnO1Out, "o1_out"),
    (.alnO2Out, "o2_out"), (.alnCtlOut, "ctl_out")]

/-- A list of items as text. -/
def itemsText (xs : List Int) : String := "[" ++ ",".intercalate (xs.map toString) ++ "]"

/-- The text of a result (R102): `-> STATUS`, and for a RUN its counts and the delivered items of each
port. -/
def Result.text (r : Result) : String :=
  "-> " ++ r.status.text ++
    match r.delivery.counts with
    | none => ""
    | some (_, c, m, _) =>
      " consumed=" ++ toString c ++ " produced=" ++ toString m ++
        String.join (outputNames.map fun x =>
          match r.itemsOn x.1 with
          | none => ""
          | some xs => " " ++ x.2 ++ "=" ++ itemsText xs)

end Sys2Proof.Machine
end

