-- ==== Sys2Proof/Safety.lean ====
section
/-! DEFINITION. What claims about FRAL are stated in: when operands are acceptable, the frame on the wire
item by item, the invariant of the state, the host's loops, and when two states look alike to the host.
Written from the spec's rules, beside the meanings. -/

namespace Sys2Proof.Machine

/-! ## Words and outcomes -/

/-- The command words of 30_encoding.md R92. -/
def legalWords : List U16 :=
  [0x1000, 0x1100, 0x1200, 0x1300, 0x1400, 0x1800, 0x2000, 0x2100, 0x2200, 0x2300, 0x2400, 0x2800,
    0x3000, 0x3800]

/-- The state after a result record and nothing else. -/
def State.answered (s : State) (r : Result) : State := { s with results := s.results ++ [r] }

/-- The record of a rejection (R99), with no counts and no items. -/
def rejection : Result := ⟨.rejected, .nothing⟩

/-- The record of an accepted configuration command. -/
def acceptance : Result := ⟨.ok, .nothing⟩

/-- The last result record a state holds. -/
def State.lastResult (s : State) : Option Result := s.results.getLast?

/-- Whether a unit holds a configuration (10_state.md R33, R45, R47). -/
def State.configured (s : State) : UnitId → Bool
  | .enc => s.enc.regs.cfgd
  | .dec => s.dec.cfgd
  | .aln => s.aln.cfgd

/-- Commands performed in order, from the first on. -/
def execAll : List Instr → State → StepOutcome
  | [], s => .next s
  | i :: is, s =>
    match exec i s with
    | .next t => execAll is t
    | .fault r => .fault r
    | .refused r => .refused r

/-! ## Layouts and the frame on the wire -/

/-- A FrameLayout is valid (R40). -/
abbrev LayoutOk (c : Params) (pre lab : List U8) (spb psz : U32) : Prop :=
  (∀ b ∈ pre, b = 0 ∨ b = 1) ∧ pre.length ≤ c.maxPre ∧ lab.length ≤ c.maxLab ∧
    0 < pre.length + 8 * lab.length ∧ (1 ≤ spb.toNat ∧ spb.toNat ≤ c.maxSpb) ∧
    (1 ≤ psz.toNat ∧ psz.toNat ≤ c.maxPsz)

/-- Bit `x` of the header pattern (R41): the preamble's, then `(LAB[q] >> i) & 1` at `Np + 8q + i`. -/
def headerBit (pre lab : List U8) (x : Nat) : Option U8 :=
  if x < pre.length then pre[x]?
  else (lab[(x - pre.length) / 8]?).map fun ch =>
    BitVec.ofNat 8 (ch.toNat / 2 ^ ((x - pre.length) % 8) % 2)

/-- `N = (Np + 8·Nl)·S` (R42, 30_encoding.md R95). -/
def headerLength (pre lab : List U8) (spb : U32) : Nat := (pre.length + 8 * lab.length) * spb.toNat

/-- The frame length (R43). -/
def wireLength (pre lab : List U8) (spb psz : U32) : Nat :=
  (pre.length + lab.length * 8 + 16) * spb.toNat + psz.toNat

/-- The item of a frame at offset `o`, from the table of R95. -/
def wireItem (pre lab : List U8) (spb : U32) (cnt : Nat) (chunk : List U8) (o : Nat) : Option U8 :=
  if o < headerLength pre lab spb then headerBit pre lab (o / spb.toNat)
  else if o < headerLength pre lab spb + 16 * spb.toNat then
    some (BitVec.ofNat 8 (cnt / 2 ^ ((o - headerLength pre lab spb) / spb.toNat) % 2))
  else chunk[o - headerLength pre lab spb - 16 * spb.toNat]?

/-- The item of a side-channel frame at offset `o` (R97). -/
def sideItem (pre lab : List U8) (spb : U32) (chunk : List U32) (o : Nat) : Option U32 :=
  if o < headerLength pre lab spb + 16 * spb.toNat then some spb
  else chunk[o - headerLength pre lab spb - 16 * spb.toNat]?

/-- What an accepted reset or setter leaves in the registers of ENC or DEC: the configuration, and the
derived registers as functions of it (R41 to R44). -/
structure Configured (u : FrameRegs) (pre lab : List U8) (spb psz : U32) (sc : Bool) : Prop where
  cfgdSet : u.cfgd = true
  preHeld : u.pre = pre
  labHeld : u.lab = lab
  spbHeld : u.spb = spb
  pszHeld : u.psz = psz
  scHeld : u.sc = sc
  hpLength : u.hp.length = pre.length + 8 * lab.length
  hpItem : ∀ x < pre.length + 8 * lab.length, u.hp[x]? = headerBit pre lab x
  hdrtLength : u.hdrt.length = headerLength pre lab spb
  hdrtItem : ∀ x < pre.length + 8 * lab.length, ∀ r < spb.toNat,
    u.hdrt[x * spb.toNat + r]? = headerBit pre lab x
  nHeld : u.n = headerLength pre lab spb
  flHeld : u.fl = wireLength pre lab spb psz

/-- The state an accepted ENC configuration command leaves: new registers for the layout, the counter
`cnt`, an OK record, and nothing else changed. -/
def EncTakes (i : Instr) (s : State) (pre lab : List U8) (spb psz : U32) (sc : Bool) (cnt : U16) : Prop :=
  ∃ u, Configured u pre lab spb psz sc ∧
    exec i s = .next ({ s with enc := ⟨u, cnt⟩ }.answered acceptance)

/-- The same of DEC, which has no counter. -/
def DecTakes (i : Instr) (s : State) (pre lab : List U8) (spb psz : U32) (sc : Bool) : Prop :=
  ∃ u, Configured u pre lab spb psz sc ∧ exec i s = .next ({ s with dec := u }.answered acceptance)

/-- A command that is rejected: nothing changes but the result records (R272, R274). -/
def Rejected (i : Instr) (s : State) : Prop := exec i s = .next (s.answered rejection)

/-- How many frames an ENC.ENCODE emits (R176): none when it is rejected. -/
def framesOf (i : Instr) (s : State) : Nat :=
  match i with
  | .encEncode pay sci out =>
    if s.enc.regs.cfgd = true ∧ s.enc.regs.sc = sci.isSome then
      min (available pay sci / s.enc.regs.psz.toNat) (out.toNat / s.enc.regs.fl)
    else 0
  | _ => 0

/-- How many frames a list of commands emits from a state on. -/
def framesEmitted : List Instr → State → Nat
  | [], _ => 0
  | i :: is, s =>
    framesOf i s +
      match exec i s with
      | .next t => framesEmitted is t
      | .fault _ => 0
      | .refused _ => 0

/-! ## Decoding -/

/-- `frames` are the input offsets of the frames DEC decodes from `pos` on with room for `room` packets
(42_decoder.md R208): one after another, each found by the search just after the frame before it, until
the room is full, a frame does not fit, or a search fails. -/
inductive FrameChain (tol : MatchTol) (u : FrameRegs) (raw : List U8) : Nat → Nat → List Nat → Prop where
  | roomFull (pos : Nat) : FrameChain tol u raw 0 pos []
  | doesNotFit (room pos : Nat) (h : raw.length < pos + u.fl) : FrameChain tol u raw (room + 1) pos []
  | lastOfRoom (pos : Nat) (h : pos + u.fl ≤ raw.length) : FrameChain tol u raw 1 pos [pos]
  | searchFails (room pos : Nat) (h : pos + u.fl ≤ raw.length)
      (m : matchPattern tol (raw.drop (pos + u.fl)) u.hdrt = none) :
      FrameChain tol u raw (room + 1) pos [pos]
  | searchFinds (room pos : Nat) (frames : List Nat) (r : MatchResult) (h : pos + u.fl ≤ raw.length)
      (m : matchPattern tol (raw.drop (pos + u.fl)) u.hdrt = some r)
      (rest : FrameChain tol u raw room (pos + u.fl + r.offset) frames) :
      FrameChain tol u raw (room + 1) pos (pos :: frames)

/-- The counter value DEC reads in the frame at `pos` (R209): the sum over i < 16 of
`raw[pos + N + i·S] · 2^i`. -/
def counterSum (u : FrameRegs) (raw : List U8) (pos : Nat) : Nat :=
  ((List.range 16).map fun i =>
    (raw[pos + u.hdrt.length + i * u.spb.toNat]?.getD 0).toNat * 2 ^ i).sum

/-- The items DEC delivers for the frame at `pos` as packet `k` of its outputs (R209, R210). -/
def DeliversFrame (u : FrameRegs) (raw : List U8) (sci : Option (List U32)) (run : DecRun)
    (k pos : Nat) : Prop :=
  ∀ j < u.psz.toNat,
    run.pay[k * u.psz.toNat + j]? = raw[pos + u.hdrt.length + 16 * u.spb.toNat + j]? ∧
    run.sync[k * u.psz.toNat + j]? = some (if j = 0 then 1 else 0) ∧
    run.cnt[k * u.psz.toNat + j]? = some (BitVec.ofNat 32 (counterSum u raw pos)) ∧
    ∀ xs, sci = some xs → ∃ ys, run.sc = some ys ∧
      ys[k * u.psz.toNat + j]? = xs[pos + u.hdrt.length + 16 * u.spb.toNat + j]?

/-- The host's loop over a received stream (20_memory.md R73, 60_exceptions.md R281): window by window of
the lengths and rooms given, each starting at the first item not yet consumed. Answers the results and
the items left; none where a DECODE is not accepted. -/
def decodeStream : List (Nat × U32) → List U8 → Option (List U32) → State →
    Option (List DecRun × List U8)
  | [], raw, _, _ => some ([], raw)
  | (len, out) :: ws, raw, sci, s =>
    match exec (.decDecode (raw.take len) (sci.map fun xs => xs.take len) out) s with
    | .next t =>
      match t.lastResult with
      | some ⟨.ok, .dec run⟩ =>
        (decodeStream ws (raw.drop run.consumed) (sci.map fun xs => xs.drop run.consumed) t).map
          fun x => (run :: x.1, x.2)
      | _ => none
    | _ => none

/-- The frame of a counter and a payload chunk in a unit's layout (R95, R96). -/
def wireFrame (u : FrameRegs) (x : U16 × List U8) : List U8 :=
  (List.range u.fl).filterMap (wireItem u.pre u.lab u.spb x.1.toNat x.2)

/-! ## Aligning -/

/-- Aligner dimensions are in range (43_aligner.md R230). -/
abbrev DimensionsOk (c : Params) (p k : U32) : Prop :=
  (1 ≤ p.toNat ∧ p.toNat ≤ c.maxPsz) ∧ (1 ≤ k.toNat ∧ k.toNat ≤ c.maxAlnK)

/-- The first sync pulse of a stream within its first `p` items stands at `i`, or there is none and `i`
is `p` (R233). -/
def PulseAt (p : Nat) (xs : List U8) (i : Nat) : Prop :=
  (∀ j < i, xs[j]? = some 0) ∧ (i = p ∨ i < p ∧ ∃ x, xs[i]? = some x ∧ x ≠ 0)

/-- The six input windows of an ALIGN, as the instruction carries them. -/
def AlnWindows.align (x : AlnWindows) (out : U32) : Instr :=
  .alnAlign x.d1 x.s1 x.c1 x.d2 x.s2 x.c2 out

/-- Every input window holds at least `w` items. -/
abbrev AlnWindows.Holds (x : AlnWindows) (w : Nat) : Prop :=
  w ≤ x.d1.length ∧ w ≤ x.s1.length ∧ w ≤ x.c1.length ∧ w ≤ x.d2.length ∧ w ≤ x.s2.length ∧
    w ≤ x.c2.length

/-- ALN is configured and the command brings a full window and room for it (R231). -/
abbrev FullWindow (s : State) (x : AlnWindows) (out : U32) : Prop :=
  s.aln.cfgd = true ∧ x.Holds s.aln.w ∧ s.aln.w ≤ out.toNat

/-- Both pulses stand at index 0 and the counters there differ by `delay` (R232). -/
def PulsesAtZero (s : State) (x : AlnWindows) (delay : Int) : Prop :=
  PulseAt s.aln.p.toNat x.s1 0 ∧ PulseAt s.aln.p.toNat x.s2 0 ∧
    ∃ v1 v2, x.c1[0]? = some v1 ∧ x.c2[0]? = some v2 ∧ delay = v1.toInt - v2.toInt

/-- What `clearAlignment()` leaves of ALN (R236): its dimensions kept, every slot empty with its rank and
data as before (R154), OCC, F and BDELAY zero. -/
structure Cleared (a b : Aln) : Prop where
  cfgdKept : b.cfgd = a.cfgd
  pKept : b.p = a.p
  kKept : b.k = a.k
  slotsEmptied : b.bank.slots = a.bank.slots.map fun s => ⟨false, s.rank, s.data⟩
  occZero : b.bank.occ = 0
  flagZero : b.f = false
  bdelayZero : b.bdelay = 0

/-- The record of an ALIGN that consumes and produces `n` items (R242). -/
def alignRecord (n : Nat) (o1 o2 : List U8) (ctl : List S32) : Result := ⟨.ok, .aln ⟨n, n, o1, o2, ctl⟩⟩

/-- The state an ALIGN leaves: new ALN registers, a record, and nothing else changed. -/
def State.aligned (s : State) (a : Aln) (r : Result) : State := { s with aln := a }.answered r

/-- The data of the lead and of the lag stream (R239). -/
def AlnWindows.lead (x : AlnWindows) (delay : Int) : List U8 := if 0 < delay then x.d1 else x.d2
def AlnWindows.lag (x : AlnWindows) (delay : Int) : List U8 := if 0 < delay then x.d2 else x.d1

/-- The first `n` packets of `p` items of a window. -/
def packets (p n : Nat) (xs : List U8) : List (List U8) := (List.range n).map (packet p xs)

/-- The packets a skew window starts from (R239): the bank's, when they are of the same lead and at most
`|delay|` of them; else none. -/
def keptPackets (a : Aln) (delay : Int) : List (List U8) :=
  if 0 < a.bank.occ ∧ (0 < a.bdelay.toInt ↔ 0 < delay) ∧ a.bank.occ ≤ delay.natAbs then
    a.bank.contents
  else []

/-- A pair of streams as ALN receives them. -/
abbrev AlnStreams := AlnWindows

/-- The streams from item `n` on. -/
def AlnWindows.drop (x : AlnWindows) (n : Nat) : AlnWindows :=
  ⟨x.d1.drop n, x.s1.drop n, x.c1.drop n, x.d2.drop n, x.s2.drop n, x.c2.drop n⟩

/-- The first `n` items of the streams. -/
def AlnWindows.take (x : AlnWindows) (n : Nat) : AlnWindows :=
  ⟨x.d1.take n, x.s1.take n, x.c1.take n, x.d2.take n, x.s2.take n, x.c2.take n⟩

/-- The host's loop over a pair of streams (R73, R281): at most `rounds` windows of W items, each starting
at the first item not yet consumed, until ALIGN rejects a short one. Answers the two outputs, the
control channel and the state. -/
def alignStream : Nat → AlnStreams → U32 → State → List U8 × List U8 × List S32 × State
  | 0, _, _, s => ([], [], [], s)
  | rounds + 1, x, out, s =>
    match exec ((x.take s.aln.w).align out) s with
    | .next t =>
      match t.lastResult with
      | some ⟨.ok, .aln run⟩ =>
        let rest := alignStream rounds (x.drop run.consumed) out t
        (run.o1 ++ rest.1, run.o2 ++ rest.2.1, run.ctl ++ rest.2.2.1, rest.2.2.2)
      | _ => ([], [], [], t)
    | _ => ([], [], [], s)

/-- Two streams of `total` packets with a pulse at the first item of every packet and counters that
differ there by `delay` (R243). -/
def SkewedStreams (p total : Nat) (x : AlnStreams) (delay : Int) : Prop :=
  x.Holds (total * p) ∧
    ∀ g < total,
      (∃ v, x.s1[g * p]? = some v ∧ v ≠ 0) ∧ (∃ v, x.s2[g * p]? = some v ∧ v ≠ 0) ∧
        ∃ v1 v2, x.c1[g * p]? = some v1 ∧ x.c2[g * p]? = some v2 ∧ delay = v1.toInt - v2.toInt

/-! ## The invariant -/

/-- ENC or DEC keeps its invariant: when it is configured, its layout is valid and its derived registers
agree with it (R40, R44). -/
def FrameRegs.Inv (c : Params) (u : FrameRegs) : Prop :=
  u.cfgd = true →
    LayoutOk c u.pre u.lab u.spb u.psz ∧ Configured u u.pre u.lab u.spb u.psz u.sc

/-- The bank has CAP slots, and the ranks of the valid ones are exactly 0, …, OCC − 1, so OCC counts them
(R48, R49, R52). -/
structure Bank.Inv (b : Bank) : Prop where
  slotCount : b.slots.length = 5
  ranks : ((b.slots.filter Slot.v).map Slot.rank).Perm (List.range b.occ)

/-- ALN keeps the invariants of R52 (all but the last, which is about the history) and the bank's packets
have P items (R48). -/
structure Aln.Inv (c : Params) (a : Aln) : Prop where
  dimensions : DimensionsOk c a.p a.k
  bankInv : a.bank.Inv
  packetLength : ∀ s ∈ a.bank.slots, s.v = true → s.data.length = a.p.toNat
  occLeDelay : a.bank.occ ≤ a.bdelay.toInt.natAbs
  delayLeCap : a.bdelay.toInt.natAbs ≤ 5
  delayZero : a.bdelay = 0 ↔ a.bank.occ = 0
  flagIff : a.f = true ↔ 1 ≤ a.bank.occ ∧ a.bank.occ = a.bdelay.toInt.natAbs

/-- The invariant of the state: legal parameters, five slots, and each unit's invariant once it is
configured (before that its registers are unspecified, R56). -/
structure State.Inv (s : State) : Prop where
  paramsWf : s.params.Wf
  encInv : s.enc.regs.Inv s.params
  decInv : s.dec.Inv s.params
  slotCount : s.aln.bank.slots.length = 5
  alnInv : s.aln.cfgd = true → s.aln.Inv s.params

/-! ## States alike to the host -/

/-- Two bank slots are alike but for the rank and data of an empty one (R154,
93_implementation_defined.md I2). -/
def Slot.Alike (a b : Slot) : Prop := a.v = b.v ∧ (a.v = true → a = b)

/-- Two ALN units are alike to the host: both unconfigured, or alike but for what empty slots hold. -/
def Aln.Alike (a b : Aln) : Prop :=
  a.cfgd = b.cfgd ∧ a.bank.slots.length = b.bank.slots.length ∧
    (a.cfgd = true → a.p = b.p ∧ a.k = b.k ∧ a.f = b.f ∧ a.bdelay = b.bdelay ∧
      a.bank.occ = b.bank.occ ∧ List.Forall₂ Slot.Alike a.bank.slots b.bank.slots)

/-- Two states are alike to the host (70_reset_and_hazards.md R300, I1, I2): they may differ in the
registers of unconfigured units and in the rank and data of empty slots, and in nothing else. -/
structure State.Alike (s t : State) : Prop where
  params : s.params = t.params
  draws : s.draws = t.draws
  pending : s.pending = t.pending
  results : s.results = t.results
  encCfgd : s.enc.regs.cfgd = t.enc.regs.cfgd
  enc : s.enc.regs.cfgd = true → s.enc = t.enc
  decCfgd : s.dec.cfgd = t.dec.cfgd
  dec : s.dec.cfgd = true → s.dec = t.dec
  aln : s.aln.Alike t.aln

end Sys2Proof.Machine
end

