-- ==== Sys2Proof/Certificates/Slice0/Obligations.lean ====
section
/-! DEFINITION. What is claimed of FRAL, one obligation a rule or a few rules of spec/. -/

open Sys2Proof Sys2Proof.Machine

/-! ## Encoding -/

/-- 30_encoding.md R92, R94: every instruction's command has a fitting record and decodes to the
instruction, with every operand at every value. -/
def Obligations.DecodeOfEncodeIsTheInstruction : Prop :=
  ∀ i : Instr, Record.wellFormed i.opcode (encode i).record = true ∧ decode (encode i) = .instr i

/-- R94: a record is read as an instruction of its word's operation exactly when it has the required
operands, no other but an optional one, none twice, each of its type. The model's choices: an operand given
twice does not fit (log entry 18), and a value outside its type's range is of the wrong type (log entry 6). -/
def Obligations.DecodeAcceptsExactlyFittingRecords : Prop :=
  ∀ (op : Opcode) (r : Record),
    (Record.wellFormed op r = true → ∃ i, decode ⟨op.word, r⟩ = .instr i ∧ i.opcode = op) ∧
      (Record.wellFormed op r = false → decode ⟨op.word, r⟩ = .badRecord)

/-- R90 to R92: the legal words are the fourteen of the table, each selects its own operation, and a
word's fields are UNIT, OP and Z. -/
def Obligations.LegalWordsAreTheFourteen : Prop :=
  (∀ w : U16, opcodeOf w = none ↔ w ∉ legalWords) ∧
    (∀ (w : U16) (op : Opcode), opcodeOf w = some op ↔ w = op.word) ∧
    ∀ w : U16, w.toNat = unitField w * 4096 + opField w * 256 + zField w

/-- R92, R94: command words with records written out from the spec's tables decode to the commands they
stand for. -/
def Obligations.WordsOfTheSpecDecode : Prop :=
  decode ⟨0x1000, [(.pre, .list [0, 0, 1, 1]), (.lab, .list [65]), (.spb, .int 1), (.psz, .int 8),
      (.sc, .int 0)]⟩ = .instr (.encReset [0, 0, 1, 1] [65] 1 8 false) ∧
    decode ⟨0x1800, [(.pay, .list [5, 6]), (.sci, .list [100, 200]), (.out, .int 20)]⟩ =
      .instr (.encEncode [5, 6] (some [100, 200]) 20) ∧
    decode ⟨0x2400, [(.psz, .int 2)]⟩ = .instr (.decSetpsz 2) ∧
    decode ⟨0x2800, [(.raw, .list []), (.out, .int 8)]⟩ = .instr (.decDecode [] none 8) ∧
    decode ⟨0x3000, [(.k, .int 3), (.p, .int 2)]⟩ = .instr (.alnReset 2 3) ∧
    decode ⟨0x3100, []⟩ = .illegalWord ∧ decode ⟨0x1001, []⟩ = .illegalWord

/-- R102: operands may appear in any order. -/
def Obligations.OperandOrderDoesNotMatter : Prop :=
  ∀ (w : U16) (r r' : Record), r.Perm r' → decode ⟨w, r⟩ = decode ⟨w, r'⟩

/-- R93: a word that is not one of the fourteen is answered ILLEGAL and changes nothing. -/
def Obligations.IllegalWordIsAnsweredIllegal : Prop :=
  ∀ (s : State) (c : Command) (rest : List Command), s.pending = c :: rest → c.word ∉ legalWords →
    step s = .next ({ s with pending := rest }.answered ⟨.illegal, .nothing⟩)

/-- R94: a legal word whose record does not fit its shape is answered REJECTED and changes nothing; and
so is a side-channel window given to a unit whose SC is 0, or missing where SC is 1. The model's choices: an
operand given twice does not fit (log entry 18), and a value outside its type's range is of the wrong type
(log entry 6). -/
def Obligations.UnfittingRecordIsRejected : Prop :=
  (∀ (s : State) (op : Opcode) (r : Record) (rest : List Command), s.pending = ⟨op.word, r⟩ :: rest →
      Record.wellFormed op r = false →
        step s = .next ({ s with pending := rest }.answered rejection)) ∧
    (∀ (s : State) (pay : List U8) (sci : Option (List U32)) (out : U32),
      s.enc.regs.sc ≠ sci.isSome → Rejected (.encEncode pay sci out) s) ∧
    ∀ (s : State) (raw : List U8) (sci : Option (List U32)) (out : U32),
      s.dec.sc ≠ sci.isSome → Rejected (.decDecode raw sci out) s

/-- R102, R103: command lines in the spec's spelling assemble to their words and records. -/
def Obligations.LinesOfTheSpecAssemble : Prop :=
  assemble "enc.reset pre=[0,0,1,1], lab=\"A\", spb=1, psz=8, sc=0" =
      some [⟨0x1000, [(.pre, .list [0, 0, 1, 1]), (.lab, .list [65]), (.spb, .int 1), (.psz, .int 8),
        (.sc, .int 0)]⟩] ∧
    assemble "dec.decode out=0x10, raw=[9×3, 7]" =
      some [⟨0x2800, [(.out, .int 16), (.raw, .list [9, 9, 9, 7])]⟩] ∧
    assemble "link.reset pre=1×2, lab=[], spb=2, psz=3, sc=1" =
      some [⟨0x1000, [(.pre, .list [1, 1]), (.lab, .list []), (.spb, .int 2), (.psz, .int 3),
          (.sc, .int 1)]⟩,
        ⟨0x2000, [(.pre, .list [1, 1]), (.lab, .list []), (.spb, .int 2), (.psz, .int 3),
          (.sc, .int 1)]⟩] ∧
    assemble "aln.jump p=1" = none

/-! ## Steps -/

/-- 20_memory.md R78, R81: a step performs the oldest command issued: when it decodes to an instruction,
the step is that instruction's, in the state without the command. -/
def Obligations.StepRunsTheDecodedInstruction : Prop :=
  ∀ (s : State) (c : Command) (rest : List Command) (i : Instr),
    s.pending = c :: rest → decode c = .instr i → step s = exec i { s with pending := rest }

/-- 60_exceptions.md R276 and log entry 5 (the model's choice): with no command issued a step changes
nothing. -/
def Obligations.NoCommandNoChange : Prop := ∀ s : State, s.pending = [] → step s = .next s

/-- R270, R273, R282: every command returns, with exactly one result record; no step stops. -/
def Obligations.EveryCommandReturnsOneRecord : Prop :=
  ∀ (s : State) (c : Command) (rest : List Command), s.pending = c :: rest →
    ∃ t r, step s = .next t ∧ t.pending = rest ∧ t.results = s.results ++ [r] ∧ t.params = s.params

/-- R272, R274: a command completes with OK, or changes nothing and is answered REJECTED or ILLEGAL. -/
def Obligations.CommandCompletesOrChangesNothing : Prop :=
  ∀ (s t : State) (c : Command) (rest : List Command), s.pending = c :: rest → step s = .next t →
    (∃ d, t.results = s.results ++ [⟨.ok, d⟩]) ∨
      t = { s with pending := rest }.answered rejection ∨
      t = { s with pending := rest }.answered ⟨.illegal, .nothing⟩

/-- 00_scope.md R2, R280: a command changes nothing of a unit it does not address; no command changes the
parameters or the commands still issued. -/
def Obligations.CommandTouchesOnlyItsUnit : Prop :=
  ∀ (i : Instr) (s t : State), exec i s = .next t →
    (i.opcode.unit ≠ .enc → t.enc = s.enc) ∧ (i.opcode.unit ≠ .dec → t.dec = s.dec) ∧
      (i.opcode.unit ≠ .aln → t.aln = s.aln ∧ t.draws = s.draws) ∧ t.params = s.params ∧
      t.pending = s.pending

/-- 20_memory.md R82: commands to different units commute: in either order the state is the same and each
command has the same result record. -/
def Obligations.CommandsToDifferentUnitsCommute : Prop :=
  ∀ (i j : Instr) (s : State), i.opcode.unit ≠ j.opcode.unit →
    ∃ t t' ri rj, execAll [i, j] s = .next t ∧ execAll [j, i] s = .next t' ∧
      t.results = s.results ++ [ri, rj] ∧ t'.results = s.results ++ [rj, ri] ∧
      { t' with results := t.results } = t

/-- 10_state.md R33 with R45, R47, R300: a unit is unconfigured at power-on, becomes configured when its
reset is accepted, and until then every other command of it is rejected. -/
def Obligations.UnitIsUsableOnlyAfterItsReset : Prop :=
  (∀ u, State.reset.configured u = false) ∧
    (∀ (i : Instr) (s t : State), i.opcode.isReset = true → exec i s = .next t →
      t.lastResult = some acceptance → t.configured i.opcode.unit = true) ∧
    ∀ (i : Instr) (s : State), i.opcode.isReset = false → s.configured i.opcode.unit = false →
      Rejected i s

/-- 70_reset_and_hazards.md R300, 93_implementation_defined.md I1, I2: values that R56 leaves unspecified
are never observable. Two states that differ only in the registers of unconfigured units and in the rank
and data of empty slots give the same results, command after command, and stay so. -/
def Obligations.UnspecifiedValuesAreNeverSeen : Prop :=
  ∀ (k : Nat) (s s' : State), s.Alike s' →
    ∃ t t', Host.Core.run Sys2Proof.core k s = .next t ∧ Host.Core.run Sys2Proof.core k s' = .next t' ∧
      t.results = t'.results ∧ t.Alike t'

/-! ## The invariant -/

/-- R56 with log entries 1 and 2: the state at power-on meets the invariant. -/
def Obligations.PowerOnMeetsTheInvariant : Prop := State.reset.Inv

/-- R40, R44, R48, R49, R52: every step keeps the invariant: valid layouts with derived registers that
agree with them, five slots whose ranks are 0 to OCC − 1, packets of P items, OCC ≤ |BDELAY| ≤ 5,
BDELAY zero exactly when the bank is empty, F exactly when the delay line is complete. -/
def Obligations.EveryStepKeepsTheInvariant : Prop :=
  ∀ s t : State, s.Inv → step s = .next t → t.Inv

/-! ## ENC and DEC configuration -/

/-- 41_encoder.md R170: enc.reset with a valid layout loads it, regenerates the derived registers, zeroes
the counter and marks ENC configured; with an invalid one it is rejected. -/
def Obligations.EncResetLoadsTheLayout : Prop :=
  ∀ (s : State) (pre lab : List U8) (spb psz : U32) (sc : Bool),
    (LayoutOk s.params pre lab spb psz →
      EncTakes (.encReset pre lab spb psz sc) s pre lab spb psz sc 0) ∧
      (¬LayoutOk s.params pre lab spb psz → Rejected (.encReset pre lab spb psz sc) s)

/-- 42_decoder.md R200: the same of dec.reset, which has no counter. -/
def Obligations.DecResetLoadsTheLayout : Prop :=
  ∀ (s : State) (pre lab : List U8) (spb psz : U32) (sc : Bool),
    (LayoutOk s.params pre lab spb psz →
      DecTakes (.decReset pre lab spb psz sc) s pre lab spb psz sc) ∧
      (¬LayoutOk s.params pre lab spb psz → Rejected (.decReset pre lab spb psz sc) s)

/-- R171 to R175: each ENC setter replaces its one parameter and the derived registers, keeps the counter
and SC, and is rejected when ENC is unconfigured or the new layout invalid. -/
def Obligations.EncSettersReplaceOneParameter : Prop :=
  ∀ (s : State) (pre lab : List U8) (spb psz : U32),
    let u := s.enc.regs
    let takes := fun i pre' lab' spb' psz' =>
      (u.cfgd = true → LayoutOk s.params pre' lab' spb' psz' →
        EncTakes i s pre' lab' spb' psz' u.sc s.enc.cnt) ∧
        (u.cfgd = false ∨ ¬LayoutOk s.params pre' lab' spb' psz' → Rejected i s)
    takes (.encSetpre pre) pre u.lab u.spb u.psz ∧ takes (.encSetlab lab) u.pre lab u.spb u.psz ∧
      takes (.encSetspb spb) u.pre u.lab spb u.psz ∧ takes (.encSetpsz psz) u.pre u.lab u.spb psz

/-- R201 to R205: the same of the DEC setters. -/
def Obligations.DecSettersReplaceOneParameter : Prop :=
  ∀ (s : State) (pre lab : List U8) (spb psz : U32),
    let u := s.dec
    let takes := fun i pre' lab' spb' psz' =>
      (u.cfgd = true → LayoutOk s.params pre' lab' spb' psz' →
        DecTakes i s pre' lab' spb' psz' u.sc) ∧
        (u.cfgd = false ∨ ¬LayoutOk s.params pre' lab' spb' psz' → Rejected i s)
    takes (.decSetpre pre) pre u.lab u.spb u.psz ∧ takes (.decSetlab lab) u.pre lab u.spb u.psz ∧
      takes (.decSetspb spb) u.pre u.lab spb u.psz ∧ takes (.decSetpsz psz) u.pre u.lab u.spb psz

/-- 30_encoding.md R103: link.reset, two steps, gives ENC and DEC the same layout and touches nothing
else. -/
def Obligations.LinkResetConfiguresBothEnds : Prop :=
  ∀ (s : State) (pre lab : List U8) (spb psz : U32) (sc : Bool) (rest : List Command),
    LayoutOk s.params pre lab spb psz → s.pending = linkReset pre lab spb psz sc ++ rest →
      ∃ u, Configured u pre lab spb psz sc ∧
        Host.Core.run Sys2Proof.core 2 s =
          .next { s with
            enc := ⟨u, 0⟩, dec := u, pending := rest,
            results := s.results ++ [acceptance, acceptance] }

/-! ## ENC.ENCODE -/

/-- 41_encoder.md R176, R177 with 30_encoding.md R95, R97: enc.encode emits as many frames as there are
whole chunks and whole frames of room, each item of each frame as the frame table says, the counter going
up by one a frame modulo 2^16; it consumes and produces exactly those; no other register changes. -/
def Obligations.EncodeFramesWholeChunks : Prop :=
  ∀ (s : State) (pay : List U8) (sci : Option (List U32)) (out : U32),
    s.Inv → s.enc.regs.cfgd = true → s.enc.regs.sc = sci.isSome →
      let u := s.enc.regs
      let p := u.psz.toNat
      let fl := wireLength u.pre u.lab u.spb u.psz
      let avail := sci.elim pay.length fun xs => min pay.length xs.length
      let m := min (avail / p) (out.toNat / fl)
      ∃ run : EncRun,
        exec (.encEncode pay sci out) s =
          .next ({ s with enc := ⟨u, BitVec.ofNat 16 (s.enc.cnt.toNat + m)⟩ }.answered
            ⟨.ok, .enc run⟩) ∧
        run.consumed = m * p ∧ run.produced = m * fl ∧ run.frm.length = m * fl ∧
        (∀ f < m, ∀ o < fl, run.frm[f * fl + o]? =
          wireItem u.pre u.lab u.spb ((s.enc.cnt.toNat + f) % 65536) (packet p pay f) o) ∧
        (sci = none → run.sc = none) ∧
        ∀ xs, sci = some xs → ∃ ys, run.sc = some ys ∧ ys.length = m * fl ∧
          ∀ f < m, ∀ o < fl, ys[f * fl + o]? = sideItem u.pre u.lab u.spb (packet p xs f) o

/-- R178: after a reset, the k-th frame ENC emits, across any number of ENCODE and setter commands (and
commands to the other units), carries k modulo 2^16 in its counter field. -/
def Obligations.FramesAreCountedFromTheReset : Prop :=
  ∀ (s t : State) (is : List Instr) (pay : List U8) (sci : Option (List U32)) (out : U32),
    s.Inv → s.enc.cnt = 0 → (∀ i ∈ is, i.opcode ≠ .encReset) → execAll is s = .next t →
      t.enc.regs.cfgd = true → t.enc.regs.sc = sci.isSome →
        ∃ t' run, exec (.encEncode pay sci out) t = .next t' ∧
          t'.lastResult = some ⟨.ok, .enc run⟩ ∧
          ∀ f < framesOf (.encEncode pay sci out) t, ∀ b < 16, ∀ r < t.enc.regs.spb.toNat,
            run.frm[f * t.enc.regs.fl + t.enc.regs.n + b * t.enc.regs.spb.toNat + r]? =
              some (BitVec.ofNat 8 ((framesEmitted is s + f) % 65536 / 2 ^ b % 2))

/-! ## DEC.DECODE -/

/-- 42_decoder.md R206: with no input item or no room for a packet, dec.decode does nothing and is
answered OK with counts of 0. -/
def Obligations.DecodeWithoutInputOrRoomDoesNothing : Prop :=
  ∀ (s : State) (raw : List U8) (sci : Option (List U32)) (out : U32),
    s.dec.cfgd = true → s.dec.sc = sci.isSome →
      (raw = [] ∨ sci = some [] ∨ out.toNat < s.dec.psz.toNat) →
        exec (.decDecode raw sci out) s =
          .next (s.answered ⟨.ok, .dec ⟨0, 0, [], [], [], sci.map fun _ => []⟩⟩)

/-- R207: where no header is found, the whole window is consumed and the whole room produced: payload
items 255, sync 0, counter −1, side channel 0. -/
def Obligations.LossOfSyncFillsTheRoom : Prop :=
  ∀ (s : State) (raw : List U8) (sci : Option (List U32)) (out : U32),
    s.dec.cfgd = true → s.dec.sc = sci.isSome →
      let n := sci.elim raw.length fun xs => min raw.length xs.length
      let room := out.toNat / s.dec.psz.toNat * s.dec.psz.toNat
      0 < n → 0 < out.toNat / s.dec.psz.toNat →
        matchPattern s.params.matchTol (raw.take n) s.dec.hdrt = none →
          exec (.decDecode raw sci out) s =
            .next (s.answered ⟨.ok, .dec ⟨n, room, List.replicate room 255, List.replicate room 0,
              List.replicate room (BitVec.ofInt 32 (-1)), sci.map fun _ => List.replicate room 0⟩⟩)

/-- 70_reset_and_hazards.md R307: a window of 1 to N items, whatever they are, loses sync. -/
def Obligations.ShortWindowLosesSync : Prop :=
  ∀ (s : State) (raw : List U8) (sci : Option (List U32)) (out : U32),
    s.Inv → s.dec.cfgd = true → s.dec.sc = sci.isSome → s.dec.psz.toNat ≤ out.toNat →
      let n := sci.elim raw.length fun xs => min raw.length xs.length
      1 ≤ n → n ≤ s.dec.n →
        ∃ run : DecRun,
          exec (.decDecode raw sci out) s = .next (s.answered ⟨.ok, .dec run⟩) ∧
            run.consumed = n ∧
            run.produced = out.toNat / s.dec.psz.toNat * s.dec.psz.toNat ∧
            run.pay = List.replicate run.produced 255 ∧
            run.cnt = List.replicate run.produced (BitVec.ofInt 32 (-1))

/-- R208 to R210: where a header is found, dec.decode decodes the frames of the chain that starts there,
one packet each, and consumes up to the end of the last one, or up to the match when none fits; no
register changes. -/
def Obligations.FramePathDecodesTheChain : Prop :=
  ∀ (s : State) (raw : List U8) (sci : Option (List U32)) (out : U32) (r : MatchResult),
    s.Inv → s.dec.cfgd = true → s.dec.sc = sci.isSome →
      let n := sci.elim raw.length fun xs => min raw.length xs.length
      let p := s.dec.psz.toNat
      let window := raw.take n
      p ≤ out.toNat → matchPattern s.params.matchTol window s.dec.hdrt = some r →
        ∃ (run : DecRun) (frames : List Nat),
          exec (.decDecode raw sci out) s = .next (s.answered ⟨.ok, .dec run⟩) ∧
            FrameChain s.params.matchTol s.dec window (out.toNat / p) r.offset frames ∧
            run.consumed = (frames.getLast?.elim r.offset fun pos => pos + s.dec.fl) ∧
            run.produced = frames.length * p ∧
            run.pay.length = run.produced ∧ run.sync.length = run.produced ∧
            run.cnt.length = run.produced ∧ run.sc.isSome = sci.isSome ∧
            (∀ ys, run.sc = some ys → ys.length = run.produced) ∧
            ∀ k pos, frames[k]? = some pos →
              DeliversFrame s.dec window (sci.map fun xs => xs.take n) run k pos

/-- R78, R206, 10_state.md R45: dec.decode writes no register. -/
def Obligations.DecodeWritesNoRegister : Prop :=
  ∀ (s : State) (raw : List U8) (sci : Option (List U32)) (out : U32),
    ∃ r, exec (.decDecode raw sci out) s = .next (s.answered r)

/-- R211: the frames ENC emits, presented to a DEC with the same layout and room for every one, decode to
the payloads in order, with their counters modulo 2^16, a sync pulse at each packet's first item, and the
side channel's payload items. -/
def Obligations.DecodeOfEncodeRecoversThePayloads : Prop :=
  ∀ (s t : State) (pay : List U8) (sci : Option (List U32)) (out out' : U32) (run : EncRun),
    s.Inv → s.enc.regs.cfgd = true → s.enc.regs = s.dec →
      exec (.encEncode pay sci out) s = .next t → t.lastResult = some ⟨.ok, .enc run⟩ →
        run.consumed ≤ out'.toNat →
          ∃ run' : DecRun,
            exec (.decDecode run.frm run.sc out') t = .next (t.answered ⟨.ok, .dec run'⟩) ∧
              run'.consumed = run.produced ∧ run'.produced = run.consumed ∧
              run'.pay = pay.take run.consumed ∧
              run'.sc = (sci.map fun xs => xs.take run.consumed) ∧
              run'.sync.length = run.consumed ∧ run'.cnt.length = run.consumed ∧
              ∀ x < run.consumed,
                run'.sync[x]? = some (if x % s.dec.psz.toNat = 0 then 1 else 0) ∧
                run'.cnt[x]? = some (BitVec.ofNat 32
                  ((s.enc.cnt.toNat + x / s.dec.psz.toNat) % 65536))

/-- R211, R306: a stream of whole frames, with any counters and payloads, presented in windows that each
hold no item or more than N, starting at a frame boundary, never locks falsely: what is decoded, window
after window, is the payloads of the first frames, in order, and what is left is the frames after them. -/
def Obligations.WindowsFromAFrameBoundaryDecodeTrueFrames : Prop :=
  ∀ (s : State) (frames : List (U16 × List U8)) (sci : Option (List U32))
    (windows : List (Nat × U32)),
    s.Inv → s.dec.cfgd = true → s.dec.sc = sci.isSome →
      (∀ x ∈ frames, x.2.length = s.dec.psz.toNat) →
      (∀ xs, sci = some xs → xs.length = frames.length * s.dec.fl) →
      (∀ w ∈ windows, w.1 = 0 ∨ s.dec.n < w.1) →
        ∃ runs j, j ≤ frames.length ∧
          decodeStream windows (frames.map (wireFrame s.dec)).flatten sci s =
            some (runs, ((frames.drop j).map (wireFrame s.dec)).flatten) ∧
          (runs.map DecRun.pay).flatten = ((frames.take j).map Prod.snd).flatten ∧
          (runs.map DecRun.cnt).flatten = ((frames.take j).map fun x =>
            List.replicate s.dec.psz.toNat (BitVec.ofNat 32 x.1.toNat)).flatten

/-! ## The matcher -/

/-- 40_primitives.md R140, R141, R142: what `matchPattern` answers for a needle of at least one item
(R141). The first offset of distance 0 wins; else the first offset of least distance, if the tolerance
accepts it; the offset H − N is never examined. -/
def Obligations.MatcherFollowsItsRule : Prop :=
  ∀ (tol : MatchTol) (h n : List U8), 1 ≤ n.length →
    (∀ t, t + n.length ≤ h.length → dist h n t = ((List.range n.length).map fun j =>
      (((h[t + j]?.getD 0).toNat : Int) - ((n[j]?.getD 0).toNat : Int)).natAbs).sum) ∧
    (∀ k, matchPattern tol h n = some ⟨k, .exact⟩ ↔
      k + n.length < h.length ∧ dist h n k = 0 ∧ ∀ t < k, dist h n t ≠ 0) ∧
    (∀ k, matchPattern tol h n = some ⟨k, .best⟩ ↔
      k + n.length < h.length ∧
        (∀ t, t + n.length < h.length → 0 < dist h n t ∧ dist h n k ≤ dist h n t) ∧
        (∀ t < k, dist h n k < dist h n t) ∧
        match tol with
        | .tolGlobal => 4 * dist h n k ≤ 3 * (h.length - n.length)
        | .tolNeedle => 4 * dist h n k ≤ n.length)

/-- R143: an exact match outranks an earlier near one; a haystack no longer than the needle has no match;
under TOL_GLOBAL a best sum of at most N is accepted once H − N ≥ 4N/3, so a long enough bit-valued
haystack always matches; under TOL_NEEDLE one that differs everywhere does not. -/
def Obligations.MatcherConsequences : Prop :=
  ∀ (h n : List U8), 1 ≤ n.length →
    (∀ tol k, k + n.length < h.length → dist h n k = 0 → (∀ t < k, dist h n t ≠ 0) →
      matchPattern tol h n = some ⟨k, .exact⟩) ∧
    (∀ tol, h.length ≤ n.length → matchPattern tol h n = none) ∧
    ((∃ t, t + n.length < h.length ∧ dist h n t ≤ n.length) →
      4 * n.length ≤ 3 * (h.length - n.length) → matchPattern .tolGlobal h n ≠ none) ∧
    ((∀ b ∈ h, b = 0 ∨ b = 1) → (∀ b ∈ n, b = 0 ∨ b = 1) →
      n.length + (4 * n.length + 2) / 3 ≤ h.length → matchPattern .tolGlobal h n ≠ none) ∧
    ((∀ t, t + n.length < h.length → dist h n t = n.length) → matchPattern .tolNeedle h n = none)

/-! ## ArrayOps -/

/-- R131 to R133: `fill`, `copy`, `interpolate` and `decimate` item by item, with their lengths. -/
def Obligations.ArrayOpsItemByItem : Prop :=
  (∀ (n : Nat) (v : U8), (fill n v).length = n ∧ ∀ i < n, (fill n v)[i]? = some v) ∧
    (∀ (src : List U8) (len : Nat), len ≤ src.length →
      (copy src len).length = len ∧ ∀ i < len, (copy src len)[i]? = src[i]?) ∧
    (∀ (src : List U8) (ratio : Nat), 1 ≤ ratio →
      (interpolate src ratio).length = src.length * ratio ∧
        ∀ x < src.length, ∀ r < ratio, (interpolate src ratio)[x * ratio + r]? = src[x]?) ∧
    ∀ (src : List U8) (ratio : Nat), 1 ≤ ratio →
      (decimate src ratio).length = (src.length + ratio - 1) / ratio ∧
        ∀ j, j * ratio < src.length → (decimate src ratio)[j]? = src[j * ratio]?

/-- R134, R135: bit i of `numberToBits` is `(n >> i) & 1`; `bitsToNumber` is the unmasked sum, inverts it
modulo 2^L, and is at most 255 · 65535 for 16 items. -/
def Obligations.BitConversionsAreInverse : Prop :=
  (∀ n len, (numberToBits n len).length = len ∧
      ∀ i < len, (numberToBits n len)[i]? = some (BitVec.ofNat 8 (n / 2 ^ i % 2))) ∧
    (∀ (bits : List U8) (len : Nat), len ≤ bits.length → bitsToNumber bits len =
      ((List.range len).map fun i => (bits[i]?.getD 0).toNat * 2 ^ i).sum) ∧
    (∀ n len, bitsToNumber (numberToBits n len) len = n % 2 ^ len) ∧
    ∀ bits : List U8, 16 ≤ bits.length → bitsToNumber bits 16 ≤ 16711425

/-- R136, R137 over the rational numbers as the number format: `linearMap` is `src[i]*a+b`, and
`weightedAverage` is the quotient of the two edge-truncated sums, without value for a zero denominator. -/
def Obligations.AveragesFollowTheirFormulas : Prop :=
  (∀ (src : List ℚ) (a b : ℚ) (i : Nat) (h : i < src.length),
      (linearMap src a b)[i]? = some (src[i] * a + b)) ∧
    ∀ (buf weights : List ℚ) (c len wl : Nat), c < len → len ≤ buf.length → 1 ≤ wl →
      wl ≤ weights.length →
        let w := fun k => weights[k]?.getD 0
        let x := fun k => buf[k]?.getD 0
        let num := w 0 * x c + ((List.range (wl - 1)).map fun j =>
          (if j + 1 ≤ c then w (j + 1) * x (c - (j + 1)) else 0) +
            (if c + (j + 1) < len then w (j + 1) * x (c + (j + 1)) else 0)).sum
        let den := w 0 + ((List.range (wl - 1)).map fun j =>
          (if j + 1 ≤ c then w (j + 1) else 0) + (if c + (j + 1) < len then w (j + 1) else 0)).sum
        weightedAverage buf weights c len wl = if den = 0 then none else some (num / den)

/-! ## The RingBank -/

/-- R152, R153, R155: a push into a bank that is not full adds the newest packet, a push into a full one
drops the oldest, a pop takes the oldest and frees its slot; each keeps the bank's invariant. -/
def Obligations.BankIsAQueueOfFive : Prop :=
  ∀ (b : Bank) (item : List U8), b.Inv →
    b.contents.length = b.occ ∧
    (b.occ < 5 → (b.push item).Inv ∧ (b.push item).contents = b.contents ++ [item] ∧
      (b.push item).occ = b.occ + 1) ∧
    (b.occ = 5 → (b.push item).Inv ∧ (b.push item).contents = b.contents.tail ++ [item] ∧
      (b.push item).occ = 5) ∧
    (b.occ = 0 → b.pop = none) ∧
    (0 < b.occ → ∃ oldest slot b', b.pop = some (oldest, slot, b') ∧ b'.Inv ∧
      b.contents = oldest :: b'.contents ∧ b'.occ = b.occ - 1 ∧
      (∃ x, b.slots[slot]? = some x ∧ x.v = true ∧ x.rank = 0) ∧
      ∃ y, b'.slots[slot]? = some y ∧ y.v = false)

/-- R156: pushes of at most five packets into an empty bank, then as many pops, give the packets in
order; one push beyond five drops exactly the oldest; a pop after a clear gives nothing. -/
def Obligations.BankIsFirstInFirstOut : Prop :=
  ∀ (b : Bank) (items : List (List U8)), b.Inv →
    (b.occ = 0 → items.length ≤ 5 →
      (Bank.popMany items.length (b.pushAll items)).1 = items ∧
        (Bank.popMany items.length (b.pushAll items)).2.occ = 0) ∧
    (∀ item, b.occ = 0 → items.length = 5 →
      ((b.pushAll items).push item).contents = items.tail ++ [item]) ∧
    b.clear.Inv ∧ b.clear.pop = none

/-! ## ALN -/

/-- 43_aligner.md R230: aln.reset loads P and K, empties the bank, zeroes F and BDELAY and marks ALN
configured; out of range it is rejected. -/
def Obligations.AlnResetEmptiesTheBank : Prop :=
  ∀ (s : State) (p k : U32),
    (DimensionsOk s.params p k → ∃ a, Cleared { s.aln with cfgd := true, p := p, k := k } a ∧
      exec (.alnReset p k) s = .next (s.aligned a acceptance)) ∧
      (¬DimensionsOk s.params p k → Rejected (.alnReset p k) s)

/-- R231: aln.align needs a configured ALN, W items on every input and room for W; else it is rejected.
Items beyond the first W of a window are not read. -/
def Obligations.AlignNeedsAFullWindow : Prop :=
  ∀ (s : State) (x : AlnWindows) (out : U32),
    (¬FullWindow s x out → Rejected (x.align out) s) ∧
      (s.Inv → FullWindow s x out → exec (x.align out) s = exec ((x.take s.aln.w).align out) s)

/-- R234, R236 (and log entry 8 for a difference that is no `s32` value): pulses at different indices give
251 on both outputs for the whole window, the difference of the indices on the control channel, and an
empty bank. -/
def Obligations.MisalignedPulsesGive251 : Prop :=
  ∀ (s : State) (x : AlnWindows) (out : U32) (i1 i2 : Nat),
    s.Inv → FullWindow s x out → PulseAt s.aln.p.toNat x.s1 i1 → PulseAt s.aln.p.toNat x.s2 i2 →
      i1 ≠ i2 →
        let w := s.aln.w
        let v := (i1 : Int) - i2
        ∃ a ctl draws, Cleared s.aln a ∧ ctl.length = w ∧
          exec (x.align out) s = .next ({ s with draws := draws }.aligned a
            (alignRecord w (List.replicate w 251) (List.replicate w 251) ctl)) ∧
          (-2147483648 ≤ v ∧ v < 2147483648 →
            draws = s.draws ∧ ctl = List.replicate w (BitVec.ofInt 32 v))

/-- R235, R236 (and log entry 8): pulses at the same index past 0 give 252 on both outputs up to them, the
index on the control channel, as many items consumed, and an empty bank. -/
def Obligations.OffsetPulsesGive252 : Prop :=
  ∀ (s : State) (x : AlnWindows) (out : U32) (i : Nat),
    s.Inv → FullWindow s x out → PulseAt s.aln.p.toNat x.s1 i → PulseAt s.aln.p.toNat x.s2 i → i ≠ 0 →
      ∃ a ctl draws, Cleared s.aln a ∧ ctl.length = i ∧
        exec (x.align out) s = .next ({ s with draws := draws }.aligned a
          (alignRecord i (List.replicate i 252) (List.replicate i 252) ctl)) ∧
        (i < 2147483648 → draws = s.draws ∧ ctl = List.replicate i (BitVec.ofNat 32 i))

/-- R237, R236: pulses at index 0 with |delay| above 5 give 253 on both outputs for the whole window, the
delay wrapped to `s32` on the control channel, and an empty bank. -/
def Obligations.ExcessDelayGives253 : Prop :=
  ∀ (s : State) (x : AlnWindows) (out : U32) (delay : Int),
    s.Inv → FullWindow s x out → PulsesAtZero s x delay → 5 < delay.natAbs →
      let w := s.aln.w
      ∃ a, Cleared s.aln a ∧
        exec (x.align out) s = .next (s.aligned a (alignRecord w (List.replicate w 253)
          (List.replicate w 253) (List.replicate w (BitVec.ofInt 32 delay))))

/-- R238, R236: pulses at index 0 with equal counters pass both streams through, with 0 on the control
channel and an empty bank. -/
def Obligations.StreamsInSyncPassThrough : Prop :=
  ∀ (s : State) (x : AlnWindows) (out : U32),
    s.Inv → FullWindow s x out → PulsesAtZero s x 0 →
      let w := s.aln.w
      ∃ a, Cleared s.aln a ∧
        exec (x.align out) s =
          .next (s.aligned a (alignRecord w (x.d1.take w) (x.d2.take w) (List.replicate w 0)))

/-- R239, R241: on a skew of D = |delay| packets, when the packets kept are fewer than D, the filling path
pushes the n = min(D − OCC, K) lead packets it can, gives 255 on both outputs and the delay on the
control channel for n packets, and sets F exactly when the delay line is now complete. -/
def Obligations.FillingPathCollectsLeadPackets : Prop :=
  ∀ (s : State) (x : AlnWindows) (out : U32) (delay : Int),
    s.Inv → FullWindow s x out → PulsesAtZero s x delay → delay ≠ 0 → delay.natAbs ≤ 5 →
      let p := s.aln.p.toNat
      let kept := keptPackets s.aln delay
      kept.length ≠ delay.natAbs →
        let n := min (delay.natAbs - kept.length) s.aln.k.toNat
        ∃ a : Aln,
          exec (x.align out) s = .next (s.aligned a (alignRecord (n * p) (List.replicate (n * p) 255)
            (List.replicate (n * p) 255) (List.replicate (n * p) (BitVec.ofInt 32 delay)))) ∧
          a.bank.contents = kept ++ packets p n (x.lead delay) ∧ a.bank.occ = kept.length + n ∧
          1 ≤ n ∧ (a.f = true ↔ kept.length + n = delay.natAbs) ∧ a.bdelay.toInt = delay ∧
          a.cfgd = true ∧ a.p = s.aln.p ∧ a.k = s.aln.k

/-- R239, R240: when the packets kept are exactly D, the steady path gives on the lead's output the first K
packets of the kept packets followed by the lead window, on the lag's output a copy, on the control
channel the delay; and the bank keeps the last D packets. -/
def Obligations.SteadyPathDelaysTheLead : Prop :=
  ∀ (s : State) (x : AlnWindows) (out : U32) (delay : Int),
    s.Inv → FullWindow s x out → PulsesAtZero s x delay → delay ≠ 0 → delay.natAbs ≤ 5 →
      let p := s.aln.p.toNat
      let k := s.aln.k.toNat
      let w := s.aln.w
      let kept := keptPackets s.aln delay
      kept.length = delay.natAbs →
        let line := kept ++ packets p k (x.lead delay)
        let lead := (line.take k).flatten
        let lag := (x.lag delay).take w
        ∃ a : Aln,
          exec (x.align out) s = .next (s.aligned a (alignRecord w
            (if 0 < delay then lead else lag) (if 0 < delay then lag else lead)
            (List.replicate w (BitVec.ofInt 32 delay)))) ∧
          a.bank.contents = line.drop k ∧ a.bank.occ = delay.natAbs ∧ a.f = true ∧
          a.bdelay.toInt = delay ∧ a.cfgd = true ∧ a.p = s.aln.p ∧ a.k = s.aln.k

/-- R242, R244, R309: an accepted ALIGN consumes what it produces, at least one item and at most W, and
its three outputs hold that many items each. -/
def Obligations.AlignProducesWhatItConsumes : Prop :=
  ∀ (s t : State) (x : AlnWindows) (out : U32) (run : AlnRun),
    s.Inv → exec (x.align out) s = .next t → t.results = s.results ++ [⟨.ok, .aln run⟩] →
      run.consumed = run.produced ∧ 1 ≤ run.produced ∧ run.produced ≤ s.aln.w ∧
        run.o1.length = run.produced ∧ run.o2.length = run.produced ∧ run.ctl.length = run.produced

/-- R243 (StreamAligner idempotence): two streams in sync in every packet come out as they went in, with 0
on the control channel, for as long as whole windows last. -/
def Obligations.StreamsInSyncComeOutUnchanged : Prop :=
  ∀ (s : State) (x : AlnStreams) (out : U32) (total rounds : Nat),
    s.Inv → s.aln.cfgd = true → s.aln.w ≤ out.toNat → SkewedStreams s.aln.p.toNat total x 0 →
      rounds * s.aln.k.toNat ≤ total →
        let n := rounds * s.aln.w
        let outs := alignStream rounds x out s
        outs.1 = x.d1.take n ∧ outs.2.1 = x.d2.take n ∧ outs.2.2.1 = List.replicate n 0

/-- R243 (skew round trip): two streams whose counters differ by a constant delay of 1 to 5 packets, in
either direction, from an empty bank: after |delay| packets of 255 on both outputs, the lag's output is
its input and the lead's output is its input delayed by |delay| packets, for any number of windows; and
ceil(|delay|/K) windows fill the bank. -/
def Obligations.SkewedStreamsComeOutAligned : Prop :=
  ∀ (s : State) (x : AlnStreams) (out : U32) (total rounds : Nat) (delay : Int),
    s.Inv → s.aln.cfgd = true → s.aln.bank.occ = 0 → s.aln.w ≤ out.toNat →
      delay ≠ 0 → delay.natAbs ≤ 5 → SkewedStreams s.aln.p.toNat total x delay →
      rounds * s.aln.k.toNat ≤ total →
        let fillItems := delay.natAbs * s.aln.p.toNat
        let outs := alignStream rounds x out s
        let lead := if 0 < delay then outs.1 else outs.2.1
        let lag := if 0 < delay then outs.2.1 else outs.1
        let n := lag.length
        lead = (List.replicate fillItems 255 ++ x.lead delay).take n ∧
          lag = (List.replicate fillItems 255 ++ (x.lag delay).drop fillItems).take n ∧
          outs.2.2.1 = List.replicate n (BitVec.ofInt 32 delay) ∧
          ((delay.natAbs + s.aln.k.toNat - 1) / s.aln.k.toNat ≤ rounds →
            n = fillItems +
              (rounds - (delay.natAbs + s.aln.k.toNat - 1) / s.aln.k.toNat) * s.aln.w)

/-! ## Results -/

/-- 20_memory.md R74, 30_encoding.md R98: a RUN produces no more items than the room it is offered and
consumes no more than it is presented, and every output port of its unit delivers exactly the produced
count. -/
def Obligations.RunsStayWithinTheirWindows : Prop :=
  ∀ (i : Instr) (s t : State) (r : Result) (u : UnitId) (consumed produced : Nat) (side : Bool),
    s.Inv → exec i s = .next t → t.results = s.results ++ [r] →
      r.delivery.counts = some (u, consumed, produced, side) →
        u = i.opcode.unit ∧ r.status = .ok ∧
        (∀ port items, r.itemsOn port = some items →
          r.producedOn port = some produced ∧ items.length = produced) ∧
        match i with
        | .encEncode pay sci out =>
          produced ≤ out.toNat ∧ consumed ≤ sci.elim pay.length fun xs => min pay.length xs.length
        | .decDecode raw sci out =>
          produced ≤ out.toNat ∧ consumed ≤ sci.elim raw.length fun xs => min raw.length xs.length
        | .alnAlign d1 s1 c1 d2 s2 c2 out =>
          produced ≤ out.toNat ∧ (⟨d1, s1, c1, d2, s2, c2⟩ : AlnWindows).Holds consumed
        | _ => False

/-! ## Outside a primitive's domain -/

/-- The model's choice (log entry 20), where 40_primitives.md R135 gives no value: `bitsToNumber` of fewer
than `bitLen` elements counts the missing ones as 0, and so stays within R135's range for 16. -/
def Obligations.MissingBitsCountAsZero : Prop :=
  (∀ (bits : List U8) (len : Nat), bits.length < len →
      bitsToNumber bits len = bitsToNumber bits bits.length) ∧
    ∀ bits : List U8, bits.length < 16 → bitsToNumber bits 16 ≤ 16711425

/-- The model's choice (log entry 20), where 40_primitives.md R141 asks N ≥ 1: an empty needle matches
exactly at offset 0 of every haystack but the empty one. -/
def Obligations.EmptyNeedleMatchesAtTheStart : Prop :=
  ∀ (tol : MatchTol) (h : List U8),
    matchPattern tol h [] = if h = [] then none else some ⟨0, .exact⟩
end

