-- ==== Sys2Proof/Laws/State.lean ====
section
/-! SUPPORT. What each update of the state leaves in each field, once. -/

namespace Sys2Proof.Machine

section Answer
variable (s : State) (st : Status) (d : Delivery) (r : Result)

@[simp] theorem State.answer_enc : (s.answer st d).enc = s.enc := rfl
@[simp] theorem State.answer_dec : (s.answer st d).dec = s.dec := rfl
@[simp] theorem State.answer_aln : (s.answer st d).aln = s.aln := rfl
@[simp] theorem State.answer_params : (s.answer st d).params = s.params := rfl
@[simp] theorem State.answer_draws : (s.answer st d).draws = s.draws := rfl
@[simp] theorem State.answer_pending : (s.answer st d).pending = s.pending := rfl
@[simp] theorem State.answer_results : (s.answer st d).results = s.results ++ [⟨st, d⟩] := rfl

@[simp] theorem State.answered_enc : (s.answered r).enc = s.enc := rfl
@[simp] theorem State.answered_dec : (s.answered r).dec = s.dec := rfl
@[simp] theorem State.answered_aln : (s.answered r).aln = s.aln := rfl
@[simp] theorem State.answered_params : (s.answered r).params = s.params := rfl
@[simp] theorem State.answered_draws : (s.answered r).draws = s.draws := rfl
@[simp] theorem State.answered_pending : (s.answered r).pending = s.pending := rfl
@[simp] theorem State.answered_results : (s.answered r).results = s.results ++ [r] := rfl

/-- `answer` is `answered`: one spelling for later proofs. -/
theorem State.answer_eq_answered : s.answer st d = s.answered ⟨st, d⟩ := rfl

@[simp] theorem State.lastResult_answered : (s.answered r).lastResult = some r := by
  simp [State.lastResult]

theorem State.accept_eq : s.accept = .next (s.answered acceptance) := rfl
theorem State.deliver_eq : s.deliver d = .next (s.answered ⟨.ok, d⟩) := rfl
theorem State.reject_eq : s.reject = .next (s.answered rejection) := rfl
theorem State.rejectIllegal_eq : s.rejectIllegal = .next (s.answered ⟨.illegal, .nothing⟩) := rfl
theorem State.idle_eq : s.idle = .next s := rfl

end Answer

section Aligned
variable (s : State) (a : Aln) (r : Result)

@[simp] theorem State.aligned_enc : (s.aligned a r).enc = s.enc := rfl
@[simp] theorem State.aligned_dec : (s.aligned a r).dec = s.dec := rfl
@[simp] theorem State.aligned_aln : (s.aligned a r).aln = a := rfl
@[simp] theorem State.aligned_params : (s.aligned a r).params = s.params := rfl
@[simp] theorem State.aligned_draws : (s.aligned a r).draws = s.draws := rfl
@[simp] theorem State.aligned_pending : (s.aligned a r).pending = s.pending := rfl
@[simp] theorem State.aligned_results : (s.aligned a r).results = s.results ++ [r] := rfl
@[simp] theorem State.lastResult_aligned : (s.aligned a r).lastResult = some r := by
  simp [State.lastResult]

end Aligned

section Recompute
variable (u : FrameRegs)

@[simp] theorem FrameRegs.recompute_cfgd : u.recompute.cfgd = u.cfgd := rfl
@[simp] theorem FrameRegs.recompute_pre : u.recompute.pre = u.pre := rfl
@[simp] theorem FrameRegs.recompute_lab : u.recompute.lab = u.lab := rfl
@[simp] theorem FrameRegs.recompute_spb : u.recompute.spb = u.spb := rfl
@[simp] theorem FrameRegs.recompute_psz : u.recompute.psz = u.psz := rfl
@[simp] theorem FrameRegs.recompute_sc : u.recompute.sc = u.sc := rfl
@[simp] theorem FrameRegs.recompute_hp : u.recompute.hp = headerPattern u.pre u.lab := rfl
@[simp] theorem FrameRegs.recompute_hdrt :
    u.recompute.hdrt = interpolate (headerPattern u.pre u.lab) u.spb.toNat := rfl
@[simp] theorem FrameRegs.recompute_n :
    u.recompute.n = (interpolate (headerPattern u.pre u.lab) u.spb.toNat).length := rfl
@[simp] theorem FrameRegs.recompute_fl :
    u.recompute.fl = frameLength u.pre u.lab u.spb u.psz := rfl

end Recompute

section Clear
variable (a : Aln)

@[simp] theorem Aln.clearAlignment_cfgd : a.clearAlignment.cfgd = a.cfgd := rfl
@[simp] theorem Aln.clearAlignment_p : a.clearAlignment.p = a.p := rfl
@[simp] theorem Aln.clearAlignment_k : a.clearAlignment.k = a.k := rfl
@[simp] theorem Aln.clearAlignment_bank : a.clearAlignment.bank = a.bank.clear := rfl
@[simp] theorem Aln.clearAlignment_f : a.clearAlignment.f = false := rfl
@[simp] theorem Aln.clearAlignment_bdelay : a.clearAlignment.bdelay = 0 := rfl
@[simp] theorem Bank.clear_occ (b : Bank) : b.clear.occ = 0 := rfl
@[simp] theorem Bank.clear_slots (b : Bank) :
    b.clear.slots = b.slots.map fun s => ⟨false, s.rank, s.data⟩ := rfl

/-- `clearAlignment` is what the invariant's vocabulary calls `Cleared`. -/
theorem Aln.cleared_clearAlignment : Cleared a a.clearAlignment :=
  ⟨rfl, rfl, rfl, rfl, rfl, rfl, rfl⟩

end Clear

/-- `State.fetch` takes the oldest command off. -/
theorem State.fetch_cons {s : State} {c : Command} {rest : List Command} (h : s.pending = c :: rest) :
    s.fetch = some (c, { s with pending := rest }) := by
  simp [State.fetch, h]

theorem State.fetch_nil {s : State} (h : s.pending = []) : s.fetch = none := by
  simp [State.fetch, h]

end Sys2Proof.Machine
end

