-- ==== Sys2Proof/Laws/Operands.lean ====
section
/-! SUPPORT. What the ArrayOps and the window operations compute, item by item. -/

namespace Sys2Proof.Machine

section Slices
variable {α : Type}

@[simp] theorem length_fill (n : Nat) (v : α) : (fill n v).length = n := List.length_replicate

theorem getElem?_fill {n i : Nat} (v : α) (h : i < n) : (fill n v)[i]? = some v := by
  simp [fill, h]

theorem length_slice (a : List α) (lo hi : Nat) :
    (slice a lo hi).length = min (hi - lo) (a.length - lo) := by
  simp [slice]

theorem length_slice_of_le {a : List α} {lo hi : Nat} (h : hi ≤ a.length) :
    (slice a lo hi).length = hi - lo := by
  rw [length_slice]; omega

theorem getElem?_slice {a : List α} {lo hi i : Nat} (h : i < hi - lo) :
    (slice a lo hi)[i]? = a[lo + i]? := by
  simp [slice, h]

theorem length_packet_of_le {p j : Nat} {a : List α} (h : (j + 1) * p ≤ a.length) :
    (packet p a j).length = p := by
  rw [packet, length_slice_of_le h, Nat.add_mul]; omega

theorem getElem?_packet {p j i : Nat} {a : List α} (h : i < p) :
    (packet p a j)[i]? = a[j * p + i]? := by
  rw [packet, getElem?_slice]
  rw [Nat.add_mul]; omega

/-- A packet of a longer stream is a packet of the window that starts a whole number of packets in. -/
theorem packet_drop (p q j : Nat) (a : List α) : packet p (a.drop (q * p)) j = packet p a (q + j) := by
  simp only [packet, slice, List.drop_drop]
  congr 1
  · simp only [Nat.add_mul]; omega
  · congr 1; simp only [Nat.add_mul]

/-- The packets of a window cut to whole packets. -/
theorem packet_take {p j w : Nat} (a : List α) (h : (j + 1) * p ≤ w) :
    packet p (a.take w) j = packet p a j := by
  simp only [packet, slice, List.drop_take, List.take_take]
  congr 1; omega

/-- Consecutive packets join to the items they are cut from. -/
theorem flatten_packets (p n : Nat) (a : List α) :
    ((List.range n).map (packet p a)).flatten = a.take (n * p) := by
  induction n with
  | zero => simp
  | succ n ih =>
    rw [List.range_succ, List.map_append, List.flatten_append, ih]
    simp only [List.map_cons, List.map_nil, List.flatten_cons, List.flatten_nil, List.append_nil,
      packet, slice]
    rw [Nat.add_mul, Nat.one_mul, Nat.add_sub_cancel_left, List.take_add]

end Slices

/-! ## interpolate and decimate -/

section Resampling
variable {α : Type}

@[simp] theorem interpolate_nil (ratio : Nat) : interpolate ([] : List α) ratio = [] := rfl

@[simp] theorem interpolate_cons (x : α) (xs : List α) (ratio : Nat) :
    interpolate (x :: xs) ratio = fill ratio x ++ interpolate xs ratio := rfl

@[simp] theorem length_interpolate (src : List α) (ratio : Nat) :
    (interpolate src ratio).length = src.length * ratio := by
  induction src with
  | nil => simp
  | cons x xs ih => simp [ih, Nat.add_mul, Nat.add_comm]

theorem getElem?_interpolate {ratio r : Nat} (src : List α) (x : Nat) (hr : r < ratio) :
    (interpolate src ratio)[x * ratio + r]? = src[x]? := by
  induction src generalizing x with
  | nil => simp
  | cons y ys ih =>
    rw [interpolate_cons]
    cases x with
    | zero =>
      rw [List.getElem?_append_left (by simpa using by omega)]
      simpa using getElem?_fill y (by omega)
    | succ x =>
      rw [List.getElem?_append_right (by simp [Nat.add_mul]; omega)]
      have : (x + 1) * ratio + r - (fill ratio y).length = x * ratio + r := by
        simp [Nat.add_mul]; omega
      rw [this, ih]; simp

theorem getElem?_interpolate_div {ratio : Nat} (src : List α) (o : Nat) (h : 0 < ratio) :
    (interpolate src ratio)[o]? = src[o / ratio]? := by
  have := getElem?_interpolate src (o / ratio) (Nat.mod_lt o h)
  rwa [Nat.div_add_mod' o ratio] at this

/-- A `filterMap` over a range whose function is defined on it keeps every index. -/
theorem filterMap_range {β : Type} (f : Nat → Option β) (n : Nat) (h : ∀ j < n, (f j).isSome) :
    ((List.range n).filterMap f).length = n ∧
      ∀ j < n, ((List.range n).filterMap f)[j]? = f j := by
  induction n with
  | zero => simp
  | succ n ih =>
    obtain ⟨hl, hg⟩ := ih fun j hj => h j (by omega)
    obtain ⟨v, hv⟩ := Option.isSome_iff_exists.mp (h n (by omega))
    have hstep : (List.range (n + 1)).filterMap f = (List.range n).filterMap f ++ [v] := by
      simp [List.range_succ, hv]
    refine ⟨by simp [hstep, hl], fun j hj => ?_⟩
    rw [hstep]
    by_cases hjn : j < n
    · rw [List.getElem?_append_left (by omega), hg j hjn]
    · obtain rfl : j = n := by omega
      rw [List.getElem?_append_right (by omega), hl, hv]; simp

theorem decimate_bound {len ratio j : Nat} (hr : 1 ≤ ratio) :
    j < (len + ratio - 1) / ratio ↔ j * ratio < len := by
  rw [← Nat.succ_le_iff, Nat.le_div_iff_mul_le (by omega), Nat.succ_mul]; omega

theorem decimate_spec (src : List α) {ratio : Nat} (hr : 1 ≤ ratio) :
    (decimate src ratio).length = (src.length + ratio - 1) / ratio ∧
      ∀ j, j * ratio < src.length → (decimate src ratio)[j]? = src[j * ratio]? := by
  have hd : ∀ j < (src.length + ratio - 1) / ratio, (src[j * ratio]?).isSome := fun j hj => by
    simpa using (decimate_bound hr).mp hj
  obtain ⟨hl, hg⟩ := filterMap_range _ _ hd
  exact ⟨hl, fun j hj => hg j ((decimate_bound hr).mpr hj)⟩

end Resampling

/-! ## Bits and numbers -/

@[simp] theorem length_numberToBits (n len : Nat) : (numberToBits n len).length = len := by
  simp [numberToBits]

theorem getElem?_numberToBits (n : Nat) {len i : Nat} (h : i < len) :
    (numberToBits n len)[i]? = some (BitVec.ofNat 8 (n / 2 ^ i % 2)) := by
  simp [numberToBits, h, Nat.shiftRight_eq_div_pow, Nat.and_one_is_mod]

theorem numberToBits_isBit (n len : Nat) : ∀ b ∈ numberToBits n len, b = 0 ∨ b = 1 := by
  intro b hb
  obtain ⟨i, -, rfl⟩ := List.mem_map.mp hb
  rw [Nat.and_one_is_mod]
  rcases Nat.mod_two_eq_zero_or_one (n >>> i) with h | h <;> simp [h]

theorem bitsToNumber_eq_sum (bits : List U8) (len : Nat) :
    bitsToNumber bits len = ((List.range len).map fun i => (bits[i]?.getD 0).toNat * 2 ^ i).sum := by
  unfold bitsToNumber
  congr 2
  funext i
  cases bits[i]? <;> simp [Nat.shiftLeft_eq]

/-- The low bits of a number, summed at their weights, are the number modulo a power of two. -/
theorem sum_bits (n len : Nat) :
    ((List.range len).map fun i => n / 2 ^ i % 2 * 2 ^ i).sum = n % 2 ^ len := by
  induction len with
  | zero => simp [Nat.mod_one]
  | succ len ih =>
    rw [List.range_succ, List.map_append, List.sum_append, ih, Nat.mod_pow_succ]
    simp [Nat.mul_comm]

theorem bitsToNumber_numberToBits (n len : Nat) : bitsToNumber (numberToBits n len) len = n % 2 ^ len := by
  rw [bitsToNumber_eq_sum, ← sum_bits]
  congr 1
  refine List.map_congr_left fun i hi => ?_
  rw [getElem?_numberToBits n (List.mem_range.mp hi)]
  have : n / 2 ^ i % 2 < 256 := by omega
  simp [Nat.mod_eq_of_lt this]

theorem bitsToNumber_le (bits : List U8) (len : Nat) : bitsToNumber bits len ≤ 255 * (2 ^ len - 1) := by
  rw [bitsToNumber_eq_sum]
  induction len with
  | zero => simp
  | succ len ih =>
    rw [List.range_succ, List.map_append, List.sum_append]
    have hb : (bits[len]?.getD 0).toNat ≤ 255 := by have := (bits[len]?.getD 0).isLt; omega
    have hm : (bits[len]?.getD 0).toNat * 2 ^ len ≤ 255 * 2 ^ len := Nat.mul_le_mul_right _ hb
    have hp : 0 < 2 ^ len := Nat.two_pow_pos len
    simp only [List.map_cons, List.map_nil, List.sum_cons, List.sum_nil, Nat.add_zero, Nat.pow_succ]
    omega

/-! ## Layouts -/

@[simp] theorem length_labelBits (lab : List U8) : (labelBits lab).length = 8 * lab.length := by
  induction lab with
  | nil => rfl
  | cons c cs ih => simp only [labelBits, List.flatMap_cons, List.length_append] at *; simp [ih]; omega

theorem getElem?_labelBits (lab : List U8) (y : Nat) :
    (labelBits lab)[y]? = (lab[y / 8]?).map fun ch => BitVec.ofNat 8 (ch.toNat / 2 ^ (y % 8) % 2) := by
  induction lab generalizing y with
  | nil => simp [labelBits]
  | cons c cs ih =>
    have hsplit : labelBits (c :: cs) = numberToBits c.toNat 8 ++ labelBits cs := rfl
    rw [hsplit]
    by_cases hy : y < 8
    · rw [List.getElem?_append_left (by simpa using hy), getElem?_numberToBits _ hy]
      simp [Nat.div_eq_of_lt hy, Nat.mod_eq_of_lt hy]
    · rw [List.getElem?_append_right (by simpa using by omega), ih]
      have h1 : (y - 8) / 8 = y / 8 - 1 := by omega
      have h2 : (y - 8) % 8 = y % 8 := by omega
      obtain ⟨m, hm⟩ : ∃ m, y / 8 = m + 1 := ⟨y / 8 - 1, by omega⟩
      simp [h1, h2, hm]

@[simp] theorem length_headerPattern (pre lab : List U8) :
    (headerPattern pre lab).length = pre.length + 8 * lab.length := by
  simp [headerPattern]

theorem getElem?_headerPattern (pre lab : List U8) (x : Nat) :
    (headerPattern pre lab)[x]? = headerBit pre lab x := by
  unfold headerPattern headerBit
  split
  · rw [List.getElem?_append_left ‹_›]
  · rw [List.getElem?_append_right (by omega), getElem?_labelBits]

theorem frameLength_eq_wireLength (pre lab : List U8) (spb psz : U32) :
    frameLength pre lab spb psz = wireLength pre lab spb psz := by
  simp [frameLength, wireLength, Config.cntBits, Nat.mul_comm]

/-- `recompute` makes the derived registers what R41 to R43 say of the configuration. -/
theorem FrameRegs.configured_recompute {u : FrameRegs} (h : u.cfgd = true) :
    Configured u.recompute u.pre u.lab u.spb u.psz u.sc where
  cfgdSet := h
  preHeld := rfl
  labHeld := rfl
  spbHeld := rfl
  pszHeld := rfl
  scHeld := rfl
  hpLength := by simp
  hpItem x _ := by simp [getElem?_headerPattern]
  hdrtLength := by simp [headerLength]
  hdrtItem x _ r hr := by
    rw [FrameRegs.recompute_hdrt, getElem?_interpolate _ _ hr, getElem?_headerPattern]
  nHeld := by simp [headerLength]
  flHeld := frameLength_eq_wireLength ..

/-- The model's validity test is R40's predicate. -/
theorem validLayout_iff (c : Params) (pre lab : List U8) (spb psz : U32) :
    validLayout c pre lab spb psz = true ↔ LayoutOk c pre lab spb psz := by
  simp only [validLayout, LayoutOk, Bool.and_eq_true, decide_eq_true_eq, List.all_eq_true,
    Bool.or_eq_true, beq_iff_eq]
  tauto

theorem validDimensions_iff (c : Params) (p k : U32) :
    validDimensions c p k = true ↔ DimensionsOk c p k := by
  simp only [validDimensions, DimensionsOk, Bool.and_eq_true, decide_eq_true_eq]
  tauto

theorem sideChannelFits_iff {α : Type} (sc : Bool) (sci : Option α) :
    sideChannelFits sc sci = true ↔ sc = sci.isSome := by
  simp [sideChannelFits]

theorem available_eq (xs : List U8) (sci : Option (List U32)) :
    available xs sci = sci.elim xs.length fun ys => min xs.length ys.length := by
  cases sci <;> rfl

end Sys2Proof.Machine
end

