-- ==== Sys2Proof/Laws/Layout.lean ====
section
/-! SUPPORT. Reconfiguring ENC and DEC, and the lengths and items of lists of equal blocks. -/

namespace Sys2Proof.Machine

/-! ## Reconfiguration -/

/-- A reset with a valid layout gives registers for it. -/
theorem FrameRegs.afterReset_some {c : Params} {pre lab : List U8} {spb psz : U32} (sc : Bool)
    (h : LayoutOk c pre lab spb psz) :
    ∃ v, FrameRegs.afterReset c pre lab spb psz sc = some v ∧ Configured v pre lab spb psz sc := by
  refine ⟨FrameRegs.configured pre lab spb psz sc, ?_, FrameRegs.configured_recompute rfl⟩
  rw [FrameRegs.afterReset, if_pos ((validLayout_iff ..).mpr h)]

theorem FrameRegs.afterReset_none {c : Params} {pre lab : List U8} {spb psz : U32} (sc : Bool)
    (h : ¬LayoutOk c pre lab spb psz) : FrameRegs.afterReset c pre lab spb psz sc = none := by
  rw [FrameRegs.afterReset, if_neg (mt (validLayout_iff ..).mp h)]

/-- A setter with a valid layout gives registers for it and keeps the side channel's connection. -/
theorem FrameRegs.relaid_some {c : Params} {u : FrameRegs} {pre lab : List U8} {spb psz : U32}
    (hc : u.cfgd = true) (h : LayoutOk c pre lab spb psz) :
    ∃ v, FrameRegs.relaid c u pre lab spb psz = some v ∧ Configured v pre lab spb psz u.sc := by
  refine ⟨_, ?_, FrameRegs.configured_recompute
    (u := { u with pre := pre, lab := lab, spb := spb, psz := psz }) hc⟩
  rw [FrameRegs.relaid, hc, Bool.true_and, if_pos ((validLayout_iff ..).mpr h)]

theorem FrameRegs.relaid_none {c : Params} {u : FrameRegs} {pre lab : List U8} {spb psz : U32}
    (h : u.cfgd = false ∨ ¬LayoutOk c pre lab spb psz) :
    FrameRegs.relaid c u pre lab spb psz = none := by
  rw [FrameRegs.relaid, if_neg]
  rw [Bool.and_eq_true, validLayout_iff]
  rintro ⟨h1, h2⟩
  rcases h with h | h
  · rw [h] at h1; cases h1
  · exact h h2

/-- Everything a setter can do to the registers. -/
theorem FrameRegs.relaid_cases (c : Params) (u : FrameRegs) (pre lab : List U8) (spb psz : U32) :
    FrameRegs.relaid c u pre lab spb psz = none ∨
      (u.cfgd = true ∧ LayoutOk c pre lab spb psz ∧
        ∃ v, FrameRegs.relaid c u pre lab spb psz = some v ∧ Configured v pre lab spb psz u.sc) := by
  by_cases h : u.cfgd = true ∧ LayoutOk c pre lab spb psz
  · exact .inr ⟨h.1, h.2, FrameRegs.relaid_some h.1 h.2⟩
  · refine .inl (FrameRegs.relaid_none ?_)
    by_cases hc : u.cfgd = true
    · exact .inr fun hl => h ⟨hc, hl⟩
    · exact .inl (by simpa using hc)

/-- Registers made for a valid layout meet the invariant. -/
theorem Configured.inv {c : Params} {v : FrameRegs} {pre lab : List U8} {spb psz : U32} {sc : Bool}
    (h : Configured v pre lab spb psz sc) (hl : LayoutOk c pre lab spb psz) : v.Inv c := by
  intro _
  rw [h.preHeld, h.labHeld, h.spbHeld, h.pszHeld, h.scHeld]
  exact ⟨hl, h⟩

/-! ## Blocks -/

section Blocks
variable {α : Type}

/-- A row of blocks of one length, block by block. -/
theorem flatten_blocks (g : Nat → List α) {len m : Nat} (hg : ∀ f < m, (g f).length = len) :
    ((List.range m).map g).flatten.length = m * len ∧
      ∀ f < m, ∀ o < len, ((List.range m).map g).flatten[f * len + o]? = (g f)[o]? := by
  induction m with
  | zero => simp
  | succ m ih =>
    obtain ⟨hl, hi⟩ := ih fun f hf => hg f (by omega)
    rw [List.range_succ, List.map_append, List.flatten_append]
    refine ⟨by simp [hl, hg m (by omega), Nat.add_mul], fun f hf o ho => ?_⟩
    by_cases hfm : f < m
    · have hlt : f * len + o < m * len := by
        have : (f + 1) * len ≤ m * len := Nat.mul_le_mul_right _ hfm
        rw [Nat.add_mul] at this; omega
      rw [List.getElem?_append_left (by rw [hl]; exact hlt), hi f hfm o ho]
    · obtain rfl : f = m := by omega
      rw [List.getElem?_append_right (by rw [hl]; omega), hl, Nat.add_sub_cancel_left]
      simp

/-- The same of a list's image. -/
theorem flatten_map_blocks {β : Type} (xs : List β) (g : β → List α) {len : Nat}
    (hg : ∀ x ∈ xs, (g x).length = len) :
    (xs.map g).flatten.length = xs.length * len ∧
      ∀ k x, xs[k]? = some x → ∀ o < len, (xs.map g).flatten[k * len + o]? = (g x)[o]? := by
  induction xs with
  | nil => simp
  | cons y ys ih =>
    obtain ⟨hl, hi⟩ := ih fun x hx => hg x (by simp [hx])
    have hy := hg y (by simp)
    refine ⟨by simp [hl, hy, Nat.add_mul, Nat.add_comm], fun k x hk o ho => ?_⟩
    rw [List.map_cons, List.flatten_cons]
    cases k with
    | zero =>
      obtain rfl : y = x := by simpa using hk
      rw [List.getElem?_append_left (by omega)]; simp
    | succ k =>
      rw [List.getElem?_append_right (by rw [hy, Nat.add_mul]; omega), hy,
        show (k + 1) * len + o - len = k * len + o by rw [Nat.add_mul]; omega]
      exact hi k x (by simpa using hk) o ho

end Blocks

end Sys2Proof.Machine
end

