-- ==== Sys2Proof/Laws/Encoder.lean ====
section
/-! SUPPORT. What ENC.ENCODE emits. -/

namespace Sys2Proof.Machine

/-- A frame is the table of R95, item by item. -/
theorem encFrame_spec {u : FrameRegs} {pre lab : List U8} {spb psz : U32} {sc : Bool}
    (hu : Configured u pre lab spb psz sc) (hs : 1 ≤ spb.toNat) (cnt : U16) {chunk : List U8}
    (hc : chunk.length = psz.toNat) :
    (encFrame u cnt chunk).length = u.fl ∧
      ∀ o < u.fl, (encFrame u cnt chunk)[o]? = wireItem pre lab spb cnt.toNat chunk o := by
  have hlen : (u.hdrt ++ interpolate (numberToBits cnt.toNat Config.cntBits) u.spb.toNat).length =
      headerLength pre lab spb + 16 * spb.toNat := by
    simp [hu.hdrtLength, hu.spbHeld, Config.cntBits]
  have hfl : u.fl = headerLength pre lab spb + 16 * spb.toNat + psz.toNat := by
    rw [hu.flHeld]; simp only [wireLength, headerLength, Nat.add_mul, Nat.mul_comm 8]
  refine ⟨by rw [encFrame, List.length_append, hlen, hc, hfl], fun o ho => ?_⟩
  unfold encFrame wireItem
  by_cases h1 : o < headerLength pre lab spb
  · rw [if_pos h1, List.append_assoc, List.getElem?_append_left (by rw [hu.hdrtLength]; exact h1)]
    have hdiv : o / spb.toNat < pre.length + 8 * lab.length := Nat.div_lt_of_lt_mul (by
      rw [Nat.mul_comm]; exact h1)
    have := hu.hdrtItem (o / spb.toNat) hdiv (o % spb.toNat) (Nat.mod_lt _ hs)
    rwa [Nat.div_add_mod'] at this
  · rw [if_neg h1]
    by_cases h2 : o < headerLength pre lab spb + 16 * spb.toNat
    · rw [if_pos h2, List.append_assoc, List.getElem?_append_right (by rw [hu.hdrtLength]; omega),
        List.getElem?_append_left (by simp [hu.hdrtLength, hu.spbHeld, Config.cntBits]; omega),
        hu.spbHeld, getElem?_interpolate_div _ _ hs, hu.hdrtLength, getElem?_numberToBits]
      exact Nat.div_lt_of_lt_mul (by simp only [Config.cntBits]; rw [Nat.mul_comm]; omega)
    · rw [if_neg h2, List.getElem?_append_right (by rw [hlen]; omega), hlen]
      congr 1; omega

/-- A side-channel frame is R97, item by item. -/
theorem encSideFrame_spec {u : FrameRegs} {pre lab : List U8} {spb psz : U32} {sc : Bool}
    (hu : Configured u pre lab spb psz sc) {chunk : List U32} (hc : chunk.length = psz.toNat) :
    (encSideFrame u chunk).length = u.fl ∧
      ∀ o < u.fl, (encSideFrame u chunk)[o]? = sideItem pre lab spb chunk o := by
  have hfl : u.fl = headerLength pre lab spb + 16 * spb.toNat + psz.toNat := by
    rw [hu.flHeld]; simp only [wireLength, headerLength, Nat.add_mul, Nat.mul_comm 8]
  have hlen : u.hdrt.length + Config.cntBits * u.spb.toNat = headerLength pre lab spb + 16 * spb.toNat := by
    rw [hu.hdrtLength, hu.spbHeld, Config.cntBits]
  refine ⟨by simp [encSideFrame, hlen, hc, hfl], fun o ho => ?_⟩
  unfold encSideFrame sideItem
  rw [hlen]
  by_cases h1 : o < headerLength pre lab spb + 16 * spb.toNat
  · rw [if_pos h1, List.getElem?_append_left (by simpa using h1), getElem?_fill _ h1, hu.spbHeld]
  · rw [if_neg h1, List.getElem?_append_right (by simpa using h1)]
    congr 1; simp; omega

/-- The counter of frame `f` (R178). -/
theorem toNat_cnt_add (cnt : U16) (f : Nat) : (cnt + BitVec.ofNat 16 f).toNat = (cnt.toNat + f) % 65536 := by
  simp

theorem cnt_add (cnt : U16) (m : Nat) : cnt + BitVec.ofNat 16 m = BitVec.ofNat 16 (cnt.toNat + m) := by
  apply BitVec.eq_of_toNat_eq; simp

section Counts
variable {u : FrameRegs} {pay : List U8} {sci : Option (List U32)} {out : U32}

theorem encCount_mul_psz : encCount u pay sci out * u.psz.toNat ≤ available pay sci :=
  (Nat.mul_le_mul_right _ (Nat.min_le_left ..)).trans (Nat.div_mul_le_self ..)

theorem encCount_mul_fl : encCount u pay sci out * u.fl ≤ out.toNat :=
  (Nat.mul_le_mul_right _ (Nat.min_le_right ..)).trans (Nat.div_mul_le_self ..)

theorem available_le_main (main : List U8) (sci : Option (List U32)) : available main sci ≤ main.length := by
  cases sci
  · exact le_rfl
  · exact Nat.min_le_left ..

theorem available_le_side (main : List U8) (xs : List U32) : available main (some xs) ≤ xs.length :=
  Nat.min_le_right ..

end Counts

/-- The chunks ENC takes are whole. -/
theorem length_chunk {α : Type} {p f m : Nat} {xs : List α} (hf : f < m) (hm : m * p ≤ xs.length) :
    (packet p xs f).length = p :=
  length_packet_of_le ((Nat.mul_le_mul_right _ hf).trans hm)

/-- ENC.ENCODE's data output. -/
theorem encFrames_spec {u : FrameRegs} {pre lab : List U8} {spb psz : U32} {sc : Bool}
    (hu : Configured u pre lab spb psz sc) (hs : 1 ≤ spb.toNat) (cnt : U16) {pay : List U8} {m : Nat}
    (hm : m * psz.toNat ≤ pay.length) :
    (encFrames u cnt pay m).flatten.length = m * u.fl ∧
      ∀ f < m, ∀ o < u.fl, (encFrames u cnt pay m).flatten[f * u.fl + o]? =
        wireItem pre lab spb ((cnt.toNat + f) % 65536) (packet psz.toNat pay f) o := by
  have hspec : ∀ f < m, (packet u.psz.toNat pay f).length = psz.toNat := fun f hf => by
    rw [hu.pszHeld]; exact length_chunk hf hm
  obtain ⟨h1, h2⟩ := flatten_blocks
    (fun f => encFrame u (cnt + BitVec.ofNat 16 f) (packet u.psz.toNat pay f)) (m := m) (len := u.fl)
    fun f hf => (encFrame_spec hu hs _ (hspec f hf)).1
  refine ⟨h1, fun f hf o ho => (h2 f hf o ho).trans ?_⟩
  rw [(encFrame_spec hu hs _ (hspec f hf)).2 o ho, toNat_cnt_add, hu.pszHeld]

/-- ENC.ENCODE's side-channel output. -/
theorem encSideFrames_spec {u : FrameRegs} {pre lab : List U8} {spb psz : U32} {sc : Bool}
    (hu : Configured u pre lab spb psz sc) {sci : List U32} {m : Nat}
    (hm : m * psz.toNat ≤ sci.length) :
    (encSideFrames u sci m).flatten.length = m * u.fl ∧
      ∀ f < m, ∀ o < u.fl, (encSideFrames u sci m).flatten[f * u.fl + o]? =
        sideItem pre lab spb (packet psz.toNat sci f) o := by
  have hspec : ∀ f < m, (packet u.psz.toNat sci f).length = psz.toNat := fun f hf => by
    rw [hu.pszHeld]; exact length_chunk hf hm
  obtain ⟨h1, h2⟩ := flatten_blocks (fun f => encSideFrame u (packet u.psz.toNat sci f)) (m := m)
    (len := u.fl) fun f hf => (encSideFrame_spec hu (hspec f hf)).1
  refine ⟨h1, fun f hf o ho => (h2 f hf o ho).trans ?_⟩
  rw [(encSideFrame_spec hu (hspec f hf)).2 o ho, hu.pszHeld]

/-- Everything enc.encode does. -/
theorem execEncEncode_cases (pay : List U8) (sci : Option (List U32)) (out : U32) (s : State) :
    (¬(s.enc.regs.cfgd = true ∧ s.enc.regs.sc = sci.isSome) ∧
        execEncEncode pay sci out s = .next (s.answered rejection)) ∨
      (s.enc.regs.cfgd = true ∧ s.enc.regs.sc = sci.isSome ∧
        execEncEncode pay sci out s = .next
          ({ s with enc := ⟨s.enc.regs,
              BitVec.ofNat 16 (s.enc.cnt.toNat + encCount s.enc.regs pay sci out)⟩ }.answered
            ⟨.ok, .enc (encRun s.enc pay sci out)⟩)) := by
  unfold execEncEncode
  by_cases h : s.enc.regs.cfgd = true ∧ s.enc.regs.sc = sci.isSome
  · rw [if_pos (by rw [Bool.and_eq_true, sideChannelFits_iff]; exact h), State.deliver_eq, cnt_add]
    exact .inr ⟨h.1, h.2, rfl⟩
  · rw [if_neg (by rw [Bool.and_eq_true, sideChannelFits_iff]; exact h), State.reject_eq]
    exact .inl ⟨h, rfl⟩

end Sys2Proof.Machine
end

