-- ==== Sys2Proof/Laws/RingBank.lean ====
section
/-! SUPPORT. The RingBank operations keep the bank's invariant, and what each does to the queue of packets
the bank holds. -/

namespace Sys2Proof.Machine

/-- Whether a slot is the valid one of a rank. -/
def Slot.holds (r : Nat) (s : Slot) : Bool := s.v && s.rank == r

theorem Bank.slotOfRank_eq (b : Bank) (r : Nat) : b.slotOfRank r = b.slots.find? (Slot.holds r) := rfl

section Inv
variable {b : Bank}

/-- The valid slots' ranks are below the occupied count. -/
theorem Bank.Inv.rank_lt (h : b.Inv) {s : Slot} (hs : s ∈ b.slots) (hv : s.v = true) : s.rank < b.occ := by
  have : s.rank ∈ (b.slots.filter Slot.v).map Slot.rank :=
    List.mem_map.mpr ⟨s, List.mem_filter.mpr ⟨hs, hv⟩, rfl⟩
  exact List.mem_range.mp (h.ranks.mem_iff.mp this)

/-- The occupied count is the number of valid slots. -/
theorem Bank.Inv.occ_eq (h : b.Inv) : (b.slots.filter Slot.v).length = b.occ := by
  simpa using h.ranks.length_eq

theorem Bank.Inv.occ_le (h : b.Inv) : b.occ ≤ 5 := by
  rw [← h.occ_eq, ← h.slotCount]; exact List.length_filter_le ..

/-- Each rank below the count has its slot. -/
theorem Bank.Inv.slotOfRank_isSome (h : b.Inv) {r : Nat} (hr : r < b.occ) :
    ∃ s, b.slotOfRank r = some s ∧ s ∈ b.slots ∧ s.v = true ∧ s.rank = r := by
  obtain ⟨s, hs, rfl⟩ := List.mem_map.mp (h.ranks.mem_iff.mpr (List.mem_range.mpr hr))
  obtain ⟨hm, hv⟩ := List.mem_filter.mp hs
  have hsome : (b.slotOfRank s.rank).isSome := by
    rw [Bank.slotOfRank_eq, List.find?_isSome]
    exact ⟨s, hm, by simp [Slot.holds, hv]⟩
  obtain ⟨t, ht⟩ := Option.isSome_iff_exists.mp hsome
  have hp := List.find?_some (Bank.slotOfRank_eq b _ ▸ ht)
  simp only [Slot.holds, Bool.and_eq_true, beq_iff_eq] at hp
  exact ⟨t, ht, List.mem_of_find?_eq_some (Bank.slotOfRank_eq b _ ▸ ht), hp.1, hp.2⟩

theorem Bank.Inv.slotOfRank_eq_none (h : b.Inv) {r : Nat} (hr : b.occ ≤ r) : b.slotOfRank r = none := by
  rw [Bank.slotOfRank_eq, List.find?_eq_none]
  intro s hs hp
  simp only [Slot.holds, Bool.and_eq_true, beq_iff_eq] at hp
  have := h.rank_lt hs hp.1
  omega

/-- The bank's contents, rank by rank. -/
theorem Bank.Inv.contents_spec (h : b.Inv) :
    b.contents.length = b.occ ∧ ∀ r, b.contents[r]? = (b.slotOfRank r).map Slot.data := by
  obtain ⟨hl, hg⟩ := filterMap_range (fun r => (b.slotOfRank r).map Slot.data) b.occ
    fun r hr => by obtain ⟨s, hs, -⟩ := h.slotOfRank_isSome hr; simp [hs]
  refine ⟨hl, fun r => ?_⟩
  by_cases hr : r < b.occ
  · exact hg r hr
  · rw [h.slotOfRank_eq_none (Nat.le_of_not_lt hr), Option.map_none]
    exact List.getElem?_eq_none (by rw [show b.contents.length = b.occ from hl]; omega)

theorem Bank.Inv.length_contents (h : b.Inv) : b.contents.length = b.occ := h.contents_spec.1

/-- A bank that meets the invariant and whose slots hold `items` rank by rank has those contents. -/
theorem Bank.Inv.contents_eq (h : b.Inv) {items : List (List U8)}
    (hi : ∀ r, (b.slotOfRank r).map Slot.data = items[r]?) : b.contents = items :=
  List.ext_getElem? fun r => by rw [h.contents_spec.2, hi]

/-- Every packet in the bank is some valid slot's data. -/
theorem Bank.Inv.mem_contents (h : b.Inv) {item : List U8} (hi : item ∈ b.contents) :
    ∃ s ∈ b.slots, s.v = true ∧ s.data = item := by
  obtain ⟨r, hr⟩ := List.getElem?_of_mem hi
  rw [h.contents_spec.2] at hr
  obtain ⟨s, hs, rfl⟩ := Option.map_eq_some_iff.mp hr
  have hp := List.find?_some (Bank.slotOfRank_eq b _ ▸ hs)
  simp only [Slot.holds, Bool.and_eq_true] at hp
  exact ⟨s, List.mem_of_find?_eq_some (Bank.slotOfRank_eq b _ ▸ hs), hp.1, rfl⟩

end Inv

/-! ## push -/

/-- Where a push finds room: the first empty slot. -/
theorem Bank.Inv.empty_slot {b : Bank} (h : b.Inv) (hlt : b.occ < 5) :
    ∃ l x r, b.slots = l ++ x :: r ∧ x.v = false ∧
      ∀ y, b.slots.set (b.slots.findIdx fun s => !s.v) y = l ++ y :: r := by
  have hex : ∃ s ∈ b.slots, (!s.v) = true := by
    by_contra hc
    push Not at hc
    have hall : ∀ s ∈ b.slots, s.v = true := fun s hs => by simpa using hc s hs
    have := h.occ_eq
    rw [List.filter_eq_self.mpr hall, h.slotCount] at this
    omega
  have hi : (b.slots.findIdx fun s => !s.v) < b.slots.length := List.findIdx_lt_length.mpr hex
  refine ⟨_, _, _, (List.take_append_drop (b.slots.findIdx fun s => !s.v) b.slots).symm.trans
    (by rw [List.drop_eq_getElem_cons hi]), ?_, fun y => ?_⟩
  · simpa using List.findIdx_getElem (w := hi)
  · rw [List.set_eq_take_append_cons_drop, if_pos hi]

/-- A push into a bank that is not full. -/
theorem Bank.Inv.push_room {b : Bank} (h : b.Inv) (hlt : b.occ < 5) (item : List U8) :
    (b.push item).Inv ∧ (b.push item).contents = b.contents ++ [item] ∧
      (b.push item).occ = b.occ + 1 ∧
      ∀ s ∈ (b.push item).slots, s.v = true → s.data = item ∨ ∃ t ∈ b.slots, t.v = true ∧ t.data = s.data := by
  obtain ⟨l, x, r, hs, hx, hset⟩ := h.empty_slot hlt
  have hpush : b.push item = ⟨l ++ ⟨true, b.occ, item⟩ :: r, b.occ + 1⟩ := by
    rw [Bank.push, if_pos (show b.occ < Config.cap from hlt), hset]
  have hinv : (b.push item).Inv := by
    refine ⟨?_, ?_⟩
    · have := h.slotCount
      rw [hs] at this
      simpa [hpush] using this
    · have hr := h.ranks
      rw [hs] at hr
      simp only [List.filter_append, List.filter_cons, hx, Bool.false_eq_true, if_false,
        List.map_append] at hr
      rw [hpush]
      simp only [List.filter_append, List.filter_cons, if_true, List.map_append, List.map_cons,
        List.range_succ]
      exact List.perm_middle.trans ((hr.cons b.occ).trans (List.perm_append_singleton ..).symm)
  refine ⟨hinv, hinv.contents_eq fun k => ?_, by rw [hpush], fun s hm hv => ?_⟩
  · have hfind : b.slotOfRank k = (l.find? (Slot.holds k)).or (r.find? (Slot.holds k)) := by
      rw [Bank.slotOfRank_eq, hs, List.find?_append, List.find?_cons_of_neg (by simp [Slot.holds, hx])]
    have hfind' : (b.push item).slotOfRank k =
        (l.find? (Slot.holds k)).or
          (if k = b.occ then some ⟨true, b.occ, item⟩ else r.find? (Slot.holds k)) := by
      rw [Bank.slotOfRank_eq, hpush, List.find?_append, List.find?_cons]
      by_cases hk : k = b.occ
      · simp [Slot.holds, hk]
      · have : (b.occ == k) = false := by simpa using fun e => hk e.symm
        simp [Slot.holds, hk, this]
    rw [hfind']
    by_cases hk : k = b.occ
    · have hn := h.slotOfRank_eq_none (r := k) (by omega)
      rw [hfind, Option.or_eq_none_iff] at hn
      rw [hn.1, if_pos hk, List.getElem?_append_right (by rw [h.length_contents]; omega),
        h.length_contents, hk]
      simp
    · rw [if_neg hk, ← hfind, ← h.contents_spec.2]
      by_cases hlt' : k < b.occ
      · rw [List.getElem?_append_left (by rw [h.length_contents]; exact hlt')]
      · rw [List.getElem?_eq_none (by rw [h.length_contents]; omega),
          List.getElem?_eq_none (by rw [List.length_append, h.length_contents]; simp; omega)]
  · rw [hpush] at hm
    rcases List.mem_append.mp hm with hm | hm
    · exact .inr ⟨s, by rw [hs]; simp [hm], hv, rfl⟩
    · rcases List.mem_cons.mp hm with rfl | hm
      · exact .inl rfl
      · exact .inr ⟨s, by rw [hs]; simp [hm], hv, rfl⟩

/-- In a full bank every slot is valid. -/
theorem Bank.Inv.all_valid {b : Bank} (h : b.Inv) (hf : b.occ = 5) : ∀ s ∈ b.slots, s.v = true :=
  List.length_filter_eq_length_iff.mp (by rw [h.occ_eq, h.slotCount, hf])

/-- A push into a full bank. -/
theorem Bank.Inv.push_full {b : Bank} (h : b.Inv) (hf : b.occ = 5) (item : List U8) :
    (b.push item).Inv ∧ (b.push item).contents = b.contents.tail ++ [item] ∧
      (b.push item).occ = 5 := by
  have hall := h.all_valid hf
  have hpush : b.push item = ⟨b.slots.map (Slot.afterEviction item), 5⟩ := by
    rw [Bank.push, if_neg (by simp [hf, Config.cap]), hf]
  have hv : ∀ s : Slot, (s.afterEviction item).v = s.v := fun s => by
    unfold Slot.afterEviction; split <;> rfl
  have hrank : ∀ s : Slot, (s.afterEviction item).rank = if s.rank = 0 then 4 else s.rank - 1 := fun s => by
    unfold Slot.afterEviction; split <;> simp [Slot.age, Config.cap, *]
  have hlt : ∀ s ∈ b.slots, s.rank < 5 := fun s hs => hf ▸ h.rank_lt hs (hall s hs)
  have hinv : (b.push item).Inv := by
    refine ⟨by simp [hpush, h.slotCount], ?_⟩
    have hr := h.ranks
    rw [List.filter_eq_self.mpr hall, hf] at hr
    rw [hpush]
    simp only
    rw [List.filter_eq_self.mpr (by simpa [hv] using hall), List.map_map]
    have hcomp : Slot.rank ∘ Slot.afterEviction item = (fun n => if n = 0 then 4 else n - 1) ∘ Slot.rank :=
      funext hrank
    rw [hcomp, ← List.map_map]
    exact (hr.map _).trans (by decide)
  refine ⟨hinv, hinv.contents_eq fun k => ?_, by rw [hpush]⟩
  have hlen : b.contents.length = 5 := h.length_contents.trans hf
  rw [Bank.slotOfRank_eq, hpush, List.find?_map]
  rcases Nat.lt_trichotomy k 4 with hk | rfl | hk
  · have hfun : b.slots.find? (Slot.holds k ∘ Slot.afterEviction item) =
        b.slots.find? (Slot.holds (k + 1)) :=
      List.find?_congr fun s hs => by
        simp only [Function.comp, Slot.holds, hv, hrank]
        rw [hall s hs, Bool.true_and, Bool.true_and, Bool.eq_iff_iff, beq_iff_eq, beq_iff_eq]
        split <;> omega
    rw [hfun, ← Bank.slotOfRank_eq, List.getElem?_append_left (by simp [hlen, hk]),
      List.getElem?_tail, h.contents_spec.2]
    obtain ⟨s, hs, -, -, hr⟩ := h.slotOfRank_isSome (r := k + 1) (by omega)
    have hne : s.rank ≠ 0 := by omega
    simp [hs, Slot.afterEviction, hne, Slot.age]
  · have hfun : b.slots.find? (Slot.holds 4 ∘ Slot.afterEviction item) = b.slots.find? (Slot.holds 0) :=
      List.find?_congr fun s hs => by
        have := hlt s hs
        simp only [Function.comp, Slot.holds, hv, hrank]
        rw [hall s hs, Bool.true_and, Bool.true_and, Bool.eq_iff_iff, beq_iff_eq, beq_iff_eq]
        split <;> omega
    obtain ⟨s, hs, -, -, hr⟩ := h.slotOfRank_isSome (r := 0) (by omega)
    rw [hfun, ← Bank.slotOfRank_eq, hs, List.getElem?_append_right (by simp [hlen])]
    simp [hlen, Slot.afterEviction, hr]
  · rw [List.getElem?_eq_none (by simp [hlen]; omega), List.find?_eq_none.mpr ?_]
    · rfl
    · intro s hs hp
      have := hlt s hs
      simp only [Function.comp, Slot.holds, hrank, Bool.and_eq_true, beq_iff_eq] at hp
      have := hp.2
      split at this <;> omega

/-! ## pop -/

/-- A pop from a bank that holds something. -/
theorem Bank.Inv.pop_some {b : Bank} (h : b.Inv) (hpos : 0 < b.occ) :
    ∃ oldest slot b', b.pop = some (oldest, slot, b') ∧ b'.Inv ∧
      b.contents = oldest :: b'.contents ∧ b'.occ = b.occ - 1 ∧
      (∃ x, b.slots[slot]? = some x ∧ x.v = true ∧ x.rank = 0) ∧
      (∃ y, b'.slots[slot]? = some y ∧ y.v = false) ∧
      ∀ s ∈ b'.slots, s.v = true → ∃ t ∈ b.slots, t.v = true ∧ t.data = s.data := by
  obtain ⟨s0, hs0, hm0, hv0, hr0⟩ := h.slotOfRank_isSome hpos
  have hv : ∀ s : Slot, s.afterPop.v = (s.v && s.rank != 0) := fun s => by
    unfold Slot.afterPop
    cases hsv : s.v <;> by_cases hz : s.rank = 0 <;> simp [hsv, hz, Slot.age]
  have hrank : ∀ s : Slot, s.afterPop.v = true → s.afterPop.rank = s.rank - 1 ∧ s.rank ≠ 0 ∧ s.v = true := by
    intro s hs
    rw [hv, Bool.and_eq_true, bne_iff_ne] at hs
    unfold Slot.afterPop
    simp [hs.1, hs.2, Slot.age]
  have hdata : ∀ s : Slot, s.afterPop.data = s.data := fun s => by
    unfold Slot.afterPop; repeat' split
    all_goals rfl
  have hfun : ∀ k, Slot.holds k ∘ Slot.afterPop = Slot.holds (k + 1) := fun k => funext fun s => by
    rw [Bool.eq_iff_iff]
    simp only [Function.comp, Slot.holds, Bool.and_eq_true, beq_iff_eq]
    constructor
    · intro ⟨h1, h2⟩
      have := hrank s h1
      exact ⟨this.2.2, by omega⟩
    · intro ⟨h1, h2⟩
      have h3 : s.afterPop.v = true := by rw [hv, h1, h2]; rfl
      exact ⟨h3, by have := hrank s h3; omega⟩
  have hpop : b.pop = some (s0.data, b.slots.findIdx (Slot.holds 0),
      ⟨b.slots.map Slot.afterPop, b.occ - 1⟩) := by
    rw [Bank.pop, if_neg (by omega), hs0]; rfl
  have hinv : (⟨b.slots.map Slot.afterPop, b.occ - 1⟩ : Bank).Inv := by
    refine ⟨by simp [h.slotCount], ?_⟩
    have hmap : ((b.slots.map Slot.afterPop).filter Slot.v).map Slot.rank =
        (((b.slots.filter Slot.v).map Slot.rank).filter (· != 0)).map (· - 1) := by
      rw [List.filter_map, List.map_map, List.filter_map, List.map_map, List.filter_filter]
      have : Slot.v ∘ Slot.afterPop = fun s => ((fun n => n != 0) ∘ Slot.rank) s && s.v :=
        funext fun s => by simp [hv, Bool.and_comm]
      rw [this]
      refine List.map_congr_left fun s hs => ?_
      have hs := (List.mem_filter.mp hs).2
      have : s.afterPop.v = true := by rw [hv]; simpa [Bool.and_comm] using hs
      simpa using (hrank s this).1
    rw [hmap]
    refine ((h.ranks.filter _).map _).trans (List.Perm.of_eq ?_)
    obtain ⟨m, hm⟩ : ∃ m, b.occ = m + 1 := ⟨b.occ - 1, by omega⟩
    rw [hm, List.range_succ_eq_map]
    simp [List.filter_map, Function.comp_def]
  have hi : b.slots.findIdx (Slot.holds 0) < b.slots.length :=
    List.findIdx_lt_length.mpr ⟨s0, hm0, by simp [Slot.holds, hv0, hr0]⟩
  have hx : Slot.holds 0 (b.slots[b.slots.findIdx (Slot.holds 0)]'hi) = true := List.findIdx_getElem (w := hi)
  rw [Slot.holds, Bool.and_eq_true, beq_iff_eq] at hx
  refine ⟨_, _, _, hpop, hinv, ?_, rfl, ⟨_, List.getElem?_eq_getElem hi, hx.1, hx.2⟩,
    ⟨_, by rw [List.getElem?_map, List.getElem?_eq_getElem hi]; rfl, ?_⟩, ?_⟩
  · refine h.contents_eq fun k => ?_
    cases k with
    | zero => simp [hs0]
    | succ k =>
      rw [List.getElem?_cons_succ, hinv.contents_spec.2, Bank.slotOfRank_eq, Bank.slotOfRank_eq,
        List.find?_map, hfun, Option.map_map]
      congr 1
      funext s; exact (hdata s).symm
  · rw [hv, hx.2]; simp
  · intro s hs hsv
    obtain ⟨t, ht, rfl⟩ := List.mem_map.mp hs
    exact ⟨t, ht, (hrank t hsv).2.2, (hdata t).symm⟩

theorem Bank.pop_empty {b : Bank} (h : b.occ = 0) : b.pop = none := by rw [Bank.pop, if_pos h]

/-! ## clear, pushAll and popMany -/

theorem Bank.clear_inv {b : Bank} (h : b.slots.length = 5) : b.clear.Inv := by
  refine ⟨by simp [h], ?_⟩
  simp [List.filter_map, Function.comp_def]

theorem Bank.clear_contents (b : Bank) : b.clear.contents = [] := by simp [Bank.contents]

theorem Bank.clear_valid (b : Bank) : ∀ s ∈ b.clear.slots, s.v = false := by simp

/-- The packets of a bank's valid slots have a property. -/
def Bank.Data (P : List U8 → Prop) (b : Bank) : Prop := ∀ s ∈ b.slots, s.v = true → P s.data

theorem Bank.Inv.data_contents {b : Bank} {P : List U8 → Prop} (h : b.Inv) (hd : b.Data P) :
    ∀ item ∈ b.contents, P item := fun item hi => by
  obtain ⟨s, hs, hv, rfl⟩ := h.mem_contents hi
  exact hd s hs hv

/-- Pushes that find room append. -/
theorem Bank.Inv.pushAll_room {P : List U8 → Prop} {b : Bank} (h : b.Inv) (hd : b.Data P)
    (items : List (List U8)) (hp : ∀ item ∈ items, P item) (hroom : b.occ + items.length ≤ 5) :
    (b.pushAll items).Inv ∧ (b.pushAll items).contents = b.contents ++ items ∧
      (b.pushAll items).occ = b.occ + items.length ∧ (b.pushAll items).Data P := by
  induction items generalizing b with
  | nil => exact ⟨h, by simp [Bank.pushAll], rfl, hd⟩
  | cons x xs ih =>
    have hlen : b.occ + (xs.length + 1) ≤ 5 := by simpa using hroom
    obtain ⟨h1, h2, h3, h4⟩ := h.push_room (by omega) x
    have hd' : (b.push x).Data P := fun s hs hv => by
      rcases h4 s hs hv with e | ⟨t, ht, htv, e⟩
      · rw [e]; exact hp x (by simp)
      · rw [← e]; exact hd t ht htv
    obtain ⟨g1, g2, g3, g4⟩ := ih h1 hd' (fun i hi => hp i (by simp [hi])) (by rw [h3]; omega)
    refine ⟨g1, ?_, ?_, g4⟩
    · rw [show b.pushAll (x :: xs) = (b.push x).pushAll xs from rfl, g2, h2]; simp
    · rw [show b.pushAll (x :: xs) = (b.push x).pushAll xs from rfl, g3, h3, List.length_cons]; omega

/-- As many pops as there are packets, at most, give the oldest ones in order. -/
theorem Bank.Inv.popMany_spec {P : List U8 → Prop} {b : Bank} (h : b.Inv) (hd : b.Data P) (m : Nat)
    (hm : m ≤ b.occ) :
    (Bank.popMany m b).1 = b.contents.take m ∧ (Bank.popMany m b).2.Inv ∧
      (Bank.popMany m b).2.contents = b.contents.drop m ∧ (Bank.popMany m b).2.occ = b.occ - m ∧
      (Bank.popMany m b).2.Data P := by
  induction m generalizing b with
  | zero => exact ⟨by simp [Bank.popMany], h, by simp [Bank.popMany], by simp [Bank.popMany], hd⟩
  | succ m ih =>
    obtain ⟨x, k, b', hpop, hinv, hc, ho, -, -, hdata⟩ := h.pop_some (by omega)
    have hd' : b'.Data P := fun s hs hv => by
      obtain ⟨t, ht, htv, e⟩ := hdata s hs hv
      rw [← e]; exact hd t ht htv
    obtain ⟨g1, g2, g3, g4, g5⟩ := ih hinv hd' (by omega)
    simp only [Bank.popMany, hpop, hc]
    exact ⟨by simp [g1], g2, by simpa using g3, by omega, g5⟩

end Sys2Proof.Machine
end

