-- ==== Sys2Proof/Laws/Aligner.lean ====
section
/-! SUPPORT. What ALN.ALIGN does in each branch. -/

namespace Sys2Proof.Machine

/-! ## Classification -/

/-- `syncIndex` finds the first pulse (R233). -/
theorem pulseAt_syncIndex {p : Nat} {xs : List U8} (h : p ≤ xs.length) : PulseAt p xs (syncIndex p xs) := by
  have hlen : (xs.take p).length = p := by simpa using h
  unfold syncIndex PulseAt
  cases hf : (xs.take p).findIdx? fun x => x != 0 with
  | none =>
    rw [List.findIdx?_eq_none_iff] at hf
    refine ⟨fun j hj => ?_, .inl rfl⟩
    have hj : j < p := hj
    have hlt : j < (xs.take p).length := by omega
    have := hf _ (List.getElem_mem hlt)
    rw [← List.getElem?_take_of_lt hj, List.getElem?_eq_getElem hlt]
    simpa using this
  | some i =>
    obtain ⟨hi, hp, hlt⟩ := List.findIdx?_eq_some_iff_getElem.mp hf
    have hip : i < p := by omega
    refine ⟨fun j hj => ?_, .inr ⟨hip, (xs.take p)[i], ?_, by simpa using hp⟩⟩
    · have hj : j < i := hj
      have hjl : j < (xs.take p).length := by omega
      rw [← List.getElem?_take_of_lt (show j < p by omega), List.getElem?_eq_getElem hjl]
      simpa using hlt j hj
    · show xs[i]? = _
      rw [← List.getElem?_take_of_lt hip, List.getElem?_eq_getElem hi]

/-- There is one first pulse. -/
theorem PulseAt.unique {p : Nat} {xs : List U8} {i j : Nat} (hi : PulseAt p xs i) (hj : PulseAt p xs j) :
    i = j := by
  have key : ∀ {a b : Nat}, PulseAt p xs a → PulseAt p xs b → ¬a < b := by
    intro a b ha hb hab
    rcases ha.2 with rfl | ⟨-, x, hx, hne⟩
    · rcases hb.2 with rfl | ⟨hlt, -⟩ <;> omega
    · rw [hb.1 a hab] at hx
      exact hne (by simpa using hx.symm)
  rcases Nat.lt_trichotomy i j with h | h | h
  · exact absurd h (key hi hj)
  · exact h
  · exact absurd h (key hj hi)

theorem syncIndex_le (p : Nat) (xs : List U8) : syncIndex p xs ≤ p := by
  unfold syncIndex
  cases hf : (xs.take p).findIdx? fun x => x != 0 with
  | none => exact le_rfl
  | some i =>
    obtain ⟨hi, -⟩ := List.findIdx?_eq_some_iff_getElem.mp hf
    have : (xs.take p).length ≤ p := by simp
    show i ≤ p
    omega

theorem syncIndex_take {p w : Nat} (xs : List U8) (h : p ≤ w) : syncIndex p (xs.take w) = syncIndex p xs := by
  rw [syncIndex, List.take_take, min_eq_left h]; rfl

theorem counterAtZero_eq {xs : List S32} {v : S32} (h : xs[0]? = some v) :
    counterAtZero xs = v.toInt := by
  cases xs with
  | nil => simp at h
  | cons x xs => simp at h; simp [counterAtZero, h]

theorem counterAtZero_take {w : Nat} (c : List S32) (h : 0 < w) :
    counterAtZero (c.take w) = counterAtZero c := by
  obtain ⟨w, rfl⟩ : ∃ m, w = m + 1 := ⟨w - 1, by omega⟩
  cases c <;> rfl

theorem shortest_iff (x : AlnWindows) (w : Nat) : w ≤ x.shortest ↔ x.Holds w := by
  simp only [AlnWindows.shortest, AlnWindows.Holds, Nat.le_min]

/-- An ALIGN is accepted exactly with a full window (R231). -/
theorem execAlnAlign_eq (x : AlnWindows) (out : U32) (s : State) :
    (FullWindow s x out → exec (x.align out) s = alignBranch x s) ∧
      (¬FullWindow s x out → exec (x.align out) s = .next (s.answered rejection)) := by
  have hcond : (s.aln.cfgd && decide (s.aln.w ≤ x.shortest) && decide (s.aln.w ≤ out.toNat)) = true ↔
      FullWindow s x out := by
    rw [Bool.and_eq_true, Bool.and_eq_true, decide_eq_true_eq, decide_eq_true_eq, shortest_iff, and_assoc]
  constructor <;> intro h
  · simp only [AlnWindows.align, exec, execAlnAlign]
    rw [if_pos (hcond.mpr h)]
  · simp only [AlnWindows.align, exec, execAlnAlign]
    rw [if_neg (mt hcond.mp h), State.reject_eq]

section Branch
variable (x : AlnWindows) (s : State)

/-- The delay of a window whose pulses stand at index 0 (R232). -/
def delayOf : Int := counterAtZero x.c1 - counterAtZero x.c2

/-- The branch taken, by the first condition that applies (R232). -/
theorem alignBranch_cases :
    let i1 := syncIndex s.aln.p.toNat x.s1
    let i2 := syncIndex s.aln.p.toNat x.s2
    (i1 ≠ i2 ∧ alignBranch x s = alignMis i1 i2 s) ∨
      (i1 = i2 ∧ i1 ≠ 0 ∧ alignBranch x s = alignOff i1 s) ∨
      (i1 = 0 ∧ i2 = 0 ∧ 5 < (delayOf x).natAbs ∧ alignBranch x s = alignOvf (delayOf x) s) ∨
      (i1 = 0 ∧ i2 = 0 ∧ delayOf x = 0 ∧ alignBranch x s = alignSync x s) ∨
      (i1 = 0 ∧ i2 = 0 ∧ (delayOf x).natAbs ≤ 5 ∧ delayOf x ≠ 0 ∧
        alignBranch x s = alignSkew x (delayOf x) s) := by
  intro i1 i2
  by_cases h1 : i1 = i2
  · by_cases h2 : i1 = 0
    · have h3 : i2 = 0 := h1 ▸ h2
      by_cases h4 : 5 < (delayOf x).natAbs
      · have hcap : Config.cap < (counterAtZero x.c1 - counterAtZero x.c2).natAbs := h4
        refine .inr (.inr (.inl ⟨h2, h3, h4, ?_⟩))
        unfold alignBranch
        rw [if_neg (by simpa using h1), if_neg (by simpa using h2), if_pos hcap]; rfl
      · have hcap : ¬Config.cap < (counterAtZero x.c1 - counterAtZero x.c2).natAbs := h4
        by_cases h5 : delayOf x = 0
        · have hzero : counterAtZero x.c1 - counterAtZero x.c2 = 0 := h5
          refine .inr (.inr (.inr (.inl ⟨h2, h3, h5, ?_⟩)))
          unfold alignBranch
          rw [if_neg (by simpa using h1), if_neg (by simpa using h2), if_neg hcap,
            if_pos hzero]
        · have hzero : ¬counterAtZero x.c1 - counterAtZero x.c2 = 0 := h5
          refine .inr (.inr (.inr (.inr ⟨h2, h3, by omega, h5, ?_⟩)))
          unfold alignBranch
          rw [if_neg (by simpa using h1), if_neg (by simpa using h2), if_neg hcap,
            if_neg hzero]; rfl
    · refine .inr (.inl ⟨h1, h2, ?_⟩)
      unfold alignBranch
      rw [if_neg (by simpa using h1), if_pos (by simpa using h2)]
  · refine .inl ⟨h1, ?_⟩
    unfold alignBranch
    rw [if_pos (by simpa using h1)]

/-- The clearing branches, as states (R234 to R238). -/
theorem alignMis_eq (i1 i2 : Nat) :
    alignMis i1 i2 s = .next ({ s with draws := drawsAfter s.draws ((i1 : Int) - i2) }.aligned
      s.aln.clearAlignment (alignRecord s.aln.w (List.replicate s.aln.w 251)
        (List.replicate s.aln.w 251) (indexControl s.draws s.aln.w ((i1 : Int) - i2)))) := rfl

theorem alignOff_eq (i : Nat) :
    alignOff i s = .next ({ s with draws := drawsAfter s.draws i }.aligned s.aln.clearAlignment
      (alignRecord i (List.replicate i 252) (List.replicate i 252) (indexControl s.draws i i))) := rfl

theorem alignOvf_eq (delay : Int) :
    alignOvf delay s = .next (s.aligned s.aln.clearAlignment (alignRecord s.aln.w
      (List.replicate s.aln.w 253) (List.replicate s.aln.w 253)
      (List.replicate s.aln.w (BitVec.ofInt 32 delay)))) := rfl

theorem alignSync_eq :
    alignSync x s = .next (s.aligned s.aln.clearAlignment (alignRecord s.aln.w (x.d1.take s.aln.w)
      (x.d2.take s.aln.w) (List.replicate s.aln.w 0))) := rfl

end Branch

theorem fitsS32_iff (v : Int) : fitsS32 v = true ↔ -2147483648 ≤ v ∧ v < 2147483648 := by
  rw [fitsS32, Bool.and_eq_true, decide_eq_true_eq, decide_eq_true_eq, Int.toNat_lt' (by decide)]
  rfl

theorem length_indexControl (draws n : Nat) (v : Int) : (indexControl draws n v).length = n := by
  unfold indexControl; split <;> simp

theorem indexControl_fits {draws n : Nat} {v : Int} (h : -2147483648 ≤ v ∧ v < 2147483648) :
    indexControl draws n v = List.replicate n (BitVec.ofInt 32 v) ∧ drawsAfter draws v = draws := by
  have := (fitsS32_iff v).mpr h
  exact ⟨by rw [indexControl, if_pos this]; rfl, by rw [drawsAfter, if_pos this]⟩

/-! ## SKEW -/

/-- A small delay is its own `s32` value. -/
theorem toInt_wrapS32 {delay : Int} (h : delay.natAbs ≤ 5) : (wrapS32 delay).toInt = delay := by
  rw [wrapS32, BitVec.toInt_ofInt]
  exact Int.bmod_eq_of_le (by omega) (by omega)

/-- The bank's packets have P items (R48). -/
def PacketsOf (p : Nat) (b : Bank) : Prop := b.Data fun item => item.length = p

/-- The bank a skew window starts from holds the packets kept (R239). -/
theorem skewBank_spec {c : Params} {a : Aln} (h : a.Inv c) {delay : Int} :
    (skewBank a delay).Inv ∧ (skewBank a delay).contents = keptPackets a delay ∧
      (skewBank a delay).occ = (keptPackets a delay).length ∧
      PacketsOf a.p.toNat (skewBank a delay) ∧ (skewBank a delay).occ ≤ delay.natAbs := by
  have hcond : (decide (0 < a.bank.occ) && (decide (0 < a.bdelay.toInt) == decide (0 < delay)) &&
      decide (a.bank.occ ≤ delay.natAbs)) = true ↔
        0 < a.bank.occ ∧ (0 < a.bdelay.toInt ↔ 0 < delay) ∧ a.bank.occ ≤ delay.natAbs := by
    simp only [Bool.and_eq_true, decide_eq_true_eq, beq_iff_eq, decide_eq_decide, and_assoc]
  unfold skewBank keptPackets
  by_cases hk : 0 < a.bank.occ ∧ (0 < a.bdelay.toInt ↔ 0 < delay) ∧ a.bank.occ ≤ delay.natAbs
  · rw [if_pos (hcond.mpr hk), if_pos hk]
    exact ⟨h.bankInv, rfl, h.bankInv.length_contents.symm, h.packetLength, hk.2.2⟩
  · rw [if_neg (mt hcond.mp hk), if_neg hk]
    refine ⟨Bank.clear_inv h.bankInv.slotCount, Bank.clear_contents _, rfl, fun s hs hv => ?_, ?_⟩
    · rw [Bank.clear_valid _ s hs] at hv; cases hv
    · simp

/-- The lead packets of a window have P items. -/
theorem length_of_mem_packets {p n : Nat} {xs : List U8} (h : n * p ≤ xs.length) :
    ∀ item ∈ packets p n xs, item.length = p := by
  intro item hi
  obtain ⟨j, hj, rfl⟩ := List.mem_map.mp hi
  exact length_chunk (List.mem_range.mp hj) h

theorem take_packets (p n m : Nat) (xs : List U8) (h : m ≤ n) :
    (packets p n xs).take m = packets p m xs := by
  rw [packets, packets, ← List.map_take, List.take_range, min_eq_left h]

theorem drop_packets (p n m : Nat) (xs : List U8) :
    (packets p n xs).drop m = (List.range (n - m)).map fun j => packet p xs (m + j) := by
  refine List.ext_getElem? fun i => ?_
  rw [packets, List.getElem?_drop, List.getElem?_map, List.getElem?_map]
  by_cases hi : m + i < n
  · rw [List.getElem?_range hi, List.getElem?_range (by omega)]; rfl
  · rw [List.getElem?_eq_none (by simpa using by omega), List.getElem?_eq_none (by simpa using by omega)]
    rfl

theorem length_packets (p n : Nat) (xs : List U8) : (packets p n xs).length = n := by simp [packets]

/-- The steady path (R240). -/
theorem alignSteady_spec {bank : Bank} {delay : Int} {lead : List U8} {s : State} (lag : List U8)
    (hb : bank.Inv) (hp : PacketsOf s.aln.p.toNat bank) (ho : bank.occ = delay.natAbs)
    (hd : delay.natAbs ≤ 5) (hl : s.aln.w ≤ lead.length) :
    let p := s.aln.p.toNat
    let k := s.aln.k.toNat
    let line := bank.contents ++ packets p k lead
    let leadOut := (line.take k).flatten
    let lagOut := lag.take s.aln.w
    ∃ bank' : Bank, bank'.Inv ∧ bank'.contents = line.drop k ∧ bank'.occ = delay.natAbs ∧
      PacketsOf p bank' ∧ leadOut.length = s.aln.w ∧
      alignSteady bank delay lead lag s = .next (s.aligned
        { s.aln with bank := bank', f := true, bdelay := wrapS32 delay }
        (alignRecord s.aln.w (if 0 < delay then leadOut else lagOut)
          (if 0 < delay then lagOut else leadOut)
          (List.replicate s.aln.w (BitVec.ofInt 32 delay)))) := by
  intro p k line leadOut lagOut
  have hw : k * p ≤ lead.length := hl
  have hcl : bank.contents.length = delay.natAbs := hb.length_contents.trans ho
  obtain ⟨g1, g2, g3, g4, g5⟩ := hb.popMany_spec hp (min delay.natAbs k) (by omega)
  have hpk := length_of_mem_packets hw
  have hpush : steadyPushed p k delay.natAbs lead = (packets p k lead).drop (k - delay.natAbs) :=
    (drop_packets ..).symm
  have hlen : (steadyPushed p k delay.natAbs lead).length = min delay.natAbs k := by
    rw [hpush, List.length_drop, length_packets]; omega
  obtain ⟨q1, q2, q3, q4⟩ := g2.pushAll_room g5 (steadyPushed p k delay.natAbs lead)
    (by rw [hpush]; exact fun i hi => hpk i (List.mem_of_mem_drop hi)) (by omega)
  have hlead : steadyLead (Bank.popMany (min delay.natAbs k) bank).1 p k delay.natAbs lead = leadOut := by
    show List.flatten (_ ++ packets p (k - delay.natAbs) lead) = leadOut
    rw [g1, show leadOut = (line.take k).flatten from rfl, List.take_append, hcl,
      take_packets _ _ _ _ (Nat.sub_le ..)]
    congr 2
    rcases Nat.le_total delay.natAbs k with h | h
    · rw [min_eq_left h, List.take_of_length_le (by omega), List.take_of_length_le (by omega)]
    · rw [min_eq_right h]
  have hline : ∀ item ∈ line, item.length = p := fun i hi => by
    rcases List.mem_append.mp hi with hi | hi
    · exact hb.data_contents hp i hi
    · exact hpk i hi
  refine ⟨_, q1, ?_, by rw [q3, g4, hlen]; omega, q4, ?_, ?_⟩
  · rw [q2, g3, hpush, show line = bank.contents ++ packets p k lead from rfl, List.drop_append, hcl]
    congr 1
    rcases Nat.le_total delay.natAbs k with h | h
    · rw [min_eq_left h, List.drop_of_length_le (by omega), List.drop_of_length_le (by omega)]
    · rw [min_eq_right h]
  · have := (flatten_map_blocks (line.take k) id (len := p)
      fun i hi => hline i (List.mem_of_mem_take hi)).1
    rw [List.map_id] at this
    rw [show leadOut = (line.take k).flatten from rfl, this, List.length_take,
      show line = bank.contents ++ packets p k lead from rfl, List.length_append, length_packets]
    rw [min_eq_left (by omega)]; rfl
  · have hflag : delayLineFlag bank.occ delay.natAbs = true := by simp [delayLineFlag, ho]
    unfold alignSteady
    simp only
    rw [hlead, hflag]
    unfold byPort
    split <;> rfl

/-- The filling path (R241). -/
theorem alignFill_spec {bank : Bank} {delay : Int} {lead : List U8} {s : State}
    (hb : bank.Inv) (hp : PacketsOf s.aln.p.toNat bank) (ho : bank.occ < delay.natAbs)
    (hd : delay.natAbs ≤ 5) (hl : s.aln.w ≤ lead.length) (hk : 1 ≤ s.aln.k.toNat) :
    let p := s.aln.p.toNat
    let n := min (delay.natAbs - bank.occ) s.aln.k.toNat
    ∃ bank' : Bank, bank'.Inv ∧ bank'.contents = bank.contents ++ packets p n lead ∧
      bank'.occ = bank.occ + n ∧ PacketsOf p bank' ∧ 1 ≤ n ∧ n * p ≤ s.aln.w ∧
      alignFill bank delay lead s = .next (s.aligned
        { s.aln with
          bank := bank', f := delayLineFlag (bank.occ + n) delay.natAbs, bdelay := wrapS32 delay }
        (alignRecord (n * p) (List.replicate (n * p) 255) (List.replicate (n * p) 255)
          (List.replicate (n * p) (BitVec.ofInt 32 delay)))) := by
  intro p n
  have hn : n ≤ s.aln.k.toNat := Nat.min_le_right ..
  have hnp : n * p ≤ s.aln.w := Nat.mul_le_mul_right _ hn
  obtain ⟨q1, q2, q3, q4⟩ := hb.pushAll_room hp (packets p n lead)
    (length_of_mem_packets (hnp.trans hl)) (by rw [length_packets]; omega)
  rw [length_packets] at q3
  refine ⟨_, q1, q2, q3, q4, by omega, hnp, ?_⟩
  unfold alignFill
  simp only
  rw [show bank.pushAll ((List.range (min (delay.natAbs - bank.occ) s.aln.k.toNat)).map
    (packet s.aln.p.toNat lead)) = bank.pushAll (packets p n lead) from rfl, q3]
  rfl

end Sys2Proof.Machine
end

