-- ==== Sys2Proof/Laws/Decode.lean ====
section
/-! SUPPORT. Typed operands survive the way into a record and back, a record's reading does not depend on
its order, and each operation has its word. -/

namespace Sys2Proof

/-! ## Values -/

theorem Value.fitsU8_toNat (x : U8) : Value.fitsU8 (x.toNat : Int) = true :=
  Bool.and_eq_true_iff.mpr ⟨decide_eq_true (Int.natCast_nonneg _), decide_eq_true x.isLt⟩

theorem Value.fitsU32_toNat (x : U32) : Value.fitsU32 (x.toNat : Int) = true :=
  Bool.and_eq_true_iff.mpr ⟨decide_eq_true (Int.natCast_nonneg _), decide_eq_true x.isLt⟩

theorem Value.fitsS32_toInt (x : S32) : Value.fitsS32 x.toInt = true :=
  Bool.and_eq_true_iff.mpr ⟨decide_eq_true x.le_toInt,
    decide_eq_true ((Int.toNat_lt' (by decide)).mpr x.toInt_lt)⟩

/-- A list of items that all fit is read back item by item. -/
theorem map_ofInt_toNat {w : Nat} (xs : List (BitVec w)) :
    (xs.map fun x => (x.toNat : Int)).map (BitVec.ofInt w) = xs := by
  rw [List.map_map]
  exact (List.map_congr_left fun x _ => by simp).trans (List.map_id xs)

theorem map_ofInt_toInt {w : Nat} (xs : List (BitVec w)) :
    (xs.map BitVec.toInt).map (BitVec.ofInt w) = xs := by
  rw [List.map_map]
  exact (List.map_congr_left fun x _ => by simp).trans (List.map_id xs)

theorem Value.all_fitsU8 (xs : List U8) :
    (xs.map fun x => (x.toNat : Int)).all Value.fitsU8 = true := by
  refine List.all_eq_true.mpr fun v hv => ?_
  obtain ⟨x, -, rfl⟩ := List.mem_map.mp hv
  exact Value.fitsU8_toNat x

theorem Value.all_fitsU32 (xs : List U32) :
    (xs.map fun x => (x.toNat : Int)).all Value.fitsU32 = true := by
  refine List.all_eq_true.mpr fun v hv => ?_
  obtain ⟨x, -, rfl⟩ := List.mem_map.mp hv
  exact Value.fitsU32_toNat x

theorem Value.all_fitsS32 (xs : List S32) : (xs.map BitVec.toInt).all Value.fitsS32 = true := by
  refine List.all_eq_true.mpr fun v hv => ?_
  obtain ⟨x, -, rfl⟩ := List.mem_map.mp hv
  exact Value.fitsS32_toInt x

theorem Value.asU8List_ofU8List (xs : List U8) : (Value.ofU8List xs).asU8List = some xs := by
  rw [Value.ofU8List, Value.asU8List, if_pos (Value.all_fitsU8 xs), map_ofInt_toNat]

theorem Value.asU32List_ofU32List (xs : List U32) : (Value.ofU32List xs).asU32List = some xs := by
  rw [Value.ofU32List, Value.asU32List, if_pos (Value.all_fitsU32 xs), map_ofInt_toNat]

theorem Value.asS32List_ofS32List (xs : List S32) : (Value.ofS32List xs).asS32List = some xs := by
  rw [Value.ofS32List, Value.asS32List, if_pos (Value.all_fitsS32 xs), map_ofInt_toInt]

theorem Value.asU32_ofU32 (x : U32) : (Value.ofU32 x).asU32 = some x := by
  rw [Value.ofU32, Value.asU32, if_pos (Value.fitsU32_toNat x)]; simp

theorem Value.asBit_ofBit (b : Bool) : (Value.ofBit b).asBit = some b := by cases b <;> rfl

theorem FieldType.admits_ofU8List (xs : List U8) : FieldType.admits .u8List (Value.ofU8List xs) = true :=
  Value.all_fitsU8 xs

theorem FieldType.admits_ofU32List (xs : List U32) :
    FieldType.admits .u32List (Value.ofU32List xs) = true :=
  Value.all_fitsU32 xs

theorem FieldType.admits_ofS32List (xs : List S32) :
    FieldType.admits .s32List (Value.ofS32List xs) = true :=
  Value.all_fitsS32 xs

theorem FieldType.admits_ofU32 (x : U32) : FieldType.admits .u32 (Value.ofU32 x) = true :=
  Value.fitsU32_toNat x

theorem FieldType.admits_ofBit (b : Bool) : FieldType.admits .bit (Value.ofBit b) = true := by
  cases b <;> rfl

/-- A value is of a type exactly when it is read at that type. -/
theorem FieldType.admits_u8List (v : Value) : FieldType.admits .u8List v = v.asU8List.isSome := by
  cases v with
  | int _ => rfl
  | list vs => simp only [FieldType.admits, Value.asU8List]; split <;> simp_all

theorem FieldType.admits_u32List (v : Value) : FieldType.admits .u32List v = v.asU32List.isSome := by
  cases v with
  | int _ => rfl
  | list vs => simp only [FieldType.admits, Value.asU32List]; split <;> simp_all

theorem FieldType.admits_s32List (v : Value) : FieldType.admits .s32List v = v.asS32List.isSome := by
  cases v with
  | int _ => rfl
  | list vs => simp only [FieldType.admits, Value.asS32List]; split <;> simp_all

theorem FieldType.admits_u32 (v : Value) : FieldType.admits .u32 v = v.asU32.isSome := by
  cases v with
  | list _ => rfl
  | int v => simp only [FieldType.admits, Value.asU32]; split <;> simp_all

theorem FieldType.admits_bit (v : Value) : FieldType.admits .bit v = v.asBit.isSome := by
  cases v with
  | list _ => rfl
  | int v => simp only [FieldType.admits, Value.asBit]; split <;> simp_all

/-! ## Records -/

theorem Record.lookup_cons (f g : Field) (v : Value) (r : Record) :
    List.lookup f ((g, v) :: r) = if f = g then some v else List.lookup f r := by
  by_cases h : f = g
  · simp [List.lookup, h]
  · have : (f == g) = false := by simpa using h
    simp [List.lookup, h, this]

/-- A name's value does not depend on the order of a record without duplicates. -/
theorem Record.lookup_perm {r r' : Record} (h : r.Perm r') (hn : (r.map Prod.fst).Nodup) (f : Field) :
    r.lookup f = r'.lookup f := by
  induction h with
  | nil => rfl
  | cons x _ ih =>
    rw [Record.lookup_cons, Record.lookup_cons, ih (List.nodup_cons.mp hn).2]
  | swap x y l =>
    obtain ⟨a, v⟩ := x
    obtain ⟨b, w⟩ := y
    have hab : b ≠ a := fun e => (List.nodup_cons.mp hn).1 (by simp [e])
    rw [Record.lookup_cons, Record.lookup_cons, Record.lookup_cons, Record.lookup_cons]
    by_cases h : f = b
    · simp [h, hab]
    · simp [h]
  | trans h1 _ ih1 ih2 => rw [ih1 hn, ih2 ((h1.map _).nodup_iff.mp hn)]

/-- A record gives a name exactly when looking the name up finds a value. -/
theorem Record.contains_fst (r : Record) (f : Field) :
    (r.map Prod.fst).contains f = (r.lookup f).isSome := by
  induction r with
  | nil => rfl
  | cons x r ih =>
    obtain ⟨g, v⟩ := x
    rw [Record.lookup_cons]
    by_cases h : f = g
    · simp [h]
    · simp only [List.map_cons, List.contains_cons, ih, h, if_false]
      simp [h]

theorem Record.mem_iff_lookup {r : Record} (hn : (r.map Prod.fst).Nodup) {f : Field} {v : Value} :
    (f, v) ∈ r ↔ r.lookup f = some v := by
  induction r with
  | nil => simp [List.lookup]
  | cons x r ih =>
    obtain ⟨g, w⟩ := x
    have hn' := List.nodup_cons.mp hn
    rw [Record.lookup_cons, List.mem_cons, ih hn'.2]
    by_cases h : f = g
    · subst h
      have : r.lookup f ≠ some v := fun e => hn'.1 (List.mem_map.mpr ⟨(f, v), (ih hn'.2).mpr e, rfl⟩)
      simp [this, eq_comm]
    · simp [h]

/-- A record without duplicates is of its operation's types when each value looked up is. -/
theorem Record.allTyped_eq {r : Record} (hn : (r.map Prod.fst).Nodup) (op : Opcode) :
    Record.allTyped op r =
      (op.required ++ op.optional).all fun f => (r.lookup f.1).all f.2.admits := by
  rw [Bool.eq_iff_iff]
  simp only [Record.allTyped, List.all_eq_true, Bool.or_eq_true, bne_iff_ne, Option.all_eq_true]
  constructor
  · intro h f hf v hv
    simpa using h (f.1, v) ((Record.mem_iff_lookup hn).mpr hv) f hf
  · intro h x hx f hf
    by_cases e : f.1 = x.1
    · exact .inr (h f hf _ (e ▸ (Record.mem_iff_lookup hn).mp hx))
    · exact .inl e

theorem Record.within_perm {r r' : Record} (h : r.Perm r') (fs : List Field) :
    Record.within fs r = Record.within fs r' := by
  simp only [Record.within, h.all_eq, (h.map Prod.fst).nodup_iff]

/-- Outside its names' set or with a duplicate, a record is read as nothing. -/
theorem decodeRecord_of_duplicate {r : Record} (h : ¬(r.map Prod.fst).Nodup) (op : Opcode) :
    decodeRecord op r = none := by
  have hw : ∀ fs, Record.within fs r = false := fun fs => by simp [Record.within, h]
  cases op <;>
    simp [decodeRecord, Record.windows, Record.layout, Record.onlyU8List, Record.onlyU32,
      Record.dimensions, Record.alignWindows, hw]

/-! ## Words -/

theorem opcodeOf_word (op : Opcode) : opcodeOf op.word = some op := by cases op <;> decide

theorem decode_encode_eq (i : Instr) :
    decode (encode i) = match decodeRecord i.opcode i.record with
      | none => .badRecord
      | some j => .instr j := by
  cases h : decodeRecord i.opcode i.record <;> simp [decode, encode, opcodeOf_word, h]

end Sys2Proof
end

