-- ==== Sys2Proof/Laws/Matcher.lean ====
section
/-! SUPPORT. What the matcher's scan answers, said once. -/

namespace Sys2Proof.Machine

/-- What is true of the first least sum `best` seen over the offsets of `[0, t)`, none of them zero. -/
def BestSoFar (h n : List U8) (t : Nat) : Option (Nat × Nat) → Prop
  | none => t = 0
  | some b => b.1 < t ∧ b.2 = dist h n b.1 ∧ (∀ x < t, dist h n b.1 ≤ dist h n x) ∧
      ∀ x < b.1, dist h n b.1 < dist h n x

/-- What the whole scan says: its first zero, or no zero and the first least sum. -/
def ScanSays (h n : List U8) (m : Nat) : Scan → Prop
  | .exactAt t => t < m ∧ dist h n t = 0 ∧ ∀ x < t, dist h n x ≠ 0
  | .bestOf best => (∀ x < m, dist h n x ≠ 0) ∧ BestSoFar h n m best

theorem scanFrom_says (h n : List U8) (m t : Nat) (best : Option (Nat × Nat))
    (hz : ∀ x < t, dist h n x ≠ 0) (hb : BestSoFar h n t best) :
    ScanSays h n (t + m) (scanFrom h n m t best) := by
  induction m generalizing t best with
  | zero => exact ⟨hz, hb⟩
  | succ m ih =>
    have hstep : ∀ x, x < t + 1 → x < t ∨ x = t := fun x hx => by omega
    rw [show t + (m + 1) = t + 1 + m by omega]
    unfold scanFrom
    by_cases hs : dist h n t = 0
    · simp only [hs, if_true]
      exact ⟨by omega, hs, hz⟩
    · have hz' : ∀ x < t + 1, dist h n x ≠ 0 := fun x hx => by
        rcases hstep x hx with hx | rfl
        · exact hz x hx
        · exact hs
      simp only [hs, if_false]
      cases best with
      | none =>
        have ht : t = 0 := hb
        refine ih _ _ hz' ⟨by omega, rfl, fun x hx => ?_, fun x hx => absurd hx (by simp [ht])⟩
        rw [show x = t by omega]
      | some b =>
        obtain ⟨hlt, heq, hle, hfirst⟩ := hb
        by_cases hc : dist h n t < b.2
        · simp only [if_pos hc]
          have hless : ∀ x < t, dist h n t < dist h n x := fun x hx => by
            have := hle x hx; omega
          refine ih _ _ hz' ⟨by simp, rfl, fun x hx => ?_, fun x hx => hless x hx⟩
          rcases hstep x hx with hx | rfl
          · exact (hless x hx).le
          · exact le_rfl
        · simp only [if_neg hc]
          refine ih _ _ hz' ⟨by omega, heq, fun x hx => ?_, hfirst⟩
          rcases hstep x hx with hx | rfl
          · exact hle x hx
          · omega

/-- The scan of a whole haystack. -/
theorem scan_says (h n : List U8) (m : Nat) : ScanSays h n m (scanFrom h n m 0 none) := by
  simpa using scanFrom_says h n m 0 none (fun x hx => absurd hx (Nat.not_lt_zero x)) rfl

/-- Everything `matchPattern` can answer, by the three ways its scan can end. -/
theorem matchPattern_cases (tol : MatchTol) (h n : List U8) :
    (∃ k, matchPattern tol h n = some ⟨k, .exact⟩ ∧ k < h.length - n.length ∧ dist h n k = 0 ∧
      ∀ x < k, dist h n x ≠ 0) ∨
    (matchPattern tol h n = none ∧ h.length - n.length = 0) ∨
    ∃ k, k < h.length - n.length ∧
      (∀ x < h.length - n.length, dist h n x ≠ 0 ∧ dist h n k ≤ dist h n x) ∧
      (∀ x < k, dist h n k < dist h n x) ∧
      matchPattern tol h n =
        if accept tol (dist h n k) h.length n.length then some ⟨k, .best⟩ else none := by
  have hs := scan_says h n (h.length - n.length)
  unfold matchPattern
  cases hscan : scanFrom h n (h.length - n.length) 0 none with
  | exactAt t =>
    rw [hscan] at hs
    exact .inl ⟨t, rfl, hs⟩
  | bestOf best =>
    rw [hscan] at hs
    cases best with
    | none => exact .inr (.inl ⟨rfl, hs.2⟩)
    | some b =>
      obtain ⟨hz, hlt, heq, hle, hfirst⟩ := hs
      refine .inr (.inr ⟨b.1, hlt, fun x hx => ⟨hz x hx, hle x hx⟩, hfirst, ?_⟩)
      rw [← heq]

/-- A match stands before the last possible offset. -/
theorem matchPattern_lt {tol : MatchTol} {h n : List U8} {r : MatchResult}
    (hr : matchPattern tol h n = some r) : r.offset + n.length < h.length := by
  rcases matchPattern_cases tol h n with ⟨k, hk, hlt, -⟩ | ⟨hk, -⟩ | ⟨k, hlt, -, -, hk⟩
  · rw [hk] at hr; cases hr; dsimp; omega
  · rw [hk] at hr; cases hr
  · rw [hk] at hr
    split at hr <;> cases hr
    dsimp; omega

/-- A haystack no longer than the needle has no match. -/
theorem matchPattern_short {h n : List U8} (tol : MatchTol) (hl : h.length ≤ n.length) :
    matchPattern tol h n = none := by
  cases hr : matchPattern tol h n with
  | none => rfl
  | some r => have := matchPattern_lt hr; omega

/-- The distance to a haystack that holds the needle at the offset is zero. -/
theorem dist_eq_zero {h n : List U8} {t : Nat} (hp : (h.drop t).take n.length = n) : dist h n t = 0 := by
  have key : ∀ (n l : List U8), l.take n.length = n → (List.zipWith absDiff l n).sum = 0 := by
    intro n
    induction n with
    | nil => intro l _; cases l <;> simp
    | cons x xs ih =>
      intro l hl
      cases l with
      | nil => simp
      | cons y ys =>
        simp only [List.length_cons, List.take_succ_cons, List.cons.injEq] at hl
        simp [hl.1, ih ys hl.2, absDiff]
  exact key n (h.drop t) hp

/-- A haystack that starts with the needle and is longer matches at once. -/
theorem matchPattern_prefix {h n : List U8} (tol : MatchTol) (hl : n.length < h.length)
    (hp : h.take n.length = n) : matchPattern tol h n = some ⟨0, .exact⟩ := by
  have h0 : dist h n 0 = 0 := dist_eq_zero (by simpa using hp)
  rcases matchPattern_cases tol h n with ⟨k, hk, -, -, hne⟩ | ⟨-, hz⟩ | ⟨k, -, hall, -⟩
  · cases k with
    | zero => exact hk
    | succ k => exact absurd h0 (hne 0 (by omega))
  · omega
  · exact absurd h0 (hall 0 (by omega)).1

/-- The distance as the sum of R140. -/
theorem dist_eq_sum {h n : List U8} {t : Nat} (ht : t + n.length ≤ h.length) :
    dist h n t = ((List.range n.length).map fun j =>
      (((h[t + j]?.getD 0).toNat : Int) - ((n[j]?.getD 0).toNat : Int)).natAbs).sum := by
  unfold dist
  congr 1
  refine List.ext_getElem? fun j => ?_
  by_cases hj : j < n.length
  · have h1 : t + j < h.length := by omega
    simp [List.getElem?_zipWith, hj, h1, absDiff]
  · have hj' : n.length ≤ j := Nat.le_of_not_lt hj
    simp [hj']

end Sys2Proof.Machine
end

