-- ==== Sys2Proof/Laws/Decoder.lean ====
section
/-! SUPPORT. What DEC.DECODE answers. -/

namespace Sys2Proof.Machine

/-! ## Where frames stand -/

/-- The frames DECODE extracts are the chain of R208. -/
theorem framePositions_chain (tol : MatchTol) (u : FrameRegs) (raw : List U8) (room pos : Nat) :
    FrameChain tol u raw room pos (framePositions tol u raw room pos) := by
  induction room generalizing pos with
  | zero => exact .roomFull pos
  | succ room ih =>
    unfold framePositions
    split
    · exact .doesNotFit room pos ‹_›
    · have hfit : pos + u.fl ≤ raw.length := by omega
      cases hm : matchPattern tol (raw.drop (pos + u.fl)) u.hdrt with
      | none => exact .searchFails room pos hfit hm
      | some r => exact .searchFinds room pos _ r hfit hm (ih _)

theorem framePositions_fit {tol : MatchTol} {u : FrameRegs} {raw : List U8} {room pos : Nat} :
    ∀ p ∈ framePositions tol u raw room pos, p + u.fl ≤ raw.length := by
  induction room generalizing pos with
  | zero => simp [framePositions]
  | succ room ih =>
    unfold framePositions
    split
    · simp
    · intro p hp
      rcases List.mem_cons.mp hp with rfl | hp
      · omega
      · split at hp
        · cases hp
        · exact ih p hp

theorem length_framePositions_le (tol : MatchTol) (u : FrameRegs) (raw : List U8) (room pos : Nat) :
    (framePositions tol u raw room pos).length ≤ room := by
  induction room generalizing pos with
  | zero => simp [framePositions]
  | succ room ih =>
    unfold framePositions
    split
    · simp
    · rw [List.length_cons]
      split
      · simp
      · have := ih (pos + u.fl + ‹MatchResult›.offset); omega

theorem consumedBy_eq (u : FrameRegs) (start : Nat) (frames : List Nat) :
    consumedBy u start frames = frames.getLast?.elim start fun pos => pos + u.fl := by
  unfold consumedBy; cases frames.getLast? <;> rfl

theorem consumedBy_le {u : FrameRegs} {start len : Nat} {frames : List Nat} (hs : start ≤ len)
    (hf : ∀ p ∈ frames, p + u.fl ≤ len) : consumedBy u start frames ≤ len := by
  unfold consumedBy
  cases h : frames.getLast? with
  | none => exact hs
  | some p => exact hf p (List.mem_of_getLast? h)

/-! ## Windows that start at a frame boundary -/

/-- Where every frame boundary of a window carries the header, DECODE's frames stand at the boundaries
(R211): each search starts at a header and finds it at once. -/
theorem framePositions_aligned {tol : MatchTol} {u : FrameRegs} {raw : List U8}
    (hfl : u.hdrt.length < u.fl)
    (hh : ∀ q, q * u.fl + u.hdrt.length < raw.length →
      (raw.drop (q * u.fl)).take u.hdrt.length = u.hdrt)
    (room q : Nat) :
    framePositions tol u raw room (q * u.fl) =
      (List.range (min room (raw.length / u.fl - q))).map fun i => (q + i) * u.fl := by
  have hpos : 0 < u.fl := by omega
  induction room generalizing q with
  | zero => simp [framePositions]
  | succ room ih =>
    have hnext : q * u.fl + u.fl = (q + 1) * u.fl := by rw [Nat.add_mul, Nat.one_mul]
    unfold framePositions
    rw [hnext]
    by_cases hlt : raw.length < (q + 1) * u.fl
    · have : raw.length / u.fl < q + 1 := Nat.div_lt_of_lt_mul (by rwa [Nat.mul_comm])
      rw [if_pos hlt, show min (room + 1) (raw.length / u.fl - q) = 0 by omega]; rfl
    · rw [if_neg hlt]
      have hdiv : q + 1 ≤ raw.length / u.fl := (Nat.le_div_iff_mul_le hpos).mpr (by omega)
      obtain ⟨m, hm⟩ : ∃ m, raw.length / u.fl = q + 1 + m := ⟨raw.length / u.fl - (q + 1), by omega⟩
      by_cases hshort : (raw.drop ((q + 1) * u.fl)).length ≤ u.hdrt.length
      · rw [matchPattern_short tol hshort]
        rw [List.length_drop] at hshort
        have : raw.length / u.fl < q + 2 := Nat.div_lt_of_lt_mul (by
          rw [Nat.mul_comm, show q + 2 = q + 1 + 1 from rfl, Nat.add_mul (q + 1), Nat.one_mul]; omega)
        rw [show min (room + 1) (raw.length / u.fl - q) = 1 by omega]
        simp
      · rw [matchPattern_prefix tol (by omega) (hh (q + 1) (by rw [List.length_drop] at hshort; omega))]
        simp only [Nat.add_zero]
        rw [ih (q + 1), hm, show min (room + 1) (q + 1 + m - q) = min room (q + 1 + m - (q + 1)) + 1 by omega,
          List.range_succ_eq_map, List.map_cons, List.map_map]
        congr 1
        exact List.map_congr_left fun i _ => by
          simp only [Function.comp, Nat.succ_eq_add_one]; congr 1; omega

/-- The match at the start of such a window. -/
theorem matchPattern_aligned {u : FrameRegs} {raw : List U8} (tol : MatchTol)
    (hlt : u.hdrt.length < raw.length) (hh : raw.take u.hdrt.length = u.hdrt) :
    matchPattern tol raw u.hdrt = some ⟨0, .exact⟩ :=
  matchPattern_prefix tol hlt hh

/-! ## What a frame delivers -/

/-- A frame is its header, its counter field and its payload (R43). -/
theorem Configured.fl_eq {u : FrameRegs} {pre lab : List U8} {spb psz : U32} {sc : Bool}
    (hu : Configured u pre lab spb psz sc) :
    u.fl = u.hdrt.length + 16 * u.spb.toNat + u.psz.toNat := by
  rw [hu.flHeld, hu.hdrtLength, hu.spbHeld, hu.pszHeld]
  simp only [wireLength, headerLength, Nat.add_mul, Nat.mul_comm 8]

theorem Configured.n_eq {u : FrameRegs} {pre lab : List U8} {spb psz : U32} {sc : Bool}
    (hu : Configured u pre lab spb psz sc) : u.n = u.hdrt.length := by
  rw [hu.nHeld, hu.hdrtLength]

theorem getElem?_framePayload {α : Type} {u : FrameRegs} (xs : List α) (pos : Nat) {j : Nat}
    (hj : j < u.psz.toNat) :
    (framePayload u xs pos)[j]? = xs[pos + u.hdrt.length + 16 * u.spb.toNat + j]? := by
  rw [framePayload, getElem?_slice (by omega)]; rfl

theorem length_framePayload {α : Type} {u : FrameRegs} {xs : List α} {pos : Nat}
    (hfl : u.fl = u.hdrt.length + 16 * u.spb.toNat + u.psz.toNat) (h : pos + u.fl ≤ xs.length) :
    (framePayload u xs pos).length = u.psz.toNat := by
  rw [framePayload, length_slice_of_le (by rw [payloadStart, Config.cntBits]; omega)]; omega

theorem frameCounter_eq {u : FrameRegs} {raw : List U8} {pos : Nat} (hs : 1 ≤ u.spb.toNat)
    (h : pos + u.hdrt.length + 16 * u.spb.toNat ≤ raw.length) :
    frameCounter u raw pos = counterSum u raw pos := by
  unfold frameCounter counterSum
  rw [bitsToNumber_eq_sum]
  refine congrArg List.sum (List.map_congr_left fun i hi => ?_)
  have hi : i < 16 := List.mem_range.mp hi
  have hlen : (slice raw (pos + u.hdrt.length) (payloadStart u pos)).length = 16 * u.spb.toNat := by
    rw [length_slice_of_le (by rw [payloadStart, Config.cntBits]; omega), payloadStart, Config.cntBits]
    omega
  have hlt : i * u.spb.toNat < 16 * u.spb.toNat := Nat.mul_lt_mul_of_pos_right hi hs
  rw [(decimate_spec _ hs).2 i (by rw [hlen]; exact hlt),
    getElem?_slice (by rw [payloadStart, Config.cntBits]; omega)]

theorem length_syncPacket (p : Nat) : (syncPacket p).length = p := by simp [syncPacket]

theorem getElem?_syncPacket {p j : Nat} (h : j < p) :
    (syncPacket p)[j]? = some (if j = 0 then 1 else 0) := by
  rw [syncPacket, List.getElem?_set]
  by_cases hj : j = 0
  · subst hj; simp [h]
  · rw [if_neg (Ne.symm hj), if_neg hj, getElem?_fill _ h]

/-! ## The windows -/

/-- The delivered part of an overlay is the slots written. -/
theorem take_overlay {α : Type} (slots : List (List α)) (preset : List α) :
    (overlay slots preset).take slots.flatten.length = slots.flatten := by
  simp [overlay]

/-- The frame path delivers exactly its frames' packets. -/
theorem decFramePath_eq {tol : MatchTol} {u : FrameRegs} {pre lab : List U8} {spb psz : U32} {sc : Bool}
    (hu : Configured u pre lab spb psz sc) (raw : List U8) (sci : Option (List U32))
    (hsci : ∀ xs, sci = some xs → xs.length = raw.length) (packets start : Nat) :
    let frames := framePositions tol u raw packets start
    decFramePath tol u raw sci packets start =
      { consumed := consumedBy u start frames
        produced := frames.length * u.psz.toNat
        pay := (frames.map (framePayload u raw)).flatten
        sync := (frames.map fun _ => syncPacket u.psz.toNat).flatten
        cnt := (frames.map fun pos => fill u.psz.toNat (BitVec.ofNat 32 (frameCounter u raw pos))).flatten
        sc := sci.map fun xs => (frames.map (framePayload u xs)).flatten } := by
  intro frames
  have hfit : ∀ p ∈ frames, p + u.fl ≤ raw.length := framePositions_fit
  have h1 := (flatten_map_blocks frames (framePayload u raw) fun p hp =>
    length_framePayload hu.fl_eq (hfit p hp)).1
  have h2 := (flatten_map_blocks frames (fun _ => syncPacket u.psz.toNat) fun _ _ =>
    length_syncPacket _).1
  have h3 := (flatten_map_blocks frames
    (fun pos => fill u.psz.toNat (BitVec.ofNat 32 (frameCounter u raw pos))) (len := u.psz.toNat)
    fun _ _ => length_fill ..).1
  unfold decFramePath
  simp only [DecWindows.deliver, decExtract]
  rw [show framePositions tol u raw packets start = frames from rfl]
  congr 1
  · rw [← h1, take_overlay]
  · rw [← h2, take_overlay]
  · rw [← h3, take_overlay]
  · cases sci with
    | none => rfl
    | some xs =>
      have h4 := (flatten_map_blocks frames (framePayload u xs) fun p hp =>
        length_framePayload hu.fl_eq (by rw [hsci xs rfl]; exact hfit p hp)).1
      simp only [Option.isSome_some, if_true, Option.map_some, Option.getD_some]
      rw [← h4, take_overlay]

/-- The loss-of-sync path, item by item (R207). -/
theorem decLossOfSync_eq (room input : Nat) (side : Bool) :
    decLossOfSync room input side =
      ⟨input, room, List.replicate room 255, List.replicate room 0,
        List.replicate room (BitVec.ofInt 32 (-1)),
        if side then some (List.replicate room 0) else none⟩ := by
  simp [decLossOfSync, DecWindows.deliver, decPreset, fill, Config.invalid, Config.noSyncCnt]

/-- Everything an accepted DECODE can answer (R206). -/
theorem decRun_cases (tol : MatchTol) (u : FrameRegs) (raw : List U8) (sci : Option (List U32))
    (out : U32) :
    ((available raw sci = 0 ∨ out.toNat / u.psz.toNat = 0) ∧
        decRun tol u raw sci out = ⟨0, 0, [], [], [], sci.map fun _ => []⟩) ∨
      (0 < available raw sci ∧ 0 < out.toNat / u.psz.toNat ∧
        matchPattern tol (raw.take (available raw sci)) u.hdrt = none ∧
        decRun tol u raw sci out =
          decLossOfSync (out.toNat / u.psz.toNat * u.psz.toNat) (available raw sci) sci.isSome) ∨
      ∃ r, 0 < available raw sci ∧ 0 < out.toNat / u.psz.toNat ∧
        matchPattern tol (raw.take (available raw sci)) u.hdrt = some r ∧
        decRun tol u raw sci out = decFramePath tol u (raw.take (available raw sci))
          (sci.map fun xs => xs.take (available raw sci)) (out.toNat / u.psz.toNat) r.offset := by
  unfold decRun
  by_cases h : available raw sci = 0 ∨ out.toNat / u.psz.toNat = 0
  · refine .inl ⟨h, ?_⟩
    rw [if_pos h]
    cases sci <;> simp [DecWindows.deliver]
  · push Not at h
    rw [if_neg (by push Not; exact h)]
    have h1 : 0 < available raw sci := Nat.pos_of_ne_zero h.1
    have h2 : 0 < out.toNat / u.psz.toNat := Nat.pos_of_ne_zero h.2
    cases hm : matchPattern tol (raw.take (available raw sci)) u.hdrt with
    | none => exact .inr (.inl ⟨h1, h2, rfl, rfl⟩)
    | some r => exact .inr (.inr ⟨r, h1, h2, rfl, rfl⟩)

/-- The two windows DECODE reads are equally long. -/
theorem length_take_available {raw : List U8} {sci : Option (List U32)} :
    (raw.take (available raw sci)).length = available raw sci ∧
      ∀ xs, (sci.map fun xs => xs.take (available raw sci)) = some xs →
        xs.length = (raw.take (available raw sci)).length := by
  have h1 : (raw.take (available raw sci)).length = available raw sci := by
    simpa using available_le_main raw sci
  refine ⟨h1, fun xs hx => ?_⟩
  obtain ⟨ys, rfl, rfl⟩ := Option.map_eq_some_iff.mp hx
  rw [h1, List.length_take]
  have := available_le_side raw ys
  omega

/-- Everything dec.decode does. -/
theorem execDecDecode_cases (raw : List U8) (sci : Option (List U32)) (out : U32) (s : State) :
    (¬(s.dec.cfgd = true ∧ s.dec.sc = sci.isSome) ∧
        execDecDecode raw sci out s = .next (s.answered rejection)) ∨
      (s.dec.cfgd = true ∧ s.dec.sc = sci.isSome ∧
        execDecDecode raw sci out s =
          .next (s.answered ⟨.ok, .dec (decRun s.params.matchTol s.dec raw sci out)⟩)) := by
  unfold execDecDecode
  by_cases h : s.dec.cfgd = true ∧ s.dec.sc = sci.isSome
  · rw [if_pos (by rw [Bool.and_eq_true, sideChannelFits_iff]; exact h)]
    exact .inr ⟨h.1, h.2, rfl⟩
  · rw [if_neg (by rw [Bool.and_eq_true, sideChannelFits_iff]; exact h)]
    exact .inl ⟨h, rfl⟩

end Sys2Proof.Machine
end

