-- ==== Sys2Proof/Laws/Exec.lean ====
section
/-! SUPPORT. Everything a command can do to the state, said once. -/

namespace Sys2Proof.Machine

/-- What an accepted command may change: its own unit's registers (and, of ALN, the free-value counter),
and it answers one OK record. -/
def Accepted (u : UnitId) (s t : State) : Prop :=
  ∃ enc dec aln draws d,
    t = { s with enc := enc, dec := dec, aln := aln, draws := draws }.answered ⟨.ok, d⟩ ∧
      (u ≠ .enc → enc = s.enc) ∧ (u ≠ .dec → dec = s.dec) ∧
      (u ≠ .aln → aln = s.aln ∧ draws = s.draws)

theorem accepted_enc (s : State) (e : Enc) (d : Delivery) :
    Accepted .enc s ({ s with enc := e }.answered ⟨.ok, d⟩) :=
  ⟨e, s.dec, s.aln, s.draws, d, rfl, fun h => absurd rfl h, fun _ => rfl, fun _ => ⟨rfl, rfl⟩⟩

theorem accepted_dec (s : State) (u : FrameRegs) (d : Delivery) :
    Accepted .dec s ({ s with dec := u }.answered ⟨.ok, d⟩) :=
  ⟨s.enc, u, s.aln, s.draws, d, rfl, fun _ => rfl, fun h => absurd rfl h, fun _ => ⟨rfl, rfl⟩⟩

theorem accepted_aln (s : State) (a : Aln) (draws : Nat) (d : Delivery) :
    Accepted .aln s ({ s with aln := a, draws := draws }.answered ⟨.ok, d⟩) :=
  ⟨s.enc, s.dec, a, draws, d, rfl, fun _ => rfl, fun _ => rfl, fun h => absurd rfl h⟩

/-- A reconfiguration of ENC answers a rejection or loads the registers. -/
theorem State.configureEnc_cases (s : State) (o : Option FrameRegs) :
    (o = none ∧ s.configureEnc o = .next (s.answered rejection)) ∨
      ∃ u, o = some u ∧ s.configureEnc o = .next ({ s with enc := ⟨u, s.enc.cnt⟩ }.answered acceptance) := by
  cases o with
  | none => exact .inl ⟨rfl, rfl⟩
  | some u => exact .inr ⟨u, rfl, rfl⟩

theorem State.configureDec_cases (s : State) (o : Option FrameRegs) :
    (o = none ∧ s.configureDec o = .next (s.answered rejection)) ∨
      ∃ u, o = some u ∧ s.configureDec o = .next ({ s with dec := u }.answered acceptance) := by
  cases o with
  | none => exact .inl ⟨rfl, rfl⟩
  | some u => exact .inr ⟨u, rfl, rfl⟩

theorem execEncReset_cases (pre lab : List U8) (spb psz : U32) (sc : Bool) (s : State) :
    (¬LayoutOk s.params pre lab spb psz ∧
        execEncReset pre lab spb psz sc s = .next (s.answered rejection)) ∨
      (LayoutOk s.params pre lab spb psz ∧ ∃ u, Configured u pre lab spb psz sc ∧
        execEncReset pre lab spb psz sc s = .next ({ s with enc := ⟨u, 0⟩ }.answered acceptance)) := by
  by_cases h : LayoutOk s.params pre lab spb psz
  · obtain ⟨u, hu, hc⟩ := FrameRegs.afterReset_some sc h
    exact .inr ⟨h, u, hc, by rw [execEncReset, hu]; rfl⟩
  · exact .inl ⟨h, by rw [execEncReset, FrameRegs.afterReset_none sc h]; rfl⟩

theorem execDecReset_cases (pre lab : List U8) (spb psz : U32) (sc : Bool) (s : State) :
    (¬LayoutOk s.params pre lab spb psz ∧
        execDecReset pre lab spb psz sc s = .next (s.answered rejection)) ∨
      (LayoutOk s.params pre lab spb psz ∧ ∃ u, Configured u pre lab spb psz sc ∧
        execDecReset pre lab spb psz sc s = .next ({ s with dec := u }.answered acceptance)) := by
  by_cases h : LayoutOk s.params pre lab spb psz
  · obtain ⟨u, hu, hc⟩ := FrameRegs.afterReset_some sc h
    exact .inr ⟨h, u, hc, by rw [execDecReset, hu]; rfl⟩
  · exact .inl ⟨h, by rw [execDecReset, FrameRegs.afterReset_none sc h]; rfl⟩

/-- Everything aln.reset does (R230). -/
theorem execAlnReset_cases (p k : U32) (s : State) :
    (¬DimensionsOk s.params p k ∧ execAlnReset p k s = .next (s.answered rejection)) ∨
      (DimensionsOk s.params p k ∧ execAlnReset p k s = .next (s.aligned
        { s.aln.clearAlignment with cfgd := true, p := p, k := k } acceptance)) := by
  unfold execAlnReset
  by_cases h : DimensionsOk s.params p k
  · rw [if_pos ((validDimensions_iff ..).mpr h)]
    exact .inr ⟨h, rfl⟩
  · rw [if_neg (mt (validDimensions_iff ..).mp h)]
    exact .inl ⟨h, rfl⟩

/-- Whatever the branch, an ALIGN with a full window delivers and touches only ALN. -/
theorem alignBranch_accepted (x : AlnWindows) (s : State) :
    ∃ t, alignBranch x s = .next t ∧ Accepted .aln s t := by
  rcases alignBranch_cases x s with ⟨-, h⟩ | ⟨-, -, h⟩ | ⟨-, -, -, h⟩ | ⟨-, -, -, h⟩ | ⟨-, -, -, -, h⟩
  · exact ⟨_, h.trans (alignMis_eq ..), accepted_aln ..⟩
  · exact ⟨_, h.trans (alignOff_eq ..), accepted_aln ..⟩
  · exact ⟨_, h.trans (alignOvf_eq ..), accepted_aln ..⟩
  · exact ⟨_, h.trans (alignSync_eq ..), accepted_aln ..⟩
  · rw [h]
    unfold alignSkew
    simp only
    split
    · exact ⟨_, rfl, accepted_aln ..⟩
    · exact ⟨_, rfl, accepted_aln ..⟩

/-- Every command is rejected, changing nothing, or accepted, changing only its own unit. -/
theorem exec_cases (i : Instr) (s : State) :
    exec i s = .next (s.answered rejection) ∨ ∃ t, exec i s = .next t ∧ Accepted i.opcode.unit s t := by
  have henc : ∀ o, s.configureEnc o = .next (s.answered rejection) ∨
      ∃ t, s.configureEnc o = .next t ∧ Accepted .enc s t := fun o => by
    rcases s.configureEnc_cases o with ⟨-, h⟩ | ⟨u, -, h⟩
    exacts [.inl h, .inr ⟨_, h, accepted_enc ..⟩]
  have hdec : ∀ o, s.configureDec o = .next (s.answered rejection) ∨
      ∃ t, s.configureDec o = .next t ∧ Accepted .dec s t := fun o => by
    rcases s.configureDec_cases o with ⟨-, h⟩ | ⟨u, -, h⟩
    exacts [.inl h, .inr ⟨_, h, accepted_dec ..⟩]
  cases i with
  | encReset pre lab spb psz sc =>
    rcases execEncReset_cases pre lab spb psz sc s with ⟨-, h⟩ | ⟨-, u, -, h⟩
    exacts [.inl h, .inr ⟨_, h, accepted_enc ..⟩]
  | encSetpre pre => exact henc _
  | encSetlab lab => exact henc _
  | encSetspb spb => exact henc _
  | encSetpsz psz => exact henc _
  | encEncode pay sci out =>
    rcases execEncEncode_cases pay sci out s with ⟨-, h⟩ | ⟨-, -, h⟩
    exacts [.inl h, .inr ⟨_, h, accepted_enc ..⟩]
  | decReset pre lab spb psz sc => exact hdec _
  | decSetpre pre => exact hdec _
  | decSetlab lab => exact hdec _
  | decSetspb spb => exact hdec _
  | decSetpsz psz => exact hdec _
  | decDecode raw sci out =>
    rcases execDecDecode_cases raw sci out s with ⟨-, h⟩ | ⟨-, -, h⟩
    exacts [.inl h, .inr ⟨_, h, accepted_dec s s.dec _⟩]
  | alnReset p k =>
    rcases execAlnReset_cases p k s with ⟨-, h⟩ | ⟨-, h⟩
    exacts [.inl h, .inr ⟨_, h, accepted_aln s _ s.draws _⟩]
  | alnAlign d1 s1 c1 d2 s2 c2 out =>
    have hx := execAlnAlign_eq ⟨d1, s1, c1, d2, s2, c2⟩ out s
    by_cases hf : FullWindow s ⟨d1, s1, c1, d2, s2, c2⟩ out
    · obtain ⟨t, ht, ha⟩ := alignBranch_accepted ⟨d1, s1, c1, d2, s2, c2⟩ s
      exact .inr ⟨t, (hx.1 hf).trans ht, ha⟩
    · exact .inl (hx.2 hf)

/-- A step performs the oldest command, or does nothing. -/
theorem step_cases (s : State) :
    (s.pending = [] ∧ step s = .next s) ∨
      ∃ c rest, s.pending = c :: rest ∧
        ((∃ i, decode c = .instr i ∧ step s = exec i { s with pending := rest }) ∨
          (decode c = .illegalWord ∧
            step s = .next ({ s with pending := rest }.answered ⟨.illegal, .nothing⟩)) ∨
          (decode c = .badRecord ∧
            step s = .next ({ s with pending := rest }.answered rejection))) := by
  cases hp : s.pending with
  | nil => exact .inl ⟨rfl, by rw [step, State.fetch_nil hp]; rfl⟩
  | cons c rest =>
    refine .inr ⟨c, rest, rfl, ?_⟩
    cases hd : decode c with
    | instr i => exact .inl ⟨i, rfl, by rw [step, State.fetch_cons hp]; simp only [hd]⟩
    | illegalWord => exact .inr (.inl ⟨rfl, by rw [step, State.fetch_cons hp]; simp only [hd]; rfl⟩)
    | badRecord => exact .inr (.inr ⟨rfl, by rw [step, State.fetch_cons hp]; simp only [hd]; rfl⟩)

/-! ## ALIGN on a state that meets the invariant -/

/-- The skew branch, by its two paths (R239). -/
theorem alignSkew_cases {c : Params} {s : State} (h : s.aln.Inv c) (x : AlnWindows)
    (hx : x.Holds s.aln.w) {delay : Int} (hd : delay.natAbs ≤ 5) :
    let p := s.aln.p.toNat
    let k := s.aln.k.toNat
    let kept := keptPackets s.aln delay
    (kept.length = delay.natAbs ∧
      let line := kept ++ packets p k (x.lead delay)
      let leadOut := (line.take k).flatten
      let lagOut := (x.lag delay).take s.aln.w
      ∃ bank' : Bank, bank'.Inv ∧ bank'.contents = line.drop k ∧ bank'.occ = delay.natAbs ∧
        PacketsOf p bank' ∧ leadOut.length = s.aln.w ∧
        alignSkew x delay s = .next (s.aligned
          { s.aln with bank := bank', f := true, bdelay := wrapS32 delay }
          (alignRecord s.aln.w (if 0 < delay then leadOut else lagOut)
            (if 0 < delay then lagOut else leadOut)
            (List.replicate s.aln.w (BitVec.ofInt 32 delay))))) ∨
    (kept.length < delay.natAbs ∧
      let n := min (delay.natAbs - kept.length) k
      ∃ bank' : Bank, bank'.Inv ∧ bank'.contents = kept ++ packets p n (x.lead delay) ∧
        bank'.occ = kept.length + n ∧ PacketsOf p bank' ∧ 1 ≤ n ∧ n * p ≤ s.aln.w ∧
        alignSkew x delay s = .next (s.aligned
          { s.aln with
            bank := bank', f := delayLineFlag (kept.length + n) delay.natAbs, bdelay := wrapS32 delay }
          (alignRecord (n * p) (List.replicate (n * p) 255) (List.replicate (n * p) 255)
            (List.replicate (n * p) (BitVec.ofInt 32 delay))))) := by
  intro p k kept
  obtain ⟨b1, b2, b3, b4, b5⟩ := skewBank_spec h (delay := delay)
  have hlead : s.aln.w ≤ (x.lead delay).length := by
    unfold AlnWindows.lead; split
    · exact hx.1
    · exact hx.2.2.2.1
  have hk : 1 ≤ s.aln.k.toNat := h.dimensions.2.1
  by_cases hocc : (skewBank s.aln delay).occ = delay.natAbs
  · refine .inl ⟨b3.symm.trans hocc, ?_⟩
    have hs := alignSteady_spec (x.lag delay) b1 b4 hocc hd hlead
    simp only [b2] at hs
    obtain ⟨bank', q1, q2, q3, q4, q5, q6⟩ := hs
    refine ⟨bank', q1, q2, q3, q4, q5, ?_⟩
    rw [← q6]
    unfold alignSkew
    simp only
    rw [if_pos hocc]; rfl
  · have hlt : (skewBank s.aln delay).occ < delay.natAbs := by omega
    refine .inr ⟨by rw [← b3]; exact hlt, ?_⟩
    have hs := alignFill_spec b1 b4 hlt hd hlead hk
    simp only [b2, b3] at hs
    obtain ⟨bank', q1, q2, q3, q4, q5, q6, q7⟩ := hs
    refine ⟨bank', q1, q2, q3, q4, q5, q6, ?_⟩
    rw [← q7]
    unfold alignSkew
    simp only
    rw [if_neg hocc]; rfl

end Sys2Proof.Machine
end

