-- ==== Sys2Proof/Laws/Link.lean ====
section
/-! SUPPORT. How a frame of R95 reads at the decoder, field by field; and how an ALIGN's window reads. -/

namespace Sys2Proof.Machine

section Wire
variable {u : FrameRegs} {pre lab : List U8} {spb psz : U32} {sc : Bool}

/-- A frame starts with the header template (R96). -/
theorem wireItem_header (hu : Configured u pre lab spb psz sc) (hs : 1 ≤ spb.toNat) (c : Nat)
    (chunk : List U8) {o : Nat} (ho : o < u.hdrt.length) :
    wireItem pre lab spb c chunk o = u.hdrt[o]? := by
  have ho' : o < headerLength pre lab spb := by rw [← hu.hdrtLength]; exact ho
  have hdiv : o / spb.toNat < pre.length + 8 * lab.length :=
    Nat.div_lt_of_lt_mul (by rw [Nat.mul_comm]; exact ho')
  have h := hu.hdrtItem (o / spb.toNat) hdiv (o % spb.toNat) (Nat.mod_lt _ hs)
  rw [Nat.div_add_mod'] at h
  rw [wireItem, if_pos ho', h]

/-- The first item of a counter bit. -/
theorem wireItem_counter (hu : Configured u pre lab spb psz sc) (hs : 1 ≤ spb.toNat) (c : Nat)
    (chunk : List U8) {i : Nat} (hi : i < 16) :
    wireItem pre lab spb c chunk (u.hdrt.length + i * spb.toNat) =
      some (BitVec.ofNat 8 (c / 2 ^ i % 2)) := by
  have hm : i * spb.toNat < 16 * spb.toNat := Nat.mul_lt_mul_of_pos_right hi hs
  rw [hu.hdrtLength, wireItem, if_neg (by omega), if_pos (by omega), Nat.add_sub_cancel_left,
    Nat.mul_div_cancel _ hs]

/-- A payload item. -/
theorem wireItem_payload (hu : Configured u pre lab spb psz sc) (c : Nat) (chunk : List U8) (j : Nat) :
    wireItem pre lab spb c chunk (u.hdrt.length + 16 * spb.toNat + j) = chunk[j]? := by
  rw [hu.hdrtLength, wireItem, if_neg (by omega), if_neg (by omega)]
  congr 1; omega

/-- The counter DEC reads from a frame of R95 is the one it carries. -/
theorem counterSum_of_wire (hu : Configured u pre lab spb psz sc) (hs : 1 ≤ spb.toNat) {raw : List U8}
    {pos c : Nat} {chunk : List U8}
    (h : ∀ o < u.fl, raw[pos + o]? = wireItem pre lab spb c chunk o) :
    counterSum u raw pos = c % 65536 := by
  unfold counterSum
  rw [show (65536 : Nat) = 2 ^ 16 from rfl, ← sum_bits]
  refine congrArg List.sum (List.map_congr_left fun i hi => ?_)
  have hi : i < 16 := List.mem_range.mp hi
  have hm : i * spb.toNat < 16 * spb.toNat := Nat.mul_lt_mul_of_pos_right hi hs
  have hf := hu.fl_eq
  rw [hu.spbHeld] at hf ⊢
  rw [Nat.add_assoc, h _ (by omega), wireItem_counter hu hs _ _ hi]
  have : c / 2 ^ i % 2 < 256 := by omega
  simp [Nat.mod_eq_of_lt this]

/-- The payload DEC copies from a frame of R95. -/
theorem framePayload_of_wire (hu : Configured u pre lab spb psz sc) {raw : List U8} {pos c : Nat}
    {chunk : List U8} (h : ∀ o < u.fl, raw[pos + o]? = wireItem pre lab spb c chunk o)
    (hl : pos + u.fl ≤ raw.length) (hc : chunk.length = psz.toNat) : framePayload u raw pos = chunk := by
  refine List.ext_getElem? fun j => ?_
  have hf := hu.fl_eq
  by_cases hj : j < psz.toNat
  · rw [getElem?_framePayload _ _ (by rw [hu.pszHeld]; exact hj)]
    rw [hu.spbHeld, hu.pszHeld] at *
    rw [Nat.add_assoc, Nat.add_assoc, h _ (by omega), ← Nat.add_assoc, wireItem_payload hu]
  · rw [List.getElem?_eq_none (by rw [length_framePayload hf hl, hu.pszHeld]; omega),
      List.getElem?_eq_none (by omega)]

/-- The side payload DEC copies from a side-channel frame of R97. -/
theorem framePayload_of_side (hu : Configured u pre lab spb psz sc) {xs : List U32} {pos : Nat}
    {chunk : List U32} (h : ∀ o < u.fl, xs[pos + o]? = sideItem pre lab spb chunk o)
    (hl : pos + u.fl ≤ xs.length) (hc : chunk.length = psz.toNat) : framePayload u xs pos = chunk := by
  refine List.ext_getElem? fun j => ?_
  have hf := hu.fl_eq
  by_cases hj : j < psz.toNat
  · rw [getElem?_framePayload _ _ (by rw [hu.pszHeld]; exact hj)]
    rw [hu.spbHeld, hu.pszHeld] at *
    rw [Nat.add_assoc, Nat.add_assoc, h _ (by omega), hu.hdrtLength, sideItem, if_neg (by omega)]
    congr 1; omega
  · rw [List.getElem?_eq_none (by rw [length_framePayload hf hl, hu.pszHeld]; omega),
      List.getElem?_eq_none (by omega)]

/-- `wireFrame` is the frame item by item. -/
theorem wireFrame_spec (hu : Configured u pre lab spb psz sc) (hs : 1 ≤ spb.toNat) (x : U16 × List U8)
    (hx : x.2.length = psz.toNat) :
    (wireFrame u x).length = u.fl ∧
      ∀ o < u.fl, (wireFrame u x)[o]? = wireItem pre lab spb x.1.toNat x.2 o := by
  have h := encFrame_spec hu hs x.1 hx
  have h2 := filterMap_range (wireItem u.pre u.lab u.spb x.1.toNat x.2) u.fl fun o ho => by
    rw [hu.preHeld, hu.labHeld, hu.spbHeld, ← h.2 o ho, List.getElem?_eq_getElem (by omega)]; rfl
  refine ⟨h2.1, fun o ho => ?_⟩
  rw [wireFrame, h2.2 o ho, hu.preHeld, hu.labHeld, hu.spbHeld]

end Wire

/-! ## ALIGN's window -/

/-- A configured ALN has a window of at least one packet of at least one item. -/
theorem State.Inv.window {s : State} (h : s.Inv) (hc : s.aln.cfgd = true) :
    1 ≤ s.aln.p.toNat ∧ s.aln.p.toNat ≤ s.aln.w ∧ 1 ≤ s.aln.k.toNat := by
  obtain ⟨⟨h1, -⟩, h2, -⟩ := (h.alnInv hc).dimensions
  exact ⟨h1, Nat.le_mul_of_pos_left _ h2, h2⟩

/-- The sync indices of a window whose first pulses are known. -/
theorem syncIndex_of_pulseAt {p i : Nat} {xs : List U8} (h : p ≤ xs.length) (hi : PulseAt p xs i) :
    syncIndex p xs = i :=
  (pulseAt_syncIndex h).unique hi

theorem delayOf_of_pulsesAtZero {s : State} {x : AlnWindows} {delay : Int}
    (h : PulsesAtZero s x delay) : delayOf x = delay := by
  obtain ⟨-, -, v1, v2, e1, e2, rfl⟩ := h
  rw [delayOf, counterAtZero_eq e1, counterAtZero_eq e2]

end Sys2Proof.Machine
end

