-- ==== Sys2Proof/Laws/PerInstr.lean ====
section
/-! SUPPORT. Per instruction: the record an instruction is written as fits its operation's shape (R94). -/

namespace Sys2Proof.Laws.RecordFits

/-- The instruction's record has its operation's operands, none twice, each of its type. -/
def Statement (i : Instr) : Prop := Record.wellFormed i.opcode i.record = true

theorem encReset (pre : List U8) (lab : List U8) (spb : U32) (psz : U32) (sc : Bool) :
    Statement (.encReset pre lab spb psz sc) := by
  simp [Statement, Instr.opcode, Instr.record, Record.wellFormed, Record.noDuplicate,
    Record.allPresent, Record.noExtra, Record.allTyped, Opcode.required, Opcode.optional,
    FieldType.admits_ofBit, FieldType.admits_ofU32, FieldType.admits_ofU8List]

theorem encSetpre (pre : List U8) :
    Statement (.encSetpre pre) := by
  simp [Statement, Instr.opcode, Instr.record, Record.wellFormed, Record.noDuplicate,
    Record.allPresent, Record.noExtra, Record.allTyped, Opcode.required, Opcode.optional,
    FieldType.admits_ofU8List]

theorem encSetlab (lab : List U8) :
    Statement (.encSetlab lab) := by
  simp [Statement, Instr.opcode, Instr.record, Record.wellFormed, Record.noDuplicate,
    Record.allPresent, Record.noExtra, Record.allTyped, Opcode.required, Opcode.optional,
    FieldType.admits_ofU8List]

theorem encSetspb (spb : U32) :
    Statement (.encSetspb spb) := by
  simp [Statement, Instr.opcode, Instr.record, Record.wellFormed, Record.noDuplicate,
    Record.allPresent, Record.noExtra, Record.allTyped, Opcode.required, Opcode.optional,
    FieldType.admits_ofU32]

theorem encSetpsz (psz : U32) :
    Statement (.encSetpsz psz) := by
  simp [Statement, Instr.opcode, Instr.record, Record.wellFormed, Record.noDuplicate,
    Record.allPresent, Record.noExtra, Record.allTyped, Opcode.required, Opcode.optional,
    FieldType.admits_ofU32]

theorem encEncode (pay : List U8) (sci : Option (List U32)) (out : U32) :
    Statement (.encEncode pay sci out) := by
  cases sci <;> simp [Statement, Instr.opcode, Instr.record, Record.wellFormed, Record.noDuplicate,
    Record.allPresent, Record.noExtra, Record.allTyped, Opcode.required, Opcode.optional,
    Record.ofSideChannel, FieldType.admits_ofU32, FieldType.admits_ofU32List, FieldType.admits_ofU8List]

theorem decReset (pre : List U8) (lab : List U8) (spb : U32) (psz : U32) (sc : Bool) :
    Statement (.decReset pre lab spb psz sc) := by
  simp [Statement, Instr.opcode, Instr.record, Record.wellFormed, Record.noDuplicate,
    Record.allPresent, Record.noExtra, Record.allTyped, Opcode.required, Opcode.optional,
    FieldType.admits_ofBit, FieldType.admits_ofU32, FieldType.admits_ofU8List]

theorem decSetpre (pre : List U8) :
    Statement (.decSetpre pre) := by
  simp [Statement, Instr.opcode, Instr.record, Record.wellFormed, Record.noDuplicate,
    Record.allPresent, Record.noExtra, Record.allTyped, Opcode.required, Opcode.optional,
    FieldType.admits_ofU8List]

theorem decSetlab (lab : List U8) :
    Statement (.decSetlab lab) := by
  simp [Statement, Instr.opcode, Instr.record, Record.wellFormed, Record.noDuplicate,
    Record.allPresent, Record.noExtra, Record.allTyped, Opcode.required, Opcode.optional,
    FieldType.admits_ofU8List]

theorem decSetspb (spb : U32) :
    Statement (.decSetspb spb) := by
  simp [Statement, Instr.opcode, Instr.record, Record.wellFormed, Record.noDuplicate,
    Record.allPresent, Record.noExtra, Record.allTyped, Opcode.required, Opcode.optional,
    FieldType.admits_ofU32]

theorem decSetpsz (psz : U32) :
    Statement (.decSetpsz psz) := by
  simp [Statement, Instr.opcode, Instr.record, Record.wellFormed, Record.noDuplicate,
    Record.allPresent, Record.noExtra, Record.allTyped, Opcode.required, Opcode.optional,
    FieldType.admits_ofU32]

theorem decDecode (raw : List U8) (sci : Option (List U32)) (out : U32) :
    Statement (.decDecode raw sci out) := by
  cases sci <;> simp [Statement, Instr.opcode, Instr.record, Record.wellFormed, Record.noDuplicate,
    Record.allPresent, Record.noExtra, Record.allTyped, Opcode.required, Opcode.optional,
    Record.ofSideChannel, FieldType.admits_ofU32, FieldType.admits_ofU32List, FieldType.admits_ofU8List]

theorem alnReset (p : U32) (k : U32) :
    Statement (.alnReset p k) := by
  simp [Statement, Instr.opcode, Instr.record, Record.wellFormed, Record.noDuplicate,
    Record.allPresent, Record.noExtra, Record.allTyped, Opcode.required, Opcode.optional,
    FieldType.admits_ofU32]

theorem alnAlign (d1 s1 : List U8) (c1 : List S32) (d2 s2 : List U8) (c2 : List S32) (out : U32) :
    Statement (.alnAlign d1 s1 c1 d2 s2 c2 out) := by
  simp [Statement, Instr.opcode, Instr.record, Record.wellFormed, Record.noDuplicate,
    Record.allPresent, Record.noExtra, Record.allTyped, Opcode.required, Opcode.optional,
    FieldType.admits_ofS32List, FieldType.admits_ofU32, FieldType.admits_ofU8List]

end Sys2Proof.Laws.RecordFits
end

