-- ==== Sys2Proof/Tests/Slice0.lean ====
section
/-! SUPPORT. The model's own tests: expected values are those of spec/95_test_vectors.md (the vector's id
stands in the comment) or worked out by hand from the rule named; and, for every obligation with
hypotheses, a concrete case that meets them. -/

namespace Sys2Proof.Tests

open Sys2Proof.Machine

/-! ## Small states -/

/-- The next state of an outcome that is one. -/
def nextOf : StepOutcome → Option State
  | .next t => some t
  | .fault _ => none
  | .refused _ => none

/-- The record a command answers. -/
def answerOf (i : Instr) (s : State) : Option Result := (nextOf (exec i s)).bind State.lastResult

/-- The state a command leaves. -/
def stateOf (i : Instr) (s : State) : State := (nextOf (exec i s)).getD s

/-- The layout `pre=[1,0], lab=[], spb=1, psz=2`: N = 2, FL = 20 (ENC-22). -/
def small (sc : Bool) : FrameRegs := FrameRegs.configured [1, 0] [] 1 2 sc

/-- The same with `spb=2`: N = 4, FL = 38 (ENC-19). -/
def doubled : FrameRegs := FrameRegs.configured [1, 0] [] 2 2 false

/-- ENC and DEC configured with the small layout. -/
def link (sc : Bool) (cnt : U16) : State :=
  { State.reset with enc := ⟨small sc, cnt⟩, dec := small sc }

/-- ALN with P = 2 and K = 3, its bank holding `held` packets collected for `delay`. -/
def aligner (held : List (List U8)) (delay : Int) : State :=
  { State.reset with
    aln := ⟨true, 2, 3, Bank.powerOn.pushAll held, decide (0 < held.length ∧ held.length = delay.natAbs),
      wrapS32 delay⟩ }

/-- Windows with the same sync and counter items throughout. -/
def windows (d1 s1 : List U8) (c1 : Int) (d2 s2 : List U8) (c2 : Int) : AlnWindows :=
  ⟨d1, s1, List.replicate 6 (wrapS32 c1), d2, s2, List.replicate 6 (wrapS32 c2)⟩

/-- Pulses at 0 and data `1..6` and `20..25`. -/
def pulses (c1 c2 : Int) : AlnWindows :=
  windows [1, 2, 3, 4, 5, 6] [1, 0, 1, 0, 1, 0] c1 [20, 21, 22, 23, 24, 25] [1, 0, 1, 0, 1, 0] c2

/-- The small layout's frame (R95). -/
def smallFrame (cntBits : List U8) (a b : U8) : List U8 := [1, 0] ++ cntBits ++ [a, b]

/-- The counter fields of 0 and 1. -/
def bits0 : List U8 := List.replicate 16 0
def bits1 : List U8 := 1 :: List.replicate 15 0

/-! ## Record shapes: one ill-formed record for each check -/

theorem test_record_fits : Record.wellFormed .alnReset [(.k, .int 3), (.p, .int 2)] = true := by decide

theorem test_record_duplicate :
    Record.noDuplicate [(.p, .int 1), (.k, .int 1), (.p, .int 1)] = false ∧
      decode ⟨0x3000, [(.p, .int 1), (.k, .int 1), (.p, .int 1)]⟩ = .badRecord := by decide

theorem test_record_missing :
    Record.allPresent .alnReset [(.p, .int 1)] = false ∧
      decode ⟨0x3000, [(.p, .int 1)]⟩ = .badRecord := by decide

theorem test_record_extra :
    Record.noExtra .encSetspb [(.spb, .int 1), (.psz, .int 1)] = false ∧
      decode ⟨0x1300, [(.spb, .int 1), (.psz, .int 1)]⟩ = .badRecord := by decide

theorem test_record_wrong_kind :
    Record.allTyped .encSetpre [(.pre, .int 1)] = false ∧
      decode ⟨0x1100, [(.pre, .int 1)]⟩ = .badRecord := by decide

theorem test_record_optional_only_for_runs :
    decode ⟨0x3800, [(.sci, .list [])]⟩ = .badRecord ∧
      Record.wellFormed .encEncode [(.pay, .list []), (.out, .int 0)] = true := by decide

theorem test_type_u8 :
    FieldType.admits .u8List (.list [0, 255]) = true ∧ FieldType.admits .u8List (.list [256]) = false ∧
      FieldType.admits .u8List (.list [-1]) = false := by decide

theorem test_type_u32 :
    FieldType.admits .u32 (.int 4294967295) = true ∧ FieldType.admits .u32 (.int 4294967296) = false ∧
      FieldType.admits .u32 (.int (-1)) = false ∧
      FieldType.admits .u32List (.list [4294967296]) = false := by decide

theorem test_type_s32 :
    FieldType.admits .s32List (.list [-2147483648, 2147483647]) = true ∧
      FieldType.admits .s32List (.list [2147483648]) = false ∧
      FieldType.admits .s32List (.list [-2147483649]) = false := by decide

theorem test_type_bit :
    FieldType.admits .bit (.int 1) = true ∧ FieldType.admits .bit (.int 2) = false := by decide

/-! ## Decoding: a word of each row, written out as UNIT, OP, Z (R90 to R92) -/

/-- `UNIT`, `OP` and `Z` side by side. -/
def wordOf (unit op : BitVec 4) (z : BitVec 8) : U16 := unit ++ op ++ z

theorem test_words_enc :
    decode ⟨wordOf 1 0 0, [(.pre, .list [1]), (.lab, .list [65]), (.spb, .int 1), (.psz, .int 8),
        (.sc, .int 1)]⟩ = .instr (.encReset [1] [65] 1 8 true) ∧
      decode ⟨wordOf 1 1 0, [(.pre, .list [0])]⟩ = .instr (.encSetpre [0]) ∧
      decode ⟨wordOf 1 2 0, [(.lab, .list [66])]⟩ = .instr (.encSetlab [66]) ∧
      decode ⟨wordOf 1 3 0, [(.spb, .int 7)]⟩ = .instr (.encSetspb 7) ∧
      decode ⟨wordOf 1 4 0, [(.psz, .int 9)]⟩ = .instr (.encSetpsz 9) ∧
      decode ⟨wordOf 1 8 0, [(.out, .int 40), (.pay, .list [1])]⟩ =
        .instr (.encEncode [1] none 40) := by decide

theorem test_words_dec :
    decode ⟨wordOf 2 0 0, [(.pre, .list [1]), (.lab, .list [65]), (.spb, .int 1), (.psz, .int 8),
        (.sc, .int 0)]⟩ = .instr (.decReset [1] [65] 1 8 false) ∧
      decode ⟨wordOf 2 1 0, [(.pre, .list [0])]⟩ = .instr (.decSetpre [0]) ∧
      decode ⟨wordOf 2 2 0, [(.lab, .list [66])]⟩ = .instr (.decSetlab [66]) ∧
      decode ⟨wordOf 2 3 0, [(.spb, .int 7)]⟩ = .instr (.decSetspb 7) ∧
      decode ⟨wordOf 2 4 0, [(.psz, .int 9)]⟩ = .instr (.decSetpsz 9) ∧
      decode ⟨wordOf 2 8 0, [(.raw, .list [1]), (.sci, .list [5]), (.out, .int 40)]⟩ =
        .instr (.decDecode [1] (some [5]) 40) := by decide

theorem test_words_aln :
    decode ⟨wordOf 3 0 0, [(.p, .int 2), (.k, .int 3)]⟩ = .instr (.alnReset 2 3) ∧
      decode ⟨wordOf 3 8 0, [(.d1, .list [1]), (.s1, .list [2]), (.c1, .list [-3]), (.d2, .list [4]),
        (.s2, .list [5]), (.c2, .list [6]), (.out, .int 7)]⟩ =
        .instr (.alnAlign [1] [2] [BitVec.ofInt 32 (-3)] [4] [5] [6] 7) := by decide

/-- W-7 to W-14. -/
theorem test_illegal_words :
    [0x0000, 0x1001, 0x10FF, 0x1500, 0x1900, 0x3100, 0x4000, 0xF800].map opcodeOf =
      List.replicate 8 none := by decide

/-- Each row's word, as the opcode table numbers it. -/
theorem test_table_words :
    [0x1000, 0x1100, 0x1200, 0x1300, 0x1400, 0x1800, 0x2000, 0x2100, 0x2200, 0x2300, 0x2400, 0x2800,
      0x3000, 0x3800].map (fun w => (decodeTableWord 16 w).map Instr.opcode) =
    [.encReset, .encSetpre, .encSetlab, .encSetspb, .encSetpsz, .encEncode, .decReset, .decSetpre,
      .decSetlab, .decSetspb, .decSetpsz, .decDecode, .alnReset, .alnAlign].map some := by decide

/-- A table word's very next step runs it: on a fresh FRAL it is REJECTED (ENC-2). -/
theorem test_fetch_word :
    nextOf (step (State.reset.withFetchWord 16 0x1400)) =
      some (State.reset.answered ⟨.rejected, .nothing⟩) := by
  decide

/-- W-7 at power-on: ILLEGAL, not REJECTED. -/
theorem test_illegal_step :
    nextOf (step (State.reset.withFetchWord 16 0)) =
      some (State.reset.answered ⟨.illegal, .nothing⟩) := by decide

/-! ## Primitives -/

/-- PR-1, PR-4, PR-5, PR-8, PR-10. -/
theorem test_array_ops :
    interpolate ([1, 0, 1] : List U8) 3 = [1, 1, 1, 0, 0, 0, 1, 1, 1] ∧
      decimate ([1, 1, 0, 0, 1, 1] : List U8) 2 = [1, 0, 1] ∧
      decimate ([1, 2, 3, 4, 5] : List U8) 2 = [1, 3, 5] ∧
      numberToBits 65 8 = [1, 0, 0, 0, 0, 0, 1, 0] ∧
      numberToBits 70000 16 = [0, 0, 0, 0, 1, 1, 1, 0, 1, 0, 0, 0, 1, 0, 0, 0] := by decide

/-- PR-12 to PR-14. -/
theorem test_bits_to_number :
    bitsToNumber [1, 0, 1] 3 = 5 ∧ bitsToNumber [2, 0, 0] 3 = 2 ∧
      bitsToNumber (List.replicate 16 255) 16 = 16711425 := by decide

/-- M-1, M-2, M-4. -/
theorem test_matcher_exact :
    matchPattern .tolGlobal [0, 0, 1, 0, 1, 1, 0, 0] [1, 0, 1, 1] = some ⟨2, .exact⟩ ∧
      matchPattern .tolGlobal [1, 0, 1, 0, 0, 0, 1, 0, 1, 1, 0, 0] [1, 0, 1, 1] = some ⟨6, .exact⟩ ∧
      matchPattern .tolGlobal [1, 0, 1, 1] [1, 0, 1, 1] = none := by decide

/-- M-3, M-6, M-7, M-8. -/
theorem test_matcher_best :
    matchPattern .tolGlobal [0, 0, 0, 0, 1, 0, 1, 1] [1, 0, 1, 1] = some ⟨1, .best⟩ ∧
      matchPattern .tolNeedle [0, 0, 0, 0, 1, 0, 1, 1] [1, 0, 1, 1] = none ∧
      matchPattern .tolGlobal [0, 1, 0, 0, 0, 1, 0, 0] [1, 0, 1, 1] = some ⟨1, .best⟩ ∧
      matchPattern .tolGlobal [0, 0, 0, 0, 0, 0] [1, 0, 1, 1] = none ∧
      matchPattern .tolNeedle [1, 0, 1, 0, 0, 0, 0, 0, 0, 0] [1, 0, 1, 1] = some ⟨0, .best⟩ := by decide

/-- RB-2 and RB-4. -/
theorem test_ring_bank :
    (Bank.powerOn.pushAll [[0], [1], [2], [3], [4], [5]]).contents = [[1], [2], [3], [4], [5]] ∧
      ((Bank.powerOn.pushAll [[0], [1], [2], [3], [4], [5]]).pop.map fun x => (x.1, x.2.1)) =
        some ([1], 1) ∧
      ((Bank.powerOn.pushAll [[7], [8]]).pop.map fun x => ((x.2.2.push [9]).contents, x.2.1)) =
        some ([[8], [9]], 0) := by decide

/-- R136, R137: by hand, (1·4 + 2·(2+6)) / (1 + 2·2) = 4, and at the edge (1·2 + 2·4) / (1 + 2). -/
theorem test_averages :
    linearMap ([1, 2] : List Int) 3 4 = [7, 10] ∧
      weightedAverage ([2, 4, 6] : List Int) [1, 2] 1 3 2 = some 4 ∧
      weightedAverage ([2, 4, 6] : List Int) [1, 2] 0 3 2 = some 3 ∧
      weightedAverage ([2, 4, 6] : List Int) [0, 0] 1 3 2 = none := by decide

/-! ## ENC -/

/-- R170's example: N = 12 and FL = 36. -/
theorem test_enc_reset :
    (stateOf (.encReset [0, 0, 1, 1] [65] 1 8 false) (link false 9)).enc =
      ⟨⟨true, [0, 0, 1, 1], [65], 1, 8, false, [0, 0, 1, 1, 1, 0, 0, 0, 0, 0, 1, 0],
        [0, 0, 1, 1, 1, 0, 0, 0, 0, 0, 1, 0], 12, 36⟩, 0⟩ := by decide

/-- ENC-3 to ENC-6. -/
theorem test_enc_reset_rejects :
    [Instr.encReset [0, 2] [65] 1 8 false, .encReset [] [] 1 8 false, .encReset [0] [65] 0 8 false,
      .encReset [0] [65] 1 0 false].map (fun i => nextOf (exec i State.reset)) =
    List.replicate 4 (some (State.reset.answered rejection)) := by decide

/-- R171 to R174: the lengths the setters leave, by R42 and R43; the counter stays. -/
theorem test_enc_setters :
    [Instr.encSetpre [1], .encSetlab [65], .encSetspb 2, .encSetpsz 5].map (fun i =>
      let e := (stateOf i (link false 7)).enc
      (e.regs.n, e.regs.fl, e.cnt)) =
    [(1, 19, 7), (10, 28, 7), (4, 38, 7), (2, 23, 7)] := by decide

/-- ENC-17, ENC-18 and a setter on a fresh ENC (ENC-2). -/
theorem test_enc_setters_reject :
    nextOf (exec (.encSetpre []) (link false 7)) = some ((link false 7).answered rejection) ∧
      nextOf (exec (.encSetspb 0) (link false 7)) = some ((link false 7).answered rejection) ∧
      nextOf (exec (.encSetpsz 4) State.reset) = some (State.reset.answered rejection) ∧
      nextOf (exec (.encSetlab [1]) State.reset) = some (State.reset.answered rejection) := by decide

/-- ENC-23: one chunk only, SPB over the side channel's header region. -/
theorem test_enc_encode_side_channel :
    answerOf (.encEncode [5, 6, 7] (some [100, 200]) 40) (link true 0) =
      some ⟨.ok, .enc ⟨2, 20, smallFrame bits0 5 6, some (List.replicate 18 1 ++ [100, 200])⟩⟩ := by decide

/-- ENC-12 and ENC-21 in the small layouts: the counter wraps, each header bit is held SPB times. -/
theorem test_enc_encode_counter :
    (stateOf (.encEncode [1, 2, 3, 4] none 40) (link false 65535)).enc.cnt = 1 ∧
      answerOf (.encEncode [7, 9] none 38) { State.reset with enc := ⟨doubled, 1⟩ } =
        some ⟨.ok, .enc ⟨2, 38, [1, 1, 0, 0, 1, 1] ++ List.replicate 30 0 ++ [7, 9], none⟩⟩ := by decide

/-! ## DEC -/

/-- R200's example. -/
theorem test_dec_reset :
    (stateOf (.decReset [0, 0, 1, 1] [65] 1 8 true) State.reset).dec =
      ⟨true, [0, 0, 1, 1], [65], 1, 8, true, [0, 0, 1, 1, 1, 0, 0, 0, 0, 0, 1, 0],
        [0, 0, 1, 1, 1, 0, 0, 0, 0, 0, 1, 0], 12, 36⟩ := by decide

theorem test_dec_reset_rejects :
    nextOf (exec (.decReset [] [] 1 8 false) (link false 0)) = some ((link false 0).answered rejection) := by decide

theorem test_dec_setters :
    [Instr.decSetpre [1], .decSetlab [65], .decSetspb 2, .decSetpsz 5].map (fun i =>
      let u := (stateOf i (link false 7)).dec
      (u.n, u.fl)) =
    [(1, 19), (10, 28), (4, 38), (2, 23)] := by decide

/-- R202's and R203's examples, in the small layout. -/
theorem test_dec_setters_reject :
    nextOf (exec (.decSetspb 0) (link false 7)) = some ((link false 7).answered rejection) ∧
      nextOf (exec (.decSetpre []) (link false 7)) = some ((link false 7).answered rejection) ∧
      nextOf (exec (.decSetpsz 4) State.reset) = some (State.reset.answered rejection) ∧
      nextOf (exec (.decSetlab [1]) State.reset) = some (State.reset.answered rejection) := by decide

/-- The side-channel vector of §2.6 (two frames, pre=[1,0], sc=1). -/
theorem test_dec_decode_two_frames :
    answerOf (.decDecode (smallFrame bits0 5 6 ++ smallFrame bits1 7 8)
        (some (List.replicate 18 1 ++ [100, 200] ++ List.replicate 18 1 ++ [101, 201])) 4) (link true 0) =
      some ⟨.ok, .dec ⟨40, 4, [5, 6, 7, 8], [1, 0, 1, 0], [0, 0, 1, 1],
        some [100, 200, 101, 201]⟩⟩ := by decide

/-- R207: nines nowhere near the header; by hand 4·(8+9) > 3·(4−2). R209: a counter item 2 counts 2. -/
theorem test_dec_decode_degraded :
    answerOf (.decDecode [9, 9, 9, 9] none 5) (link false 0) =
        some ⟨.ok, .dec ⟨4, 4, [255, 255, 255, 255], [0, 0, 0, 0],
          [BitVec.ofInt 32 (-1), BitVec.ofInt 32 (-1), BitVec.ofInt 32 (-1), BitVec.ofInt 32 (-1)],
          none⟩⟩ ∧
      answerOf (.decDecode (smallFrame (2 :: List.replicate 15 0) 5 6) none 2) (link false 0) =
        some ⟨.ok, .dec ⟨20, 2, [5, 6], [1, 0], [2, 2], none⟩⟩ := by decide

/-! ## ALN -/

theorem test_aln_reset :
    let a := (stateOf (.alnReset 4 5) (aligner [[1, 2]] 2)).aln
    (a.cfgd, a.p, a.k, a.bank.occ, a.f, a.bdelay) = (true, 4, 5, 0, false, 0) ∧
      a.bank.contents = [] := by decide

/-- ALN-2, ALN-3. -/
theorem test_aln_reset_rejects :
    nextOf (exec (.alnReset 0 3) State.reset) = some (State.reset.answered rejection) ∧
      nextOf (exec (.alnReset 2 0) State.reset) = some (State.reset.answered rejection) := by decide

/-- ALN-7, ALN-9 and ALN-10. -/
theorem test_aln_error_branches :
    answerOf ((windows [1, 2, 3, 4, 5, 6] [1, 0, 1, 0, 1, 0] 5 [1, 2, 3, 4, 5, 6] [0, 1, 0, 1, 0, 1] 5).align
        6) (aligner [] 0) =
      some (alignRecord 6 (List.replicate 6 251) (List.replicate 6 251)
        (List.replicate 6 (BitVec.ofInt 32 (-1)))) ∧
      answerOf ((windows [1, 2, 3, 4, 5, 6] [0, 0, 1, 0, 1, 0] 5 [1, 2, 3, 4, 5, 6] [0, 0, 1, 0, 1, 0]
        5).align 6) (aligner [] 0) = some (alignRecord 2 [252, 252] [252, 252] [2, 2]) ∧
      answerOf ((pulses 10 4).align 6) (aligner [] 0) =
        some (alignRecord 6 (List.replicate 6 253) (List.replicate 6 253) (List.replicate 6 6)) := by decide

/-- ALN-17 and ALN-20's kind: a filling, then a steady window. -/
theorem test_aln_skew :
    let filled := stateOf ((pulses 5 3).align 6) (aligner [] 0)
    filled.lastResult = some (alignRecord 4 [255, 255, 255, 255] [255, 255, 255, 255] [2, 2, 2, 2]) ∧
      filled.aln.bank.contents = [[1, 2], [3, 4]] ∧ filled.aln.f = true ∧
      answerOf ((windows [5, 6, 7, 8, 9, 10] [1, 0, 1, 0, 1, 0] 7 [20, 21, 22, 23, 24, 25]
          [1, 0, 1, 0, 1, 0] 5).align 6) filled =
        some (alignRecord 6 [1, 2, 3, 4, 5, 6] [20, 21, 22, 23, 24, 25] [2, 2, 2, 2, 2, 2]) := by decide

/-- The lead swap of ALN-22: a bank of the other lead is emptied first. -/
theorem test_aln_lead_swap :
    (stateOf ((pulses 3 5).align 6) (aligner [[13, 14], [15, 16]] 2)).aln.bank.contents =
      [[20, 21], [22, 23]] := by decide

/-! ## Text -/

theorem test_result_text :
    (⟨.ok, .enc ⟨2, 3, [1, 0, 5], none⟩⟩ : Result).text = "-> OK consumed=2 produced=3 frm_out=[1,0,5]" ∧
      rejection.text = "-> REJECTED" := by decide

/-! ## Witnesses: for each obligation with hypotheses, a case that meets them all, clause by clause -/

theorem link_inv (sc : Bool) (cnt : U16) : (link sc cnt).Inv where
  paramsWf := show Params.atReset.Wf by decide
  encInv _ := ⟨show LayoutOk Params.atReset [1, 0] [] 1 2 by decide, FrameRegs.configured_recompute rfl⟩
  decInv _ := ⟨show LayoutOk Params.atReset [1, 0] [] 1 2 by decide, FrameRegs.configured_recompute rfl⟩
  slotCount := rfl
  alnInv h := absurd h Bool.false_ne_true

/-- An aligner state meets the invariant when its ALN does. -/
theorem aligner_inv_of {held : List (List U8)} {delay : Int} (h : (aligner held delay).aln.Inv Params.atReset) :
    (aligner held delay).Inv where
  paramsWf := show Params.atReset.Wf by decide
  encInv h := absurd h Bool.false_ne_true
  decInv h := absurd h Bool.false_ne_true
  slotCount := h.bankInv.slotCount
  alnInv _ := h

theorem aligner_inv_empty : (aligner [] 0).Inv :=
  aligner_inv_of ⟨by decide, ⟨by decide, by decide⟩, by decide, by decide, by decide, by decide, by decide⟩

theorem aligner_inv_two : (aligner [[13, 14], [15, 16]] 2).Inv :=
  aligner_inv_of ⟨by decide, ⟨by decide, by decide⟩, by decide, by decide, by decide, by decide, by decide⟩

/-- A state whose unspecified registers hold something else than at power-on. -/
def otherPowerOn : State :=
  { State.reset with
    enc := ⟨{ FrameRegs.powerOn with pre := [7], fl := 3 }, 99⟩
    dec := { FrameRegs.powerOn with hdrt := [9], psz := 4 }
    aln := { Aln.powerOn with
      p := 6, f := true, bank := ⟨List.replicate 5 ⟨true, 4, [1]⟩, 5⟩ } }

theorem witness_DecodeAcceptsExactlyFittingRecords :
    Record.wellFormed .encSetspb [(.spb, .int 4294967295)] = true ∧
      Record.wellFormed .encSetspb [(.spb, .int 4294967296)] = false := by decide

theorem witness_LegalWordsAreTheFourteen :
    opcodeOf 0xFFFF = none ∧ opcodeOf 0x3800 = some .alnAlign := by decide

theorem witness_OperandOrderDoesNotMatter :
    ([(.p, .int 1), (.k, .int 2)] : Record).Perm [(.k, .int 2), (.p, .int 1)] := .swap ..

theorem witness_IllegalWordIsAnsweredIllegal :
    ({ State.reset with pending := [⟨0xF800, []⟩] } : State).pending = ⟨0xF800, []⟩ :: [] ∧
      (⟨0xF800, []⟩ : Command).word ∉ legalWords := ⟨rfl, by decide⟩

theorem witness_UnfittingRecordIsRejected :
    Record.wellFormed .alnReset [(.p, .int 1)] = false ∧
      (link false 0).enc.regs.sc ≠ (some [1] : Option (List U32)).isSome ∧
      (link true 0).enc.regs.sc ≠ (none : Option (List U32)).isSome ∧
      (link false 0).dec.sc ≠ (some [1] : Option (List U32)).isSome := by decide

theorem witness_StepRunsTheDecodedInstruction :
    decode ⟨0x3000, [(.p, .int 2), (.k, .int 3)]⟩ = .instr (.alnReset 2 3) := by decide

theorem witness_NoCommandNoChange : State.reset.pending = [] := rfl

theorem witness_EveryCommandReturnsOneRecord :
    ({ State.reset with pending := [⟨0x3100, []⟩] } : State).pending = ⟨0x3100, []⟩ :: [] := rfl

/-- A command that decodes, one that does not fit, one that is illegal: each is performed. -/
theorem witness_CommandCompletesOrChangesNothing :
    [(⟨0x3000, [(.p, .int 2), (.k, .int 3)]⟩ : Command), ⟨0x3000, []⟩, ⟨0x0000, []⟩].map (fun c =>
      ((nextOf (step { State.reset with pending := [c] })).bind State.lastResult).map Result.status) =
    [some .ok, some .rejected, some .illegal] := by decide

/-- For each unit a command of another unit that completes. -/
theorem witness_CommandTouchesOnlyItsUnit :
    answerOf (.alnReset 1 1) State.reset = some acceptance ∧ (Instr.alnReset 1 1).opcode.unit ≠ .enc ∧
      answerOf (.encSetspb 3) (link false 0) = some acceptance ∧
      (Instr.encSetspb 3).opcode.unit ≠ .aln ∧ (Instr.encSetspb 3).opcode.unit ≠ .dec := by decide

theorem witness_CommandsToDifferentUnitsCommute :
    (Instr.encEncode [1, 2] none 20).opcode.unit ≠ (Instr.decDecode [1] none 2).opcode.unit := by decide

theorem witness_UnitIsUsableOnlyAfterItsReset :
    (answerOf (.encReset [1] [] 1 1 false) State.reset = some acceptance ∧
      answerOf (.decReset [] [0] 1 1 true) State.reset = some acceptance ∧
      answerOf (.alnReset 1 1) State.reset = some acceptance) ∧
      (Instr.encSetpre []).opcode.isReset = false ∧ State.reset.configured .enc = false := by decide

theorem witness_UnspecifiedValuesAreNeverSeen :
    State.reset.Alike otherPowerOn ∧ State.reset ≠ otherPowerOn :=
  ⟨⟨rfl, rfl, rfl, rfl, rfl, fun h => absurd h Bool.false_ne_true, rfl,
    fun h => absurd h Bool.false_ne_true, rfl, rfl, fun h => absurd h Bool.false_ne_true⟩, by decide⟩

/-- A command of each unit, performed in a state that meets the invariant. -/
theorem witness_EveryStepKeepsTheInvariant :
    State.Inv { State.reset with pending := [⟨0x3000, [(.p, .int 2), (.k, .int 3)]⟩] } ∧
      (nextOf (step { State.reset with pending := [⟨0x3000, [(.p, .int 2), (.k, .int 3)]⟩] })).isSome =
        true :=
  ⟨⟨by decide, fun h => absurd h Bool.false_ne_true, fun h => absurd h Bool.false_ne_true, rfl,
    fun h => absurd h Bool.false_ne_true⟩, by decide⟩

/-- Bounds of 1. -/
def tight : Params := ⟨1, 1, 1, 1, 1, .tolGlobal⟩

/-- The smallest valid layout, one beyond each bound, and the two empty parts. -/
theorem witness_EncResetLoadsTheLayout :
    LayoutOk Params.atReset [0] [] 1 1 ∧ LayoutOk Params.atReset [] [255] 1 1 ∧
      ¬LayoutOk Params.atReset [] [] 1 1 ∧ ¬LayoutOk Params.atReset [2] [] 1 1 ∧
      ¬LayoutOk Params.atReset [0] [] 0 1 ∧ ¬LayoutOk Params.atReset [0] [] 1 0 ∧
      ¬LayoutOk tight [0, 1] [] 1 1 ∧ ¬LayoutOk tight [0] [1, 1] 1 1 ∧
      ¬LayoutOk tight [0] [] 2 1 ∧ ¬LayoutOk tight [0] [] 1 2 :=
  ⟨by decide, by decide, by decide, by decide, by decide,
    by decide, by decide, by decide, by decide, by decide⟩

theorem witness_DecResetLoadsTheLayout :
    LayoutOk State.reset.params [1] [] 1 1 ∧ ¬LayoutOk State.reset.params [1] [] 1 0 :=
  ⟨by decide, by decide⟩

theorem witness_EncSettersReplaceOneParameter :
    ((link true 5).enc.regs = small true ∧ (small true).cfgd = true ∧
      LayoutOk Params.atReset [1] (small true).lab (small true).spb (small true).psz ∧
      LayoutOk Params.atReset (small true).pre [0] (small true).spb (small true).psz ∧
      LayoutOk Params.atReset (small true).pre (small true).lab 4294967295 (small true).psz ∧
      LayoutOk Params.atReset (small true).pre (small true).lab (small true).spb 4294967295) ∧
      State.reset.enc.regs.cfgd = false ∧
      ¬LayoutOk Params.atReset [] (small true).lab (small true).spb (small true).psz :=
  ⟨⟨rfl, rfl, by decide, by decide, by decide, by decide⟩, rfl, by decide⟩

theorem witness_DecSettersReplaceOneParameter :
    ((link true 5).dec = small true ∧ (small true).cfgd = true ∧
      LayoutOk Params.atReset [1] (small true).lab (small true).spb (small true).psz ∧
      LayoutOk Params.atReset (small true).pre [0] (small true).spb (small true).psz ∧
      LayoutOk Params.atReset (small true).pre (small true).lab 1 (small true).psz ∧
      LayoutOk Params.atReset (small true).pre (small true).lab (small true).spb 1) ∧
      State.reset.dec.cfgd = false ∧
      ¬LayoutOk Params.atReset (small true).pre (small true).lab 0 (small true).psz :=
  ⟨⟨rfl, rfl, by decide, by decide, by decide, by decide⟩, rfl, by decide⟩

theorem witness_LinkResetConfiguresBothEnds :
    LayoutOk State.reset.params [1] [] 1 1 ∧
      ({ State.reset with pending := linkReset [1] [] 1 1 true } : State).pending =
        linkReset [1] [] 1 1 true ++ [] := ⟨by decide, rfl⟩

/-- Two frames with a side channel, and no frame for want of one item of room. -/
theorem witness_EncodeFramesWholeChunks :
    (link true 65535).Inv ∧ (link true 65535).enc.regs.cfgd = true ∧
      (link true 65535).enc.regs.sc = (some [1, 2, 3, 4] : Option (List U32)).isSome ∧
      framesOf (.encEncode [1, 2, 3, 4] (some [1, 2, 3, 4]) 40) (link true 65535) = 2 ∧
      framesOf (.encEncode [1, 2, 3, 4] (some [1, 2, 3, 4]) 19) (link true 65535) = 0 :=
  ⟨link_inv .., rfl, rfl, by decide, by decide⟩

/-- A setter and an ENCODE between the reset and the frames counted. -/
theorem witness_FramesAreCountedFromTheReset :
    let is : List Instr := [.encEncode [1, 2] none 20, .encSetpsz 1]
    (link false 0).Inv ∧ (link false 0).enc.cnt = 0 ∧ (∀ i ∈ is, i.opcode ≠ .encReset) ∧
      framesEmitted is (link false 0) = 1 ∧
      ((nextOf (execAll is (link false 0))).map fun t =>
        (t.enc.regs.cfgd, t.enc.regs.sc, framesOf (.encEncode [1] none 19) t)) = some (true, false, 1) :=
  ⟨link_inv .., rfl, by decide, by decide, by decide⟩

theorem witness_DecodeWithoutInputOrRoomDoesNothing :
    (link true 0).dec.cfgd = true ∧ (link true 0).dec.sc = (some [] : Option (List U32)).isSome ∧
      (1 : U32).toNat < (link true 0).dec.psz.toNat := by decide

/-- Also for `ShortWindowLosesSync`: windows of 1 and of N items. -/
theorem witness_LossOfSyncFillsTheRoom :
    (link false 0).Inv ∧ (link false 0).dec.cfgd = true ∧ (2 : U32).toNat / (link false 0).dec.psz.toNat = 1 ∧
      matchPattern .tolGlobal [1] (link false 0).dec.hdrt = none ∧
      matchPattern .tolGlobal [1, 0] (link false 0).dec.hdrt = none ∧ (link false 0).dec.n = 2 :=
  ⟨link_inv .., rfl, by decide, by decide, by decide, rfl⟩

theorem witness_ShortWindowLosesSync :
    (link false 0).Inv ∧ (link false 0).dec.cfgd = true ∧
      (link false 0).dec.psz.toNat ≤ (2 : U32).toNat ∧ 1 ≤ ([1, 0] : List U8).length ∧
      ([1, 0] : List U8).length ≤ (link false 0).dec.n :=
  ⟨link_inv .., rfl, by decide, by decide, by decide⟩

/-- A frame found behind one strange item. -/
theorem witness_FramePathDecodesTheChain :
    (link false 0).Inv ∧ (link false 0).dec.cfgd = true ∧
      (link false 0).dec.psz.toNat ≤ (2 : U32).toNat ∧
      matchPattern .tolGlobal (5 :: smallFrame bits0 5 6) (link false 0).dec.hdrt = some ⟨1, .exact⟩ ∧
      framePositions .tolGlobal (link false 0).dec (5 :: smallFrame bits0 5 6) 1 1 = [1] :=
  ⟨link_inv .., rfl, by decide, by decide, by decide⟩

theorem witness_DecodeOfEncodeRecoversThePayloads :
    (link true 65535).Inv ∧ (link true 65535).enc.regs.cfgd = true ∧
      (link true 65535).enc.regs = (link true 65535).dec ∧
      (answerOf (.encEncode [1, 2, 3, 4] (some [5, 6, 7, 8]) 40) (link true 65535)).map Result.status =
        some .ok ∧
      (encRun (link true 65535).enc [1, 2, 3, 4] (some [5, 6, 7, 8]) 40).consumed ≤ (4 : U32).toNat :=
  ⟨link_inv .., rfl, rfl, by decide, by decide⟩

/-- Two frames in three windows, one of them empty and one of N + 1 items. -/
theorem witness_WindowsFromAFrameBoundaryDecodeTrueFrames :
    (link false 0).Inv ∧ (link false 0).dec.cfgd = true ∧
      (∀ x ∈ ([(0, [1, 2]), (65535, [255, 1])] : List (U16 × List U8)),
        x.2.length = (link false 0).dec.psz.toNat) ∧
      ∀ w ∈ ([(20, 2), (0, 2), (3, 9)] : List (Nat × U32)), w.1 = 0 ∨ (link false 0).dec.n < w.1 :=
  ⟨link_inv .., rfl, by decide, by decide⟩

/-- An exact match at the last offset examined, a best match under each tolerance, and the last offset of
all, which is not examined (M-12, M-3, M-8). -/
theorem witness_MatcherFollowsItsRule :
    1 ≤ ([1] : List U8).length ∧ matchPattern .tolGlobal [0, 1, 0] [1] = some ⟨1, .exact⟩ ∧
      matchPattern .tolGlobal [0, 0, 0, 0, 1, 0, 1, 1, 0] [1, 0, 1, 1] = some ⟨4, .exact⟩ ∧
      matchPattern .tolGlobal [0, 0, 0, 0, 1, 0, 1, 1] [1, 0, 1, 1] = some ⟨1, .best⟩ ∧
      matchPattern .tolNeedle [1, 0, 1, 0, 0, 0, 0, 0, 0, 0] [1, 0, 1, 1] = some ⟨0, .best⟩ := by decide

/-- M-2, M-4, M-10 and M-11: each consequence at its boundary. -/
theorem witness_MatcherConsequences :
    Machine.dist [1, 0, 1, 0, 0, 0, 1, 0, 1, 1, 0, 0] [1, 0, 1, 1] 6 = 0 ∧
      ([1, 0, 1, 1] : List U8).length ≤ ([1, 0, 1, 1] : List U8).length ∧
      4 + (4 * 4 + 2) / 3 = 10 ∧
      matchPattern .tolGlobal (List.replicate 9 0) [1, 1, 1, 1] = none ∧
      matchPattern .tolGlobal (List.replicate 10 0) [1, 1, 1, 1] = some ⟨0, .best⟩ ∧
      (∀ t < 6, Machine.dist (List.replicate 10 0) [1, 1, 1, 1] t = 4) := by decide

theorem witness_ArrayOpsItemByItem :
    (3 : Nat) ≤ ([1, 2, 3] : List U8).length ∧ 2 * 2 < ([1, 2, 3, 4, 5] : List U8).length := by decide

/-- A whole list and its first items; sixteen elements and no fewer. -/
theorem witness_BitConversionsAreInverse :
    0 < 1 ∧ 2 ≤ ([1, 0] : List U8).length ∧ 1 ≤ ([1, 0] : List U8).length ∧
      16 ≤ (List.replicate 16 (255 : U8)).length := by decide

theorem witness_MissingBitsCountAsZero :
    ([] : List U8).length < 1 ∧ (List.replicate 15 (255 : U8)).length < 16 := by decide

theorem witness_AveragesFollowTheirFormulas :
    (0 : Nat) < 3 ∧ 3 ≤ ([2, 4, 6] : List Int).length ∧ 1 ≤ 2 ∧ 2 ≤ ([1, 2] : List Int).length := by decide

/-- An empty bank, one with room for one packet, and a full one. -/
theorem witness_BankIsAQueueOfFive :
    Bank.powerOn.Inv ∧ Bank.powerOn.occ = 0 ∧
      (Bank.powerOn.pushAll [[0], [1], [2], [3]]).Inv ∧
      (Bank.powerOn.pushAll [[0], [1], [2], [3]]).occ = 4 ∧
      (Bank.powerOn.pushAll [[0], [1], [2], [3], [4]]).Inv ∧
      (Bank.powerOn.pushAll [[0], [1], [2], [3], [4]]).occ = 5 :=
  ⟨⟨by decide, by decide⟩, by decide, ⟨by decide, by decide⟩, by decide, ⟨by decide, by decide⟩, by decide⟩

theorem witness_BankIsFirstInFirstOut :
    Bank.powerOn.Inv ∧ Bank.powerOn.occ = 0 ∧ ([[0], [1], [2], [3], [4]] : List (List U8)).length = 5 :=
  ⟨⟨by decide, by decide⟩, rfl, rfl⟩

theorem witness_AlnResetEmptiesTheBank :
    DimensionsOk State.reset.params 1 1 ∧ DimensionsOk State.reset.params 4294967295 4294967295 ∧
      ¬DimensionsOk State.reset.params 0 1 ∧ ¬DimensionsOk State.reset.params 1 0 ∧
      ¬DimensionsOk tight 1 2 := by decide

/-- A full window at its smallest, and each way to miss it by one. -/
theorem witness_AlignNeedsAFullWindow :
    (aligner [] 0).Inv ∧ FullWindow (aligner [] 0) (pulses 5 3) 6 ∧
      ¬FullWindow (aligner [] 0) (pulses 5 3) 5 ∧
      ¬FullWindow (aligner [] 0) ((pulses 5 3).take 5) 6 ∧
      ¬FullWindow State.reset (pulses 5 3) 6 :=
  ⟨aligner_inv_empty, by decide, by decide, by decide, by decide⟩

/-- Pulses at 0 against none at all (ALN-8). -/
theorem witness_MisalignedPulsesGive251 :
    PulseAt 2 [1, 0, 1, 0, 1, 0] 0 ∧ PulseAt 2 [0, 0, 0, 0, 0, 0] 2 :=
  ⟨pulseAt_syncIndex (p := 2) (xs := [1, 0, 1, 0, 1, 0]) (by decide),
    pulseAt_syncIndex (p := 2) (xs := [0, 0, 0, 0, 0, 0]) (by decide)⟩

/-- Both pulses at 1, and none at all (ALN-9c, ALN-9). -/
theorem witness_OffsetPulsesGive252 :
    PulseAt 2 [0, 1, 0, 1, 0, 1] 1 ∧ PulseAt 2 [0, 0, 1, 0, 1, 0] 2 :=
  ⟨pulseAt_syncIndex (p := 2) (xs := [0, 1, 0, 1, 0, 1]) (by decide),
    pulseAt_syncIndex (p := 2) (xs := [0, 0, 1, 0, 1, 0]) (by decide)⟩

/-- The windows of `pulses` have their pulses at 0 and the delay of their counters. -/
theorem pulses_at_zero {held : List (List U8)} {d : Int} (c1 c2 delay : Int)
    (h : delay = (wrapS32 c1).toInt - (wrapS32 c2).toInt) :
    PulsesAtZero (aligner held d) (pulses c1 c2) delay :=
  ⟨pulseAt_syncIndex (p := 2) (xs := [1, 0, 1, 0, 1, 0]) (by decide),
    pulseAt_syncIndex (p := 2) (xs := [1, 0, 1, 0, 1, 0]) (by decide), _, _, rfl, rfl, h⟩

/-- ALN-10 and ALN-11: one above capacity, either way. -/
theorem witness_ExcessDelayGives253 :
    PulsesAtZero (aligner [] 0) (pulses 10 4) 6 ∧ PulsesAtZero (aligner [] 0) (pulses 4 10) (-6) ∧
      5 < (6 : Int).natAbs :=
  ⟨pulses_at_zero _ _ _ (by decide), pulses_at_zero _ _ _ (by decide), by decide⟩

theorem witness_StreamsInSyncPassThrough : PulsesAtZero (aligner [] 0) (pulses 7 7) 0 :=
  pulses_at_zero _ _ _ (by decide)

/-- From an empty bank (delay 5 = CAP), from a kept one whose delay grew, and from a bank of the other
lead. -/
theorem witness_FillingPathCollectsLeadPackets :
    PulsesAtZero (aligner [] 0) (pulses 5 0) 5 ∧ (keptPackets (aligner [] 0).aln 5).length ≠ 5 ∧
      (keptPackets (aligner [[13, 14], [15, 16]] 2).aln 3).length = 2 ∧
      (keptPackets (aligner [[13, 14], [15, 16]] 2).aln (-2)).length = 0 :=
  ⟨pulses_at_zero _ _ _ (by decide), by decide, by decide, by decide⟩

theorem witness_SteadyPathDelaysTheLead :
    (aligner [[13, 14], [15, 16]] 2).Inv ∧
      FullWindow (aligner [[13, 14], [15, 16]] 2) (pulses 5 3) 6 ∧
      PulsesAtZero (aligner [[13, 14], [15, 16]] 2) (pulses 5 3) 2 ∧
      (keptPackets (aligner [[13, 14], [15, 16]] 2).aln 2).length = (2 : Int).natAbs :=
  ⟨aligner_inv_two, by decide, pulses_at_zero _ _ _ (by decide), by decide⟩

theorem witness_AlignProducesWhatItConsumes :
    (aligner [[13, 14], [15, 16]] 2).Inv ∧
      (answerOf ((pulses 5 3).align 6) (aligner [[13, 14], [15, 16]] 2)).map Result.status = some .ok :=
  ⟨aligner_inv_two, by decide⟩

/-- Three packets in sync, and three that differ by 2. -/
theorem skewed_pulses (c1 c2 delay : Int) (h : delay = (wrapS32 c1).toInt - (wrapS32 c2).toInt) :
    SkewedStreams 2 3 (pulses c1 c2) delay := by
  refine ⟨show (pulses 0 0).Holds 6 by decide, fun g hg => ?_⟩
  have hcases : g = 0 ∨ g = 1 ∨ g = 2 := by omega
  rcases hcases with rfl | rfl | rfl <;>
    exact ⟨⟨1, rfl, by decide⟩, ⟨1, rfl, by decide⟩, _, _, rfl, rfl, h⟩

theorem witness_StreamsInSyncComeOutUnchanged :
    (aligner [] 0).Inv ∧ (aligner [] 0).aln.cfgd = true ∧ (aligner [] 0).aln.w ≤ (6 : U32).toNat ∧
      SkewedStreams (aligner [] 0).aln.p.toNat 3 (pulses 7 7) 0 ∧ 1 * (aligner [] 0).aln.k.toNat ≤ 3 :=
  ⟨aligner_inv_empty, rfl, by decide, skewed_pulses _ _ _ (by decide), by decide⟩

theorem witness_SkewedStreamsComeOutAligned :
    (aligner [] 0).Inv ∧ (aligner [] 0).aln.bank.occ = 0 ∧ (2 : Int) ≠ 0 ∧ (5 : Int).natAbs ≤ 5 ∧
      SkewedStreams (aligner [] 0).aln.p.toNat 3 (pulses 5 3) 2 ∧
      SkewedStreams (aligner [] 0).aln.p.toNat 3 (pulses 0 5) (-5) ∧
      1 * (aligner [] 0).aln.k.toNat ≤ 3 :=
  ⟨aligner_inv_empty, rfl, by decide, by decide, skewed_pulses _ _ _ (by decide),
    skewed_pulses _ _ _ (by decide), by decide⟩

/-- A RUN of each unit that delivers. -/
theorem witness_RunsStayWithinTheirWindows :
    ((answerOf (.encEncode [1, 2] none 20) (link false 0)).bind fun r => r.delivery.counts) =
        some (.enc, 2, 20, false) ∧
      ((answerOf (.decDecode [9, 9, 9, 9] none 5) (link false 0)).bind fun r => r.delivery.counts) =
        some (.dec, 4, 4, false) ∧
      ((answerOf ((pulses 5 3).align 6) (aligner [] 0)).bind fun r => r.delivery.counts) =
        some (.aln, 4, 4, false) := by decide

end Sys2Proof.Tests
end

section
/-! PROOF. A command changes nothing of a unit it does not address (00_scope.md R2, 60_exceptions.md R280). -/

namespace Sys2Proof.Machine

/-- What every performed command leaves behind, read from the next state: a rejection record and no other
change, or a change confined to the command's unit. -/
theorem exec_next_cases {i : Instr} {s t : State} (h : exec i s = .next t) :
    t = s.answered rejection ∨ Accepted i.opcode.unit s t := by
  rcases exec_cases i s with hrej | ⟨t', hok, hacc⟩
  · exact .inl (Host.Outcome.next.inj (h.symm.trans hrej))
  · rw [Host.Outcome.next.inj (h.symm.trans hok)]
    exact .inr hacc

/-- The frame of an accepted command of unit `u`: the other units' registers, the parameters and the
commands still issued. -/
theorem Accepted.frame {u : UnitId} {s t : State} (h : Accepted u s t) :
    (u ≠ .enc → t.enc = s.enc) ∧ (u ≠ .dec → t.dec = s.dec) ∧
      (u ≠ .aln → t.aln = s.aln ∧ t.draws = s.draws) ∧ t.params = s.params ∧ t.pending = s.pending := by
  obtain ⟨enc, dec, aln, draws, d, rfl, henc, hdec, haln⟩ := h
  exact ⟨henc, hdec, haln, rfl, rfl⟩

/-- Settles O13: a rejected command only appends its record, an accepted one keeps to its unit's frame. -/
theorem commandTouchesOnlyItsUnit : Obligations.CommandTouchesOnlyItsUnit := by
  intro i s t h
  rcases exec_next_cases h with rfl | hacc
  · exact ⟨fun _ => rfl, fun _ => rfl, fun _ => ⟨rfl, rfl⟩, rfl, rfl⟩
  · exact hacc.frame

end Sys2Proof.Machine
end

section
/-! PROOF. Every step keeps the invariant of the state (10_state.md R40, R44, R48, R49, R52): what keeps the
invariant of ALN, what an update of the state must bring to keep the state's, then command by command. -/

namespace Sys2Proof.Machine

/-! ## The invariant of ALN -/

/-- ALN with an emptied bank, as `clearAlignment` and aln.reset leave it (R230, R236). -/
theorem Aln.inv_emptied {c : Params} {a : Aln} {b : Bank} (hdim : DimensionsOk c a.p a.k)
    (hslots : b.slots.length = 5) (hbank : a.bank = b.clear) (hf : a.f = false) (hz : a.bdelay = 0) :
    a.Inv c where
  dimensions := hdim
  bankInv := hbank ▸ Bank.clear_inv hslots
  packetLength s hs hv := by
    rw [hbank] at hs
    rw [Bank.clear_valid b s hs] at hv
    cases hv
  occLeDelay := by simp [hbank]
  delayLeCap := by simp [hz]
  delayZero := by simp [hbank, hz]
  flagIff := by simp [hbank, hf]

theorem Aln.Inv.clearAlignment {c : Params} {a : Aln} (h : a.Inv c) : a.clearAlignment.Inv c :=
  Aln.inv_emptied (b := a.bank) h.dimensions h.bankInv.slotCount rfl rfl rfl

/-- ALN with the packets collected for a skew, as the steady and the filling path leave it (R239 to R241):
some packet is held, and no more than the delay asks for. -/
theorem Aln.inv_collected {c : Params} {a : Aln} {bank : Bank} {delay : Int} {f : Bool}
    (hdim : DimensionsOk c a.p a.k) (hbank : bank.Inv) (hp : PacketsOf a.p.toNat bank)
    (hpos : 1 ≤ bank.occ) (hle : bank.occ ≤ delay.natAbs) (hcap : delay.natAbs ≤ 5)
    (hf : f = true ↔ bank.occ = delay.natAbs) :
    Aln.Inv c { a with bank := bank, f := f, bdelay := wrapS32 delay } := by
  have hint : (wrapS32 delay).toInt = delay := toInt_wrapS32 hcap
  have hne : wrapS32 delay ≠ 0 := fun h0 => by
    rw [h0] at hint
    have : delay = 0 := hint.symm.trans BitVec.toInt_zero
    omega
  refine ⟨hdim, hbank, hp, ?_, ?_, ?_, ?_⟩
  · rw [hint]; exact hle
  · rw [hint]; exact hcap
  · exact iff_of_false hne (by simpa using by omega)
  · rw [hint, hf]; exact (and_iff_right hpos).symm

/-! ## Updates of the state -/

section Updates
variable {s : State}

theorem State.Inv.answered (h : s.Inv) (r : Result) : (s.answered r).Inv :=
  ⟨h.paramsWf, h.encInv, h.decInv, h.slotCount, h.alnInv⟩

theorem State.Inv.withPending (h : s.Inv) (rest : List Command) : State.Inv { s with pending := rest } :=
  ⟨h.paramsWf, h.encInv, h.decInv, h.slotCount, h.alnInv⟩

/-- ENC's counter is of no account. -/
theorem State.Inv.withEnc (h : s.Inv) {u : FrameRegs} (hu : u.Inv s.params) (cnt : U16) :
    State.Inv { s with enc := ⟨u, cnt⟩ } :=
  ⟨h.paramsWf, hu, h.decInv, h.slotCount, h.alnInv⟩

theorem State.Inv.withDec (h : s.Inv) {u : FrameRegs} (hu : u.Inv s.params) : State.Inv { s with dec := u } :=
  ⟨h.paramsWf, h.encInv, hu, h.slotCount, h.alnInv⟩

/-- The state an ALN command leaves, the number of free values drawn being of no account. -/
theorem State.Inv.aligned (h : s.Inv) {a : Aln} (ha : a.Inv s.params) (draws : Nat) (r : Result) :
    (State.aligned { s with draws := draws } a r).Inv :=
  ⟨h.paramsWf, h.encInv, h.decInv, ha.bankInv.slotCount, fun _ => ha⟩

end Updates

/-! ## Commands -/

/-- Registers a setter loads are made for a valid layout (R44). -/
theorem FrameRegs.relaid_inv {c : Params} {u v : FrameRegs} {pre lab : List U8} {spb psz : U32}
    (h : u.relaid c pre lab spb psz = some v) : v.Inv c := by
  rcases FrameRegs.relaid_cases c u pre lab spb psz with hnone | ⟨-, hl, w, hsome, hw⟩
  · rw [hnone] at h; cases h
  · rw [hsome] at h; cases h
    exact hw.inv hl

/-- The four ENC setters (R171 to R174). -/
theorem State.Inv.enc_setter {s : State} (h : s.Inv) (pre lab : List U8) (spb psz : U32) :
    ∃ t, s.configureEnc (s.enc.regs.relaid s.params pre lab spb psz) = .next t ∧ t.Inv := by
  rcases s.configureEnc_cases (s.enc.regs.relaid s.params pre lab spb psz) with ⟨-, e⟩ | ⟨u, hu, e⟩
  · exact ⟨_, e, h.answered _⟩
  · exact ⟨_, e, (h.withEnc (FrameRegs.relaid_inv hu) _).answered _⟩

/-- The four DEC setters (R201 to R204). -/
theorem State.Inv.dec_setter {s : State} (h : s.Inv) (pre lab : List U8) (spb psz : U32) :
    ∃ t, s.configureDec (s.dec.relaid s.params pre lab spb psz) = .next t ∧ t.Inv := by
  rcases s.configureDec_cases (s.dec.relaid s.params pre lab spb psz) with ⟨-, e⟩ | ⟨u, hu, e⟩
  · exact ⟨_, e, h.answered _⟩
  · exact ⟨_, e, (h.withDec (FrameRegs.relaid_inv hu)).answered _⟩

/-- The skew branch of ALIGN (R239 to R241): the bank ends with the whole delay line, or with the packets
kept and at least one more. -/
theorem State.Inv.alignSkew_keeps {s : State} (h : s.Inv) (ha : s.aln.Inv s.params) {x : AlnWindows}
    (hx : x.Holds s.aln.w) {delay : Int} (hcap : delay.natAbs ≤ 5) (hne : delay ≠ 0) :
    ∃ t, alignSkew x delay s = .next t ∧ t.Inv := by
  rcases alignSkew_cases ha x hx hcap with
    ⟨-, bank, hbank, -, hocc, hp, -, e⟩ | ⟨hlt, bank, hbank, -, hocc, hp, hn, -, e⟩
  · exact ⟨_, e, h.aligned (Aln.inv_collected ha.dimensions hbank hp (by omega) (by omega) hcap
      (by simp [hocc])) s.draws _⟩
  · exact ⟨_, e, h.aligned (Aln.inv_collected ha.dimensions hbank hp (by omega) (by omega) hcap
      (by simp [delayLineFlag, hocc])) s.draws _⟩

/-- An ALIGN with a full window, by its branch (R232): all but the skew branch clear the alignment. -/
theorem State.Inv.alignBranch_keeps {s : State} (h : s.Inv) (ha : s.aln.Inv s.params) {x : AlnWindows}
    (hx : x.Holds s.aln.w) : ∃ t, alignBranch x s = .next t ∧ t.Inv := by
  rcases alignBranch_cases x s with
    ⟨-, e⟩ | ⟨-, -, e⟩ | ⟨-, -, -, e⟩ | ⟨-, -, -, e⟩ | ⟨-, -, hcap, hne, e⟩
  · exact ⟨_, e.trans (alignMis_eq ..), h.aligned ha.clearAlignment _ _⟩
  · exact ⟨_, e.trans (alignOff_eq ..), h.aligned ha.clearAlignment _ _⟩
  · exact ⟨_, e.trans (alignOvf_eq ..), h.aligned ha.clearAlignment s.draws _⟩
  · exact ⟨_, e.trans (alignSync_eq ..), h.aligned ha.clearAlignment s.draws _⟩
  · rw [e]; exact h.alignSkew_keeps ha hx hcap hne

/-- Every instruction answers a next state, and one that meets the invariant. -/
theorem State.Inv.exec_keeps {s : State} (h : s.Inv) (i : Instr) :
    ∃ t, exec i s = .next t ∧ t.Inv := by
  cases i with
  | encReset pre lab spb psz sc =>
    rcases execEncReset_cases pre lab spb psz sc s with ⟨-, e⟩ | ⟨hl, u, hu, e⟩
    · exact ⟨_, e, h.answered _⟩
    · exact ⟨_, e, (h.withEnc (hu.inv hl) _).answered _⟩
  | encSetpre pre => exact h.enc_setter ..
  | encSetlab lab => exact h.enc_setter ..
  | encSetspb spb => exact h.enc_setter ..
  | encSetpsz psz => exact h.enc_setter ..
  | encEncode pay sci out =>
    rcases execEncEncode_cases pay sci out s with ⟨-, e⟩ | ⟨-, -, e⟩
    · exact ⟨_, e, h.answered _⟩
    · exact ⟨_, e, (h.withEnc h.encInv _).answered _⟩
  | decReset pre lab spb psz sc =>
    rcases execDecReset_cases pre lab spb psz sc s with ⟨-, e⟩ | ⟨hl, u, hu, e⟩
    · exact ⟨_, e, h.answered _⟩
    · exact ⟨_, e, (h.withDec (hu.inv hl)).answered _⟩
  | decSetpre pre => exact h.dec_setter ..
  | decSetlab lab => exact h.dec_setter ..
  | decSetspb spb => exact h.dec_setter ..
  | decSetpsz psz => exact h.dec_setter ..
  | decDecode raw sci out =>
    rcases execDecDecode_cases raw sci out s with ⟨-, e⟩ | ⟨-, -, e⟩
    · exact ⟨_, e, h.answered _⟩
    · exact ⟨_, e, h.answered _⟩
  | alnReset p k =>
    rcases execAlnReset_cases p k s with ⟨-, e⟩ | ⟨hdim, e⟩
    · exact ⟨_, e, h.answered _⟩
    · exact ⟨_, e, h.aligned (Aln.inv_emptied hdim h.slotCount rfl rfl rfl) s.draws _⟩
  | alnAlign d1 s1 c1 d2 s2 c2 out =>
    obtain ⟨hfull, hshort⟩ := execAlnAlign_eq ⟨d1, s1, c1, d2, s2, c2⟩ out s
    by_cases hf : FullWindow s ⟨d1, s1, c1, d2, s2, c2⟩ out
    · obtain ⟨t, e, ht⟩ := h.alignBranch_keeps (h.alnInv hf.1) hf.2.1
      exact ⟨t, (hfull hf).trans e, ht⟩
    · exact ⟨_, hshort hf, h.answered _⟩

/-- Every step answers a next state, and one that meets the invariant. -/
theorem State.Inv.step_keeps {s : State} (h : s.Inv) : ∃ t, step s = .next t ∧ t.Inv := by
  rcases step_cases s with ⟨-, e⟩ | ⟨-, rest, -, ⟨i, -, e⟩ | ⟨-, e⟩ | ⟨-, e⟩⟩
  · exact ⟨s, e, h⟩
  · rw [e]; exact (h.withPending rest).exec_keeps i
  · exact ⟨_, e, (h.withPending rest).answered _⟩
  · exact ⟨_, e, (h.withPending rest).answered _⟩

/-- Settles O18: a step from a state of the invariant has one outcome, and it meets the invariant. -/
theorem everyStepKeepsTheInvariant : Obligations.EveryStepKeepsTheInvariant := by
  intro s t h ht
  obtain ⟨t', e, ht'⟩ := h.step_keeps
  rw [Host.Outcome.next.inj (ht.symm.trans e)]
  exact ht'

end Sys2Proof.Machine
end

section
/-! PROOF. A unit is usable only after its reset (10_state.md R33; 60_exceptions.md R271, R272), and
dec.decode writes no register (42_decoder.md R206). -/

namespace Sys2Proof.Machine

/-- A rejected reset does not leave an acceptance behind; an accepted one marks its unit configured. -/
theorem configured_of_reset_accepted {i : Instr} {s t : State} (hr : i.opcode.isReset = true)
    (ht : exec i s = .next t) (hlast : t.lastResult = some acceptance) :
    t.configured i.opcode.unit = true := by
  have hrej : exec i s ≠ .next (s.answered rejection) := fun e => by
    rw [Host.Outcome.next.inj (ht.symm.trans e), State.lastResult_answered] at hlast
    exact absurd hlast (by decide)
  cases i with
  | encReset pre lab spb psz sc =>
    rcases execEncReset_cases pre lab spb psz sc s with ⟨-, e⟩ | ⟨-, u, hu, e⟩
    · exact absurd e hrej
    · rw [Host.Outcome.next.inj (ht.symm.trans e)]; exact hu.cfgdSet
  | decReset pre lab spb psz sc =>
    rcases execDecReset_cases pre lab spb psz sc s with ⟨-, e⟩ | ⟨-, u, hu, e⟩
    · exact absurd e hrej
    · rw [Host.Outcome.next.inj (ht.symm.trans e)]; exact hu.cfgdSet
  | alnReset p k =>
    rcases execAlnReset_cases p k s with ⟨-, e⟩ | ⟨-, e⟩
    · exact absurd e hrej
    · rw [Host.Outcome.next.inj (ht.symm.trans e)]; rfl
  | _ => cases hr

/-- A setter of an unconfigured ENC is rejected, whatever layout it asks for. -/
theorem State.configureEnc_unconfigured {s : State} (h : s.enc.regs.cfgd = false) (pre lab : List U8)
    (spb psz : U32) :
    s.configureEnc (s.enc.regs.relaid s.params pre lab spb psz) = .next (s.answered rejection) := by
  rw [FrameRegs.relaid_none (.inl h)]; rfl

theorem State.configureDec_unconfigured {s : State} (h : s.dec.cfgd = false) (pre lab : List U8)
    (spb psz : U32) :
    s.configureDec (s.dec.relaid s.params pre lab spb psz) = .next (s.answered rejection) := by
  rw [FrameRegs.relaid_none (.inl h)]; rfl

/-- Every instruction but a reset is rejected while its unit is unconfigured (R33). -/
theorem rejected_of_unconfigured {i : Instr} {s : State} (hr : i.opcode.isReset = false)
    (hu : s.configured i.opcode.unit = false) : Rejected i s := by
  cases i with
  | encReset => cases hr
  | encSetpre pre => exact State.configureEnc_unconfigured hu ..
  | encSetlab lab => exact State.configureEnc_unconfigured hu ..
  | encSetspb spb => exact State.configureEnc_unconfigured hu ..
  | encSetpsz psz => exact State.configureEnc_unconfigured hu ..
  | encEncode pay sci out =>
    rcases execEncEncode_cases pay sci out s with ⟨-, e⟩ | ⟨hc, -⟩
    · exact e
    · exact absurd hc (Bool.eq_false_iff.mp hu)
  | decReset => cases hr
  | decSetpre pre => exact State.configureDec_unconfigured hu ..
  | decSetlab lab => exact State.configureDec_unconfigured hu ..
  | decSetspb spb => exact State.configureDec_unconfigured hu ..
  | decSetpsz psz => exact State.configureDec_unconfigured hu ..
  | decDecode raw sci out =>
    rcases execDecDecode_cases raw sci out s with ⟨-, e⟩ | ⟨hc, -⟩
    · exact e
    · exact absurd hc (Bool.eq_false_iff.mp hu)
  | alnReset => cases hr
  | alnAlign d1 s1 c1 d2 s2 c2 out =>
    exact (execAlnAlign_eq ⟨d1, s1, c1, d2, s2, c2⟩ out s).2 fun hf =>
      absurd hf.1 (Bool.eq_false_iff.mp hu)

/-- Settles O15: the three units at power-on, an accepted reset, and every other instruction before it. -/
theorem unitIsUsableOnlyAfterItsReset : Obligations.UnitIsUsableOnlyAfterItsReset := by
  refine ⟨fun u => ?_, fun i s t => configured_of_reset_accepted, fun i s => rejected_of_unconfigured⟩
  cases u <;> rfl

/-- Settles O30: dec.decode is rejected or delivers its run, and either way only answers a record. -/
theorem decodeWritesNoRegister : Obligations.DecodeWritesNoRegister := by
  intro s raw sci out
  rcases execDecDecode_cases raw sci out s with ⟨-, e⟩ | ⟨-, -, e⟩
  · exact ⟨_, e⟩
  · exact ⟨_, e⟩

end Sys2Proof.Machine
end

section
/-! PROOF. A step runs the instruction its command decodes to (20_memory.md R78, R81), and commands to
different units commute (R82): a command's effect is a function of its own unit and the parameters, and stays
in that unit. -/

namespace Sys2Proof.Machine

/-- Settles O9: of the three outcomes of a step with a command pending, only one decodes to an instruction. -/
theorem stepRunsTheDecodedInstruction : Obligations.StepRunsTheDecodedInstruction := by
  intro s c rest i hp hd
  rw [step, State.fetch_cons hp]
  simp only [hd]

/-! ## One unit of a state -/

/-- `t` has the parameters and the unit `u` of `s` (of ALN, the free values drawn too: log entry 8). -/
def State.AgreesOn : UnitId → State → State → Prop
  | .enc, s, t => t.params = s.params ∧ t.enc = s.enc
  | .dec, s, t => t.params = s.params ∧ t.dec = s.dec
  | .aln, s, t => t.params = s.params ∧ t.aln = s.aln ∧ t.draws = s.draws

/-- `s` with the unit `u` of `t`. -/
def State.loadUnit (s : State) (u : UnitId) (t : State) : State :=
  match u with
  | .enc => { s with enc := t.enc }
  | .dec => { s with dec := t.dec }
  | .aln => { s with aln := t.aln, draws := t.draws }

section LoadUnit
variable {u v : UnitId} {s t : State}

theorem State.AgreesOn.refl (u : UnitId) (s : State) : s.AgreesOn u s := by
  cases u
  · exact ⟨rfl, rfl⟩
  · exact ⟨rfl, rfl⟩
  · exact ⟨rfl, rfl, rfl⟩

theorem State.AgreesOn.loadUnit_eq (h : s.AgreesOn u t) : t.loadUnit u s = t := by
  cases t
  cases u
  · obtain ⟨rfl, rfl⟩ := h; rfl
  · obtain ⟨rfl, rfl⟩ := h; rfl
  · obtain ⟨rfl, rfl, rfl⟩ := h; rfl

@[simp] theorem State.loadUnit_results (s : State) (u : UnitId) (t : State) :
    (s.loadUnit u t).results = s.results := by cases u <;> rfl

/-- Loading one unit and answering a record leave every other unit as it was. -/
theorem State.agreesOn_loadUnit (huv : u ≠ v) (s a : State) (r : Result) :
    s.AgreesOn v ((s.loadUnit u a).answered r) := by
  cases v <;> cases u
  case enc.enc | dec.dec | aln.aln => exact absurd rfl huv
  case aln.enc | aln.dec => exact ⟨rfl, rfl, rfl⟩
  all_goals exact ⟨rfl, rfl⟩

/-- Different units are loaded in either order. -/
theorem State.loadUnit_comm (huv : u ≠ v) (s a b : State) :
    (s.loadUnit u a).loadUnit v b = (s.loadUnit v b).loadUnit u a := by
  cases u <;> cases v
  case enc.enc | dec.dec | aln.aln => exact absurd rfl huv
  all_goals rfl

theorem State.loadUnit_answered (s : State) (r : Result) (u : UnitId) (a : State) :
    (s.answered r).loadUnit u a = (s.loadUnit u a).answered r := by cases u <;> rfl

end LoadUnit

/-! ## Acting within a unit -/

/-- `f` is a function of the unit `u` and the parameters: in all states that agree on them it leaves the same
unit `u`, answers the same record, and changes nothing else. -/
def ActsWithin (u : UnitId) (f : State → StepOutcome) : Prop :=
  ∀ s : State, ∃ a r, ∀ s', s.AgreesOn u s' → f s' = .next ((s'.loadUnit u a).answered r)

section ActsWithin
variable {u : UnitId} {f g : State → StepOutcome}

theorem actsWithin_reject : ActsWithin u State.reject :=
  fun s => ⟨s, rejection, fun s' h => by rw [h.loadUnit_eq]; rfl⟩

/-- A choice by what the unit and the parameters hold. -/
theorem ActsWithin.ite {c : State → Prop} {_ : DecidablePred c}
    (hc : ∀ s s' : State, s.AgreesOn u s' → (c s' ↔ c s)) (hf : ActsWithin u f) (hg : ActsWithin u g) :
    ActsWithin u fun s => if c s then f s else g s := by
  intro s
  by_cases h : c s
  · obtain ⟨a, r, hs⟩ := hf s
    exact ⟨a, r, fun s' hs' => (if_pos ((hc s s' hs').mpr h)).trans (hs s' hs')⟩
  · obtain ⟨a, r, hs⟩ := hg s
    exact ⟨a, r, fun s' hs' => (if_neg (mt (hc s s' hs').mp h)).trans (hs s' hs')⟩

/-- An OK delivery whose new state and items are functions of the unit and the parameters. -/
theorem ActsWithin.of_deliver {t : State → State} {d : State → Delivery}
    (hf : ∀ s, f s = (t s).deliver (d s))
    (ht : ∀ s s' : State, s.AgreesOn u s' → t s' = s'.loadUnit u (t s) ∧ d s' = d s) : ActsWithin u f :=
  fun s => ⟨t s, ⟨.ok, d s⟩, fun s' h => by
    obtain ⟨hstate, hitems⟩ := ht s s' h
    rw [hf, hstate, hitems]; rfl⟩

theorem actsWithin_configureEnc (o : Params → Enc → Option FrameRegs) :
    ActsWithin .enc fun s => s.configureEnc (o s.params s.enc) := by
  intro s
  cases ho : o s.params s.enc with
  | none => exact ⟨s, rejection, by rintro ⟨⟩ ⟨rfl, rfl⟩; simp only [ho]; rfl⟩
  | some u => exact ⟨{ s with enc := ⟨u, s.enc.cnt⟩ }, acceptance,
      by rintro ⟨⟩ ⟨rfl, rfl⟩; simp only [ho]; rfl⟩

theorem actsWithin_configureDec (o : Params → FrameRegs → Option FrameRegs) :
    ActsWithin .dec fun s => s.configureDec (o s.params s.dec) := by
  intro s
  cases ho : o s.params s.dec with
  | none => exact ⟨s, rejection, by rintro ⟨⟩ ⟨rfl, rfl⟩; simp only [ho]; rfl⟩
  | some u => exact ⟨{ s with dec := u }, acceptance,
      by rintro ⟨⟩ ⟨rfl, rfl⟩; simp only [ho]; rfl⟩

end ActsWithin

theorem actsWithin_encReset (pre lab : List U8) (spb psz : U32) (sc : Bool) :
    ActsWithin .enc (execEncReset pre lab spb psz sc) := by
  intro s
  unfold execEncReset
  cases h : FrameRegs.afterReset s.params pre lab spb psz sc with
  | none => exact ⟨s, rejection, by rintro ⟨⟩ ⟨rfl, rfl⟩; simp only [h]; rfl⟩
  | some u => exact ⟨{ s with enc := ⟨u, 0⟩ }, acceptance,
      by rintro ⟨⟩ ⟨rfl, rfl⟩; simp only [h]; rfl⟩

theorem actsWithin_encEncode (pay : List U8) (sci : Option (List U32)) (out : U32) :
    ActsWithin .enc (execEncEncode pay sci out) := by
  refine .ite ?_ (.of_deliver (fun _ => rfl) ?_) actsWithin_reject
  · rintro s ⟨⟩ ⟨rfl, rfl⟩; rfl
  · rintro s ⟨⟩ ⟨rfl, rfl⟩; exact ⟨rfl, rfl⟩

theorem actsWithin_decDecode (raw : List U8) (sci : Option (List U32)) (out : U32) :
    ActsWithin .dec (execDecDecode raw sci out) := by
  refine .ite ?_ (.of_deliver (fun _ => rfl) ?_) actsWithin_reject
  · rintro s ⟨⟩ ⟨rfl, rfl⟩; rfl
  · rintro s ⟨⟩ ⟨rfl, rfl⟩; exact ⟨rfl, rfl⟩

theorem actsWithin_alnReset (p k : U32) : ActsWithin .aln (execAlnReset p k) := by
  refine .ite ?_ (.of_deliver (fun _ => rfl) ?_) actsWithin_reject
  · rintro s ⟨⟩ ⟨rfl, rfl, rfl⟩; rfl
  · rintro s ⟨⟩ ⟨rfl, rfl, rfl⟩; exact ⟨rfl, rfl⟩

theorem actsWithin_alignSkew (x : AlnWindows) (delay : Int) : ActsWithin .aln (alignSkew x delay) := by
  refine .ite ?_ (.of_deliver (fun _ => rfl) ?_) (.of_deliver (fun _ => rfl) ?_)
  · rintro s ⟨⟩ ⟨rfl, rfl, rfl⟩; rfl
  all_goals rintro s ⟨⟩ ⟨rfl, rfl, rfl⟩; exact ⟨rfl, rfl⟩

/-- An ALIGN with a full window, branch by branch (R232). -/
theorem actsWithin_alignBranch (x : AlnWindows) : ActsWithin .aln (alignBranch x) := by
  refine .ite ?differ (.of_deliver (fun _ => rfl) ?mis) (.ite ?offset (.of_deliver (fun _ => rfl) ?off)
    (.ite (fun _ _ _ => .rfl) (.of_deliver (fun _ => rfl) ?ovf)
      (.ite (fun _ _ _ => .rfl) (.of_deliver (fun _ => rfl) ?sync) (actsWithin_alignSkew x _))))
  case differ | offset => rintro s ⟨⟩ ⟨rfl, rfl, rfl⟩; rfl
  all_goals rintro s ⟨⟩ ⟨rfl, rfl, rfl⟩; exact ⟨rfl, rfl⟩

theorem actsWithin_alnAlign (x : AlnWindows) (out : U32) : ActsWithin .aln (exec (x.align out)) := by
  refine .ite ?_ (actsWithin_alignBranch x) actsWithin_reject
  rintro s ⟨⟩ ⟨rfl, rfl, rfl⟩; rfl

/-- Every instruction acts within the unit it addresses (R2, R82). -/
theorem exec_actsWithin (i : Instr) : ActsWithin i.opcode.unit (exec i) := by
  cases i with
  | encReset pre lab spb psz sc => exact actsWithin_encReset pre lab spb psz sc
  | encSetpre pre => exact actsWithin_configureEnc fun c e => e.regs.setPre c pre
  | encSetlab lab => exact actsWithin_configureEnc fun c e => e.regs.setLab c lab
  | encSetspb spb => exact actsWithin_configureEnc fun c e => e.regs.setSpb c spb
  | encSetpsz psz => exact actsWithin_configureEnc fun c e => e.regs.setPsz c psz
  | encEncode pay sci out => exact actsWithin_encEncode pay sci out
  | decReset pre lab spb psz sc =>
    exact actsWithin_configureDec fun c _ => FrameRegs.afterReset c pre lab spb psz sc
  | decSetpre pre => exact actsWithin_configureDec fun c u => u.setPre c pre
  | decSetlab lab => exact actsWithin_configureDec fun c u => u.setLab c lab
  | decSetspb spb => exact actsWithin_configureDec fun c u => u.setSpb c spb
  | decSetpsz psz => exact actsWithin_configureDec fun c u => u.setPsz c psz
  | decDecode raw sci out => exact actsWithin_decDecode raw sci out
  | alnReset p k => exact actsWithin_alnReset p k
  | alnAlign d1 s1 c1 d2 s2 c2 out => exact actsWithin_alnAlign ⟨d1, s1, c1, d2, s2, c2⟩ out

theorem execAll_pair {i j : Instr} {s a t : State} (hi : exec i s = .next a) (hj : exec j a = .next t) :
    execAll [i, j] s = .next t := by
  simp only [execAll, hi, hj]

/-- Settles O14: the first command loads its unit and leaves the second's as it was, so each has the effect it
has from `s`, in either order. -/
theorem commandsToDifferentUnitsCommute : Obligations.CommandsToDifferentUnitsCommute := by
  intro i j s hij
  obtain ⟨a, ri, hi⟩ := exec_actsWithin i s
  obtain ⟨b, rj, hj⟩ := exec_actsWithin j s
  have hi_after := hi _ (State.agreesOn_loadUnit hij.symm s b rj)
  have hj_after := hj _ (State.agreesOn_loadUnit hij s a ri)
  rw [State.loadUnit_answered] at hi_after hj_after
  refine ⟨_, _, ri, rj, execAll_pair (hi s (.refl ..)) hj_after, execAll_pair (hj s (.refl ..)) hi_after,
    by simp, by simp, ?_⟩
  rw [State.loadUnit_comm hij]
  rfl

end Sys2Proof.Machine
end

section
/-! PROOF. A RUN produces at most its room, consumes at most its windows, and delivers on every output port as
many items as it says it produced (20_memory.md R72, R74; 30_encoding.md R98). -/

namespace Sys2Proof

/-- The RUN commands (30_encoding.md R98): the ones whose record has counts when they are accepted. -/
def Opcode.isRun : Opcode → Bool
  | .encEncode | .decDecode | .alnAlign => true
  | _ => false

end Sys2Proof

namespace Sys2Proof.Machine

/-! ## The record of a command -/

/-- A command answers one record, so two descriptions of it agree. -/
theorem record_unique {o : StepOutcome} {s t t' : State} {r r' : Result} (ht : o = .next t)
    (hr : t.results = s.results ++ [r]) (ht' : o = .next t') (hr' : t'.results = s.results ++ [r']) :
    r = r' := by
  obtain rfl := Host.Outcome.next.inj (ht.symm.trans ht')
  exact List.singleton_inj.mp (List.append_cancel_left (hr.symm.trans hr'))

theorem configureEnc_record (s : State) (o : Option FrameRegs) :
    ∃ t st, s.configureEnc o = .next t ∧ t.results = s.results ++ [⟨st, .nothing⟩] := by
  rcases s.configureEnc_cases o with ⟨-, e⟩ | ⟨u, -, e⟩
  · exact ⟨_, _, e, rfl⟩
  · exact ⟨_, _, e, rfl⟩

theorem configureDec_record (s : State) (o : Option FrameRegs) :
    ∃ t st, s.configureDec o = .next t ∧ t.results = s.results ++ [⟨st, .nothing⟩] := by
  rcases s.configureDec_cases o with ⟨-, e⟩ | ⟨u, -, e⟩
  · exact ⟨_, _, e, rfl⟩
  · exact ⟨_, _, e, rfl⟩

/-- A configuration command answers a status and delivers nothing (log entry 16). -/
theorem exec_record_of_not_run {i : Instr} (h : i.opcode.isRun = false) (s : State) :
    ∃ t st, exec i s = .next t ∧ t.results = s.results ++ [⟨st, .nothing⟩] := by
  cases i with
  | encReset pre lab spb psz sc =>
    rcases execEncReset_cases pre lab spb psz sc s with ⟨-, e⟩ | ⟨-, u, -, e⟩
    · exact ⟨_, _, e, rfl⟩
    · exact ⟨_, _, e, rfl⟩
  | encSetpre pre => exact configureEnc_record ..
  | encSetlab lab => exact configureEnc_record ..
  | encSetspb spb => exact configureEnc_record ..
  | encSetpsz psz => exact configureEnc_record ..
  | decReset pre lab spb psz sc => exact configureDec_record ..
  | decSetpre pre => exact configureDec_record ..
  | decSetlab lab => exact configureDec_record ..
  | decSetspb spb => exact configureDec_record ..
  | decSetpsz psz => exact configureDec_record ..
  | alnReset p k =>
    rcases execAlnReset_cases p k s with ⟨-, e⟩ | ⟨-, e⟩
    · exact ⟨_, _, e, rfl⟩
    · exact ⟨_, _, e, rfl⟩
  | encEncode | decDecode | alnAlign => cases h

/-! ## ENC -/

/-- The output windows of an ENCODE are as long as its produced count, which is at most the room offered,
and its consumed count is at most the items brought. -/
structure EncRun.Within (run : EncRun) (room brought : Nat) : Prop where
  frmLength : run.frm.length = run.produced
  scLength : ∀ ys, run.sc = some ys → ys.length = run.produced
  producedLe : run.produced ≤ room
  consumedLe : run.consumed ≤ brought

theorem encRun_within {e : Enc} {c : Params} (he : e.regs.Inv c) (hc : e.regs.cfgd = true) (pay : List U8)
    (sci : Option (List U32)) (out : U32) :
    (encRun e pay sci out).Within out.toNat (available pay sci) := by
  obtain ⟨⟨-, -, -, -, ⟨hspb, -⟩, -⟩, hu⟩ := he hc
  have hm : encCount e.regs pay sci out * e.regs.psz.toNat ≤ available pay sci := encCount_mul_psz
  refine ⟨(encFrames_spec hu hspb e.cnt (hm.trans (available_le_main ..))).1, fun ys hys => ?_,
    encCount_mul_fl, hm⟩
  obtain ⟨xs, rfl, rfl⟩ := Option.map_eq_some_iff.mp hys
  exact (encSideFrames_spec hu (hm.trans (available_le_side ..))).1

/-- The output ports of ENC (R71). -/
theorem EncRun.Within.itemsOn {run : EncRun} {room brought : Nat} (h : run.Within room brought) {port : Port}
    {items : List Int} (hi : Result.itemsOn ⟨.ok, .enc run⟩ port = some items) :
    Result.producedOn ⟨.ok, .enc run⟩ port = some run.produced ∧ items.length = run.produced := by
  cases port with
  | encFrmOut => cases hi; exact ⟨rfl, (List.length_map _).trans h.frmLength⟩
  | encScOut =>
    obtain ⟨ys, hys, rfl⟩ := Option.map_eq_some_iff.mp hi
    refine ⟨?_, (List.length_map _).trans (h.scLength ys hys)⟩
    simp [Result.producedOn, Delivery.counts, Port.unit, Port.isInput, hys]
  | _ => cases hi

/-! ## DEC -/

/-- The same of a DECODE. -/
structure DecRun.Within (run : DecRun) (room brought : Nat) : Prop where
  payLength : run.pay.length = run.produced
  syncLength : run.sync.length = run.produced
  cntLength : run.cnt.length = run.produced
  scLength : ∀ ys, run.sc = some ys → ys.length = run.produced
  producedLe : run.produced ≤ room
  consumedLe : run.consumed ≤ brought

theorem decLossOfSync_within (room input : Nat) (side : Bool) :
    (decLossOfSync room input side).Within room input := by
  rw [decLossOfSync_eq]
  refine ⟨List.length_replicate, List.length_replicate, List.length_replicate, fun ys hys => ?_,
    le_rfl, le_rfl⟩
  cases side <;> cases hys
  exact List.length_replicate

theorem decFramePath_within {tol : MatchTol} {u : FrameRegs} {pre lab : List U8} {spb psz : U32} {sc : Bool}
    (hu : Configured u pre lab spb psz sc) {raw : List U8} {sci : Option (List U32)}
    (hsci : ∀ xs, sci = some xs → xs.length = raw.length) (packets : Nat) {start : Nat}
    (hstart : start ≤ raw.length) :
    (decFramePath tol u raw sci packets start).Within (packets * u.psz.toNat) raw.length := by
  have hfit : ∀ p ∈ framePositions tol u raw packets start, p + u.fl ≤ raw.length := framePositions_fit
  rw [decFramePath_eq hu raw sci hsci]
  refine ⟨(flatten_map_blocks _ _ fun p hp => length_framePayload hu.fl_eq (hfit p hp)).1,
    (flatten_map_blocks _ _ fun _ _ => length_syncPacket _).1,
    (flatten_map_blocks _ _ fun _ _ => length_fill ..).1, fun ys hys => ?_,
    Nat.mul_le_mul_right _ (length_framePositions_le ..), consumedBy_le hstart hfit⟩
  obtain ⟨xs, hxs, rfl⟩ := Option.map_eq_some_iff.mp hys
  exact (flatten_map_blocks _ _ fun p hp =>
    length_framePayload hu.fl_eq (by rw [hsci xs hxs]; exact hfit p hp)).1

theorem decRun_within {c : Params} {u : FrameRegs} (hinv : u.Inv c) (hc : u.cfgd = true) (tol : MatchTol)
    (raw : List U8) (sci : Option (List U32)) (out : U32) :
    (decRun tol u raw sci out).Within out.toNat (available raw sci) := by
  obtain ⟨hlen, hside⟩ := length_take_available (raw := raw) (sci := sci)
  have hroom : out.toNat / u.psz.toNat * u.psz.toNat ≤ out.toNat := Nat.div_mul_le_self ..
  rcases decRun_cases tol u raw sci out with ⟨-, e⟩ | ⟨-, -, -, e⟩ | ⟨r, -, -, hm, e⟩
  · rw [e]
    refine ⟨rfl, rfl, rfl, fun ys hys => ?_, Nat.zero_le _, Nat.zero_le _⟩
    obtain ⟨xs, -, rfl⟩ := Option.map_eq_some_iff.mp hys
    rfl
  · rw [e]
    have h := decLossOfSync_within (out.toNat / u.psz.toNat * u.psz.toNat) (available raw sci) sci.isSome
    exact { h with producedLe := h.producedLe.trans hroom }
  · rw [e]
    have hstart := matchPattern_lt hm
    have h := decFramePath_within (tol := tol) (hinv hc).2 hside (out.toNat / u.psz.toNat)
      (start := r.offset) (by omega)
    exact { h with producedLe := h.producedLe.trans hroom, consumedLe := h.consumedLe.trans hlen.le }

/-- The output ports of DEC (R71). -/
theorem DecRun.Within.itemsOn {run : DecRun} {room brought : Nat} (h : run.Within room brought) {port : Port}
    {items : List Int} (hi : Result.itemsOn ⟨.ok, .dec run⟩ port = some items) :
    Result.producedOn ⟨.ok, .dec run⟩ port = some run.produced ∧ items.length = run.produced := by
  cases port with
  | decPayOut => cases hi; exact ⟨rfl, (List.length_map _).trans h.payLength⟩
  | decSyncOut => cases hi; exact ⟨rfl, (List.length_map _).trans h.syncLength⟩
  | decCntOut => cases hi; exact ⟨rfl, (List.length_map _).trans h.cntLength⟩
  | decScOut =>
    obtain ⟨ys, hys, rfl⟩ := Option.map_eq_some_iff.mp hi
    refine ⟨?_, (List.length_map _).trans (h.scLength ys hys)⟩
    simp [Result.producedOn, Delivery.counts, Port.unit, Port.isInput, hys]
  | _ => cases hi

/-! ## ALN -/

/-- An ALIGN's run of `n` items, at least one and at most a window (R242). -/
structure AlnRun.Within (run : AlnRun) (w : Nat) : Prop where
  o1Length : run.o1.length = run.produced
  o2Length : run.o2.length = run.produced
  ctlLength : run.ctl.length = run.produced
  consumedEq : run.consumed = run.produced
  producedPos : 1 ≤ run.produced
  producedLe : run.produced ≤ w

theorem alignBranch_within {s : State} (hs : s.Inv) (hc : s.aln.cfgd = true) {x : AlnWindows}
    (hx : x.Holds s.aln.w) :
    ∃ t run, alignBranch x s = .next t ∧ t.results = s.results ++ [⟨.ok, .aln run⟩] ∧
      run.Within s.aln.w := by
  obtain ⟨hp, hpw, -⟩ := hs.window hc
  have hw : 1 ≤ s.aln.w := hp.trans hpw
  have ⟨hd1, _, _, hd2, _, _⟩ := hx
  rcases alignBranch_cases x s with
    ⟨-, e⟩ | ⟨-, hne, e⟩ | ⟨-, -, -, e⟩ | ⟨-, -, -, e⟩ | ⟨-, -, hcap, -, e⟩
  · exact ⟨_, _, e.trans (alignMis_eq ..), rfl, List.length_replicate, List.length_replicate,
      length_indexControl .., rfl, hw, le_rfl⟩
  · exact ⟨_, _, e.trans (alignOff_eq ..), rfl, List.length_replicate, List.length_replicate,
      length_indexControl .., rfl, Nat.one_le_iff_ne_zero.mpr hne, (syncIndex_le ..).trans hpw⟩
  · exact ⟨_, _, e.trans (alignOvf_eq ..), rfl, List.length_replicate, List.length_replicate,
      List.length_replicate, rfl, hw, le_rfl⟩
  · exact ⟨_, _, e.trans (alignSync_eq ..), rfl, List.length_take_of_le hd1, List.length_take_of_le hd2,
      List.length_replicate, rfl, hw, le_rfl⟩
  · rcases alignSkew_cases (hs.alnInv hc) x hx hcap with
      ⟨-, bank, -, -, -, -, hlead, e'⟩ | ⟨-, bank, -, -, -, -, hn, hnw, e'⟩
    · have hlag : ((x.lag (delayOf x)).take s.aln.w).length = s.aln.w := by
        unfold AlnWindows.lag; split
        · exact List.length_take_of_le hd2
        · exact List.length_take_of_le hd1
      refine ⟨_, _, e.trans e', rfl, ?_, ?_, List.length_replicate, rfl, hw, le_rfl⟩
      · exact (apply_ite List.length ..).trans (by rw [hlead, hlag, ite_self])
      · exact (apply_ite List.length ..).trans (by rw [hlead, hlag, ite_self])
    · exact ⟨_, _, e.trans e', rfl, List.length_replicate, List.length_replicate, List.length_replicate,
        rfl, Nat.mul_pos hn hp, hnw⟩

/-- The output ports of ALN (R71). -/
theorem AlnRun.Within.itemsOn {run : AlnRun} {w : Nat} (h : run.Within w) {port : Port}
    {items : List Int} (hi : Result.itemsOn ⟨.ok, .aln run⟩ port = some items) :
    Result.producedOn ⟨.ok, .aln run⟩ port = some run.produced ∧ items.length = run.produced := by
  cases port with
  | alnO1Out => cases hi; exact ⟨rfl, (List.length_map _).trans h.o1Length⟩
  | alnO2Out => cases hi; exact ⟨rfl, (List.length_map _).trans h.o2Length⟩
  | alnCtlOut => cases hi; exact ⟨rfl, (List.length_map _).trans h.ctlLength⟩
  | _ => cases hi

/-! ## Every command -/

/-- Windows of at least `w` items hold any fewer. -/
theorem AlnWindows.Holds.mono {x : AlnWindows} {n w : Nat} (h : x.Holds w) (hn : n ≤ w) : x.Holds n := by
  rw [← shortest_iff] at h ⊢
  exact hn.trans h

/-- Settles O51: a record with counts is not a rejection's nor a configuration command's, so it is an
accepted RUN's (log entry 16), and that run lies within its windows. -/
theorem runsStayWithinTheirWindows : Obligations.RunsStayWithinTheirWindows := by
  intro i s t r u consumed produced side hs ht hr hcounts
  have hrej : exec i s ≠ .next (s.answered rejection) := fun e => by
    rw [record_unique ht hr e rfl] at hcounts
    cases hcounts
  have hrun : i.opcode.isRun = true := by
    by_contra h
    obtain ⟨t', st, e, hr'⟩ := exec_record_of_not_run (Bool.eq_false_iff.mpr h) s
    rw [record_unique ht hr e hr'] at hcounts
    cases hcounts
  cases i with
  | encEncode pay sci out =>
    rcases execEncEncode_cases pay sci out s with ⟨-, e⟩ | ⟨hc, -, e⟩
    · exact absurd e hrej
    · obtain rfl := record_unique ht hr e rfl
      cases hcounts
      have h := encRun_within hs.encInv hc pay sci out
      exact ⟨rfl, rfl, fun _ _ => h.itemsOn, h.producedLe, available_eq pay sci ▸ h.consumedLe⟩
  | decDecode raw sci out =>
    rcases execDecDecode_cases raw sci out s with ⟨-, e⟩ | ⟨hc, -, e⟩
    · exact absurd e hrej
    · obtain rfl := record_unique ht hr e rfl
      cases hcounts
      have h := decRun_within hs.decInv hc s.params.matchTol raw sci out
      exact ⟨rfl, rfl, fun _ _ => h.itemsOn, h.producedLe, available_eq raw sci ▸ h.consumedLe⟩
  | alnAlign d1 s1 c1 d2 s2 c2 out =>
    obtain ⟨hfull, hshort⟩ := execAlnAlign_eq ⟨d1, s1, c1, d2, s2, c2⟩ out s
    by_cases hf : FullWindow s ⟨d1, s1, c1, d2, s2, c2⟩ out
    · obtain ⟨hc, hx, hout⟩ := hf
      obtain ⟨t', run, e, hr', h⟩ := alignBranch_within hs hc hx
      obtain rfl := record_unique ht hr ((hfull ⟨hc, hx, hout⟩).trans e) hr'
      cases hcounts
      exact ⟨rfl, rfl, fun _ _ => h.itemsOn, h.producedLe.trans hout,
        hx.mono (h.consumedEq.le.trans h.producedLe)⟩
    · exact absurd (hshort hf) hrej
  | _ => cases hrun

end Sys2Proof.Machine
end

section
/-! PROOF. Command words and operand records (30_encoding.md R90 to R94, R102): which records an operation
reads, that an instruction is read back from its own record, that a record's order is of no account, and which
words are legal. -/

namespace Sys2Proof

/-! ## Which records an operation reads -/

section Operands
variable (r : Record) (f : Field)

@[simp] theorem Record.any_lookup_u8List :
    (r.lookup f).any (FieldType.admits .u8List) = (r.u8List f).isSome := by
  cases h : r.lookup f <;> simp [Record.u8List, h, FieldType.admits_u8List]

@[simp] theorem Record.any_lookup_s32List :
    (r.lookup f).any (FieldType.admits .s32List) = (r.s32List f).isSome := by
  cases h : r.lookup f <;> simp [Record.s32List, h, FieldType.admits_s32List]

@[simp] theorem Record.any_lookup_u32 :
    (r.lookup f).any (FieldType.admits .u32) = (r.u32 f).isSome := by
  cases h : r.lookup f <;> simp [Record.u32, h, FieldType.admits_u32]

@[simp] theorem Record.any_lookup_bit :
    (r.lookup f).any (FieldType.admits .bit) = (r.bit f).isSome := by
  cases h : r.lookup f <;> simp [Record.bit, h, FieldType.admits_bit]

@[simp] theorem Record.all_lookup_sci :
    (r.lookup .sci).all (FieldType.admits .u32List) = r.sideChannel.isSome := by
  cases h : r.lookup .sci <;> simp [Record.sideChannel, h, FieldType.admits_u32List]

end Operands

/-- `Record.wellFormed` without its operation, in terms of the values looked up: no name is given twice or is
none of the lists', the required operands are given, and each operand is of its type. -/
def Record.Fits (required optional : List (Field × FieldType)) (r : Record) : Prop :=
  Record.within ((required ++ optional).map Prod.fst) r = true ∧
    (∀ f ∈ required, (r.lookup f.1).any f.2.admits = true) ∧
    ∀ f ∈ optional, (r.lookup f.1).all f.2.admits = true

theorem Record.wellFormed_iff_fits (op : Opcode) (r : Record) :
    Record.wellFormed op r = true ↔ r.Fits op.required op.optional := by
  by_cases hn : (r.map Prod.fst).Nodup
  · have hany (f : Field × FieldType) : (r.lookup f.1).any f.2.admits =
        ((r.map Prod.fst).contains f.1 && (r.lookup f.1).all f.2.admits) := by
      rw [Record.contains_fst]
      cases r.lookup f.1 <;> simp
    simp only [Record.Fits, Record.wellFormed, Record.noDuplicate, Record.allPresent, Record.noExtra,
      Record.allTyped_eq hn, Record.within, hany, List.all_append, List.all_eq_true, Bool.and_eq_true,
      forall₂_and]
    tauto
  · simp [Record.Fits, Record.wellFormed, Record.noDuplicate, Record.within, hn]

/-- A reading succeeds exactly when `fits`, and what it then gives has the property `P`. -/
def ReadsExactly {α : Type} (o : Option α) (fits : Prop) (P : α → Prop) : Prop :=
  (fits → ∃ x, o = some x ∧ P x) ∧ (¬fits → o = none)

section Readings
variable {α : Type} {P : α → Prop} {fits : Prop}

theorem ReadsExactly.of_fits {x : α} (h : fits) (hx : P x) : ReadsExactly (some x) fits P :=
  ⟨fun _ => ⟨x, rfl, hx⟩, fun hn => absurd h hn⟩

theorem ReadsExactly.of_not_fits (h : ¬fits) : ReadsExactly none fits P :=
  ⟨fun hf => absurd hf h, fun _ => rfl⟩

variable (r : Record)

theorem Record.layout_reads {mk : List U8 → List U8 → U32 → U32 → Bool → α}
    (hmk : ∀ pre lab spb psz sc, P (mk pre lab spb psz sc)) :
    ReadsExactly (r.layout mk)
      (r.Fits [(.pre, .u8List), (.lab, .u8List), (.spb, .u32), (.psz, .u32), (.sc, .bit)] []) P := by
  unfold Record.layout
  split
  next hw =>
    split
    next => exact .of_fits (by simp [Record.Fits, *]) (hmk ..)
    next hmiss =>
      refine .of_not_fits fun hfits => ?_
      simp only [Record.Fits, List.forall_mem_cons, Record.any_lookup_u8List, Record.any_lookup_u32,
        Record.any_lookup_bit, Option.isSome_iff_exists] at hfits
      obtain ⟨-, ⟨⟨pre, hpre⟩, ⟨lab, hlab⟩, ⟨spb, hspb⟩, ⟨psz, hpsz⟩, ⟨sc, hsc⟩, -⟩, -⟩ := hfits
      exact hmiss pre lab spb psz sc hpre hlab hspb hpsz hsc
  next hw => exact .of_not_fits fun hfits => hw hfits.1

theorem Record.onlyU8List_reads {f : Field} {mk : List U8 → α} (hmk : ∀ xs, P (mk xs)) :
    ReadsExactly (r.onlyU8List f mk) (r.Fits [(f, .u8List)] []) P := by
  unfold Record.onlyU8List
  split
  next hw =>
    cases h : r.u8List f with
    | none => exact .of_not_fits (by simp [Record.Fits, h])
    | some xs => exact .of_fits (by simp [Record.Fits, h, hw]) (hmk xs)
  next hw => exact .of_not_fits fun hfits => hw hfits.1

theorem Record.onlyU32_reads {f : Field} {mk : U32 → α} (hmk : ∀ x, P (mk x)) :
    ReadsExactly (r.onlyU32 f mk) (r.Fits [(f, .u32)] []) P := by
  unfold Record.onlyU32
  split
  next hw =>
    cases h : r.u32 f with
    | none => exact .of_not_fits (by simp [Record.Fits, h])
    | some x => exact .of_fits (by simp [Record.Fits, h, hw]) (hmk x)
  next hw => exact .of_not_fits fun hfits => hw hfits.1

theorem Record.windows_reads {f : Field} {mk : List U8 → Option (List U32) → U32 → α}
    (hmk : ∀ w sci out, P (mk w sci out)) :
    ReadsExactly (r.windows f mk) (r.Fits [(f, .u8List), (.out, .u32)] [(.sci, .u32List)]) P := by
  unfold Record.windows
  split
  next hw =>
    split
    next => exact .of_fits (by simp [Record.Fits, *]) (hmk ..)
    next hmiss =>
      refine .of_not_fits fun hfits => ?_
      simp only [Record.Fits, List.forall_mem_cons, Record.any_lookup_u8List, Record.any_lookup_u32,
        Record.all_lookup_sci, Option.isSome_iff_exists] at hfits
      obtain ⟨-, ⟨⟨w, hmain⟩, ⟨out, hout⟩, -⟩, ⟨sci, hsci⟩, -⟩ := hfits
      exact hmiss w sci out hmain hsci hout
  next hw => exact .of_not_fits fun hfits => hw hfits.1

theorem Record.dimensions_reads {mk : U32 → U32 → α} (hmk : ∀ p k, P (mk p k)) :
    ReadsExactly (r.dimensions mk) (r.Fits [(.p, .u32), (.k, .u32)] []) P := by
  unfold Record.dimensions
  split
  next hw =>
    split
    next => exact .of_fits (by simp [Record.Fits, *]) (hmk ..)
    next hmiss =>
      refine .of_not_fits fun hfits => ?_
      simp only [Record.Fits, List.forall_mem_cons, Record.any_lookup_u32,
        Option.isSome_iff_exists] at hfits
      obtain ⟨-, ⟨⟨p, hp⟩, ⟨k, hk⟩, -⟩, -⟩ := hfits
      exact hmiss p k hp hk
  next hw => exact .of_not_fits fun hfits => hw hfits.1

theorem Record.alignWindows_reads
    {mk : List U8 → List U8 → List S32 → List U8 → List U8 → List S32 → U32 → α}
    (hmk : ∀ d1 s1 c1 d2 s2 c2 out, P (mk d1 s1 c1 d2 s2 c2 out)) :
    ReadsExactly (r.alignWindows mk)
      (r.Fits [(.d1, .u8List), (.s1, .u8List), (.c1, .s32List), (.d2, .u8List), (.s2, .u8List),
        (.c2, .s32List), (.out, .u32)] []) P := by
  unfold Record.alignWindows
  split
  next hw =>
    split
    next => exact .of_fits (by simp [Record.Fits, *]) (hmk ..)
    next hmiss =>
      refine .of_not_fits fun hfits => ?_
      simp only [Record.Fits, List.forall_mem_cons, Record.any_lookup_u8List, Record.any_lookup_s32List,
        Record.any_lookup_u32, Option.isSome_iff_exists] at hfits
      obtain ⟨-, ⟨⟨d1, hd1⟩, ⟨s1, hs1⟩, ⟨c1, hc1⟩, ⟨d2, hd2⟩, ⟨s2, hs2⟩, ⟨c2, hc2⟩, ⟨out, hout⟩, -⟩, -⟩ :=
        hfits
      exact hmiss d1 s1 c1 d2 s2 c2 out hd1 hs1 hc1 hd2 hs2 hc2 hout
  next hw => exact .of_not_fits fun hfits => hw hfits.1

/-- An operation reads exactly the records of its shape, and reads them as its own instructions. -/
theorem decodeRecord_reads (op : Opcode) :
    ReadsExactly (decodeRecord op r) (r.Fits op.required op.optional) fun i => i.opcode = op := by
  cases op with
  | encReset | decReset => exact r.layout_reads fun _ _ _ _ _ => rfl
  | encSetpre | encSetlab | decSetpre | decSetlab => exact r.onlyU8List_reads fun _ => rfl
  | encSetspb | encSetpsz | decSetspb | decSetpsz => exact r.onlyU32_reads fun _ => rfl
  | encEncode | decDecode => exact r.windows_reads fun _ _ _ => rfl
  | alnReset => exact r.dimensions_reads fun _ _ => rfl
  | alnAlign => exact r.alignWindows_reads fun _ _ _ _ _ _ _ => rfl

end Readings

section Command
variable {op : Opcode} {r : Record} {i : Instr}

theorem decode_word_of_some (h : decodeRecord op r = some i) : decode ⟨op.word, r⟩ = .instr i := by
  simp [decode, opcodeOf_word, h]

theorem decode_word_of_none (h : decodeRecord op r = none) : decode ⟨op.word, r⟩ = .badRecord := by
  simp [decode, opcodeOf_word, h]

theorem decode_illegalWord {c : Command} (h : opcodeOf c.word = none) : decode c = .illegalWord := by
  simp [decode, h]

end Command

/-- Settles O2: the command's word selects its operation, which reads exactly the records of its shape. -/
theorem decodeAcceptsExactlyFittingRecords : Obligations.DecodeAcceptsExactlyFittingRecords := by
  intro op r
  obtain ⟨hfits, hmisfit⟩ := decodeRecord_reads r op
  rw [← Record.wellFormed_iff_fits] at hfits hmisfit
  refine ⟨fun hwf => ?_, fun hwf => decode_word_of_none (hmisfit (by simp [hwf]))⟩
  obtain ⟨i, hi, hop⟩ := hfits hwf
  exact ⟨i, decode_word_of_some hi, hop⟩

/-! ## An instruction is read back from its record -/

section ReadBack
variable {α : Type}

theorem Record.layout_operands (pre lab : List U8) (spb psz : U32) (sc : Bool)
    (mk : List U8 → List U8 → U32 → U32 → Bool → α) :
    Record.layout [(.pre, .ofU8List pre), (.lab, .ofU8List lab), (.spb, .ofU32 spb), (.psz, .ofU32 psz),
      (.sc, .ofBit sc)] mk = some (mk pre lab spb psz sc) := by
  simp [Record.layout, Record.within, Record.u8List, Record.u32, Record.bit, Record.lookup_cons,
    Value.asU8List_ofU8List, Value.asU32_ofU32, Value.asBit_ofBit]

theorem Record.onlyU8List_operand (f : Field) (xs : List U8) (mk : List U8 → α) :
    Record.onlyU8List [(f, .ofU8List xs)] f mk = some (mk xs) := by
  simp [Record.onlyU8List, Record.within, Record.u8List, Value.asU8List_ofU8List]

theorem Record.onlyU32_operand (f : Field) (x : U32) (mk : U32 → α) :
    Record.onlyU32 [(f, .ofU32 x)] f mk = some (mk x) := by
  simp [Record.onlyU32, Record.within, Record.u32, Value.asU32_ofU32]

theorem Record.windows_operands {f : Field} (hsci : .sci ≠ f) (hout : .out ≠ f) (w : List U8)
    (sci : Option (List U32)) (out : U32) (mk : List U8 → Option (List U32) → U32 → α) :
    Record.windows ((f, .ofU8List w) :: (Record.ofSideChannel sci ++ [(.out, .ofU32 out)])) f mk =
      some (mk w sci out) := by
  cases sci <;>
    simp [Record.windows, Record.within, Record.u8List, Record.u32, Record.sideChannel,
      Record.ofSideChannel, Record.lookup_cons, hsci, hsci.symm, hout, hout.symm,
      Value.asU8List_ofU8List, Value.asU32_ofU32, Value.asU32List_ofU32List]

theorem Record.dimensions_operands (p k : U32) (mk : U32 → U32 → α) :
    Record.dimensions [(.p, .ofU32 p), (.k, .ofU32 k)] mk = some (mk p k) := by
  simp [Record.dimensions, Record.within, Record.u32, Record.lookup_cons, Value.asU32_ofU32]

theorem Record.alignWindows_operands (d1 s1 : List U8) (c1 : List S32) (d2 s2 : List U8)
    (c2 : List S32) (out : U32)
    (mk : List U8 → List U8 → List S32 → List U8 → List U8 → List S32 → U32 → α) :
    Record.alignWindows [(.d1, .ofU8List d1), (.s1, .ofU8List s1), (.c1, .ofS32List c1),
      (.d2, .ofU8List d2), (.s2, .ofU8List s2), (.c2, .ofS32List c2), (.out, .ofU32 out)] mk =
      some (mk d1 s1 c1 d2 s2 c2 out) := by
  simp [Record.alignWindows, Record.within, Record.u8List, Record.s32List, Record.u32,
    Record.lookup_cons, Value.asU8List_ofU8List, Value.asS32List_ofS32List, Value.asU32_ofU32]

end ReadBack

theorem decodeRecord_record (i : Instr) : decodeRecord i.opcode i.record = some i := by
  cases i with
  | encReset | decReset => exact Record.layout_operands ..
  | encSetpre | encSetlab | decSetpre | decSetlab => exact Record.onlyU8List_operand ..
  | encSetspb | encSetpsz | decSetspb | decSetpsz => exact Record.onlyU32_operand ..
  | encEncode | decDecode => exact Record.windows_operands (by decide) (by decide) ..
  | alnReset => exact Record.dimensions_operands ..
  | alnAlign => exact Record.alignWindows_operands ..

theorem decode_encode (i : Instr) : decode (encode i) = .instr i :=
  decode_word_of_some (decodeRecord_record i)

/-- What an operation reads is well-formed. -/
theorem Record.wellFormed_of_decodeRecord {op : Opcode} {r : Record} {i : Instr}
    (h : decodeRecord op r = some i) : Record.wellFormed op r = true := by
  rw [Record.wellFormed_iff_fits]
  by_contra hn
  rw [(decodeRecord_reads r op).2 hn] at h
  cases h

/-- Settles O1: each operand is read back from the record, and a record that is read fits. -/
theorem decodeOfEncodeIsTheInstruction : Obligations.DecodeOfEncodeIsTheInstruction :=
  fun i => ⟨Record.wellFormed_of_decodeRecord (decodeRecord_record i), decode_encode i⟩

/-! ## The order of operands -/

/-- Reading a record uses its names and the values looked up, and nothing else of it. -/
theorem decodeRecord_congr {r r' : Record} (hw : ∀ fs, Record.within fs r = Record.within fs r')
    (hl : ∀ f, r.lookup f = r'.lookup f) (op : Opcode) : decodeRecord op r = decodeRecord op r' := by
  cases op <;>
    simp only [decodeRecord, Record.layout, Record.onlyU8List, Record.onlyU32, Record.windows,
      Record.dimensions, Record.alignWindows, Record.u8List, Record.s32List, Record.u32, Record.bit,
      Record.sideChannel, hw, hl]

theorem decodeRecord_perm {r r' : Record} (h : r.Perm r') (op : Opcode) :
    decodeRecord op r = decodeRecord op r' := by
  by_cases hn : (r.map Prod.fst).Nodup
  · exact decodeRecord_congr (Record.within_perm h) (Record.lookup_perm h hn) op
  · have hn' : ¬(r'.map Prod.fst).Nodup := mt (h.map Prod.fst).nodup_iff.mpr hn
    rw [decodeRecord_of_duplicate hn, decodeRecord_of_duplicate hn']

/-- Settles O5: whatever operation the word selects, it reads the two records alike. -/
theorem operandOrderDoesNotMatter : Obligations.OperandOrderDoesNotMatter := by
  intro w r r' h
  simp only [decode, decodeRecord_perm h]

/-! ## Legal words -/

section Words
open Machine

theorem word_eq_fields (w : U16) : w.toNat = unitField w * 4096 + opField w * 256 + zField w := by
  have := w.isLt
  unfold unitField opField zField
  omega

theorem word_ext_fields {w w' : U16} (hunit : unitField w = unitField w') (hop : opField w = opField w')
    (hz : zField w = zField w') : w = w' :=
  BitVec.eq_of_toNat_eq (by rw [word_eq_fields w, word_eq_fields w', hunit, hop, hz])

/-- A word that selects an operation has the three fields of that operation's word (the table of R92). -/
theorem eq_word_of_opcodeOf {w : U16} {op : Opcode} (h : opcodeOf w = some op) : w = op.word := by
  unfold opcodeOf at h
  split at h
  next => cases h
  next hz =>
    have hz : zField w = 0 := not_not.mp hz
    split at h <;> cases h <;> exact word_ext_fields ‹_› ‹_› hz

theorem opcodeOf_eq_some_iff (w : U16) (op : Opcode) : opcodeOf w = some op ↔ w = op.word :=
  ⟨eq_word_of_opcodeOf, fun h => h ▸ opcodeOf_word op⟩

/-- The fourteen operations, in the order of R92. -/
def Opcode.all : List Opcode :=
  [.encReset, .encSetpre, .encSetlab, .encSetspb, .encSetpsz, .encEncode, .decReset, .decSetpre, .decSetlab,
    .decSetspb, .decSetpsz, .decDecode, .alnReset, .alnAlign]

theorem Opcode.mem_all (op : Opcode) : op ∈ Opcode.all := by cases op <;> decide

theorem legalWords_eq : legalWords = Opcode.all.map Opcode.word := rfl

theorem mem_legalWords_iff (w : U16) : w ∈ legalWords ↔ ∃ op : Opcode, w = op.word := by
  simp [legalWords_eq, Opcode.mem_all, eq_comm]

theorem opcodeOf_eq_none_iff (w : U16) : opcodeOf w = none ↔ w ∉ legalWords := by
  rw [mem_legalWords_iff, Option.eq_none_iff_forall_ne_some]
  simp [opcodeOf_eq_some_iff]

/-- Settles O3: an operation is selected by its own word alone, and these words are the table's. -/
theorem legalWordsAreTheFourteen : Obligations.LegalWordsAreTheFourteen :=
  ⟨opcodeOf_eq_none_iff, opcodeOf_eq_some_iff, word_eq_fields⟩

end Words

end Sys2Proof
end

section
/-! PROOF. How a step answers a command it cannot perform (30_encoding.md R93, R94; 60_exceptions.md R271), and
link.reset (30_encoding.md R103). -/

namespace Sys2Proof.Machine

section Answers
variable {s : State} {c : Command} {rest : List Command}

theorem step_of_illegalWord (hp : s.pending = c :: rest) (hd : decode c = .illegalWord) :
    step s = .next ({ s with pending := rest }.answered ⟨.illegal, .nothing⟩) := by
  rw [step, State.fetch_cons hp]
  simp only [hd, State.rejectIllegal_eq]

theorem step_of_badRecord (hp : s.pending = c :: rest) (hd : decode c = .badRecord) :
    step s = .next ({ s with pending := rest }.answered rejection) := by
  rw [step, State.fetch_cons hp]
  simp only [hd, State.reject_eq]

end Answers

/-- Settles O6: the word selects no operation, so the command decodes to an illegal word. -/
theorem illegalWordIsAnsweredIllegal : Obligations.IllegalWordIsAnsweredIllegal :=
  fun _ c _ hp hw => step_of_illegalWord hp (decode_illegalWord ((opcodeOf_eq_none_iff c.word).mpr hw))

/-- Settles O7: the record decodes to a bad record; a RUN whose side channel does not agree with SC is not
accepted. -/
theorem unfittingRecordIsRejected : Obligations.UnfittingRecordIsRejected := by
  refine ⟨fun s op r rest hp hr => ?_, fun s pay sci out hsc => ?_, fun s raw sci out hsc => ?_⟩
  · exact step_of_badRecord hp ((decodeAcceptsExactlyFittingRecords op r).2 hr)
  · rcases execEncEncode_cases pay sci out s with ⟨-, e⟩ | ⟨-, hfits, -⟩
    · exact e
    · exact absurd hfits hsc
  · rcases execDecDecode_cases raw sci out s with ⟨-, e⟩ | ⟨-, hfits, -⟩
    · exact e
    · exact absurd hfits hsc

/-! ## link.reset -/

/-- A pending command issued as an instruction's encoding runs that instruction. -/
theorem step_of_encode {s : State} {i : Instr} {rest : List Command} (hp : s.pending = encode i :: rest) :
    step s = exec i { s with pending := rest } :=
  stepRunsTheDecodedInstruction s _ rest i hp (decode_encode i)

section Reset
variable {s : State} {pre lab : List U8} {spb psz : U32} {sc : Bool} {rest : List Command} {u : FrameRegs}

/-- Either reset loads the registers that `FrameRegs.afterReset` gives for its layout (R170, R200). -/
theorem step_encReset (hp : s.pending = encode (.encReset pre lab spb psz sc) :: rest)
    (hu : FrameRegs.afterReset s.params pre lab spb psz sc = some u) :
    step s = .next ({ s with enc := ⟨u, 0⟩, pending := rest }.answered acceptance) := by
  simp only [step_of_encode hp, exec, execEncReset, hu, State.accept_eq]

theorem step_decReset (hp : s.pending = encode (.decReset pre lab spb psz sc) :: rest)
    (hu : FrameRegs.afterReset s.params pre lab spb psz sc = some u) :
    step s = .next ({ s with dec := u, pending := rest }.answered acceptance) := by
  simp only [step_of_encode hp, exec, execDecReset, hu, State.configureDec, State.accept_eq]

end Reset

theorem run_two {s t t' : State} (h : step s = .next t) (h' : step t = .next t') :
    Host.Core.run Sys2Proof.core 2 s = .next t' := by
  have hs : Sys2Proof.core.step s = .next t := h
  have ht : Sys2Proof.core.step t = .next t' := h'
  simp only [Host.Core.run, hs, ht]

/-- Settles O23: the two resets read the same operands and parameters, so they load the same registers. -/
theorem linkResetConfiguresBothEnds : Obligations.LinkResetConfiguresBothEnds := by
  intro s pre lab spb psz sc rest hl hp
  obtain ⟨u, hu, hconf⟩ := FrameRegs.afterReset_some sc hl
  refine ⟨u, hconf, ?_⟩
  rw [run_two (step_encReset hp hu) (step_decReset rfl hu)]
  simp [State.answered]

end Sys2Proof.Machine
end

section
/-! PROOF. Words and lines written out from the spec's tables (30_encoding.md R92, R94, R102, R103). -/

namespace Sys2Proof.Machine

/-- Settles O4: each legal command is an instruction's encoding, the last of them with its operands in the
other order. -/
theorem wordsOfTheSpecDecode : Obligations.WordsOfTheSpecDecode := by
  refine ⟨decode_encode (.encReset [0, 0, 1, 1] [65] 1 8 false),
    decode_encode (.encEncode [5, 6] (some [100, 200]) 20), decode_encode (.decSetpsz 2),
    decode_encode (.decDecode [] none 8), ?_, decode_illegalWord (by decide), decode_illegalWord (by decide)⟩
  rw [operandOrderDoesNotMatter _ _ _ (.swap ..)]
  exact decode_encode (.alnReset 2 3)

/-- Settles O8: the four lines are closed, and the assembler runs on each. -/
theorem linesOfTheSpecAssemble : Obligations.LinesOfTheSpecAssemble :=
  ⟨by decide, by decide, by decide, by decide⟩

end Sys2Proof.Machine
end

section
/-! PROOF. The PatternMatcher (40_primitives.md R140 to R143). -/

namespace Sys2Proof.Machine

section Accept
variable {minSum haystack needle : Nat}

theorem accept_tolGlobal :
    accept .tolGlobal minSum haystack needle = true ↔ 4 * minSum ≤ 3 * (haystack - needle) :=
  decide_eq_true_iff

theorem accept_tolNeedle : accept .tolNeedle minSum haystack needle = true ↔ 4 * minSum ≤ needle :=
  decide_eq_true_iff

end Accept

section Matcher
variable {h n : List U8}

/-- Offset k is examined and its distance is the first zero (R141). -/
def FirstZero (h n : List U8) (k : Nat) : Prop :=
  k + n.length < h.length ∧ dist h n k = 0 ∧ ∀ t < k, dist h n t ≠ 0

/-- Offset k is examined, no examined distance is zero, and k's is the first of the least (R141). -/
def FirstLeast (h n : List U8) (k : Nat) : Prop :=
  k + n.length < h.length ∧
    (∀ t, t + n.length < h.length → 0 < dist h n t ∧ dist h n k ≤ dist h n t) ∧
    ∀ t < k, dist h n k < dist h n t

theorem FirstZero.unique {k l : Nat} (hk : FirstZero h n k) (hl : FirstZero h n l) : k = l := by
  obtain ⟨-, hk0, hkf⟩ := hk
  obtain ⟨-, hl0, hlf⟩ := hl
  rcases Nat.lt_trichotomy k l with hlt | rfl | hlt
  · exact absurd hk0 (hlf k hlt)
  · rfl
  · exact absurd hl0 (hkf l hlt)

theorem FirstLeast.unique {k l : Nat} (hk : FirstLeast h n k) (hl : FirstLeast h n l) : k = l := by
  obtain ⟨hkr, hkm, hkf⟩ := hk
  obtain ⟨hlr, hlm, hlf⟩ := hl
  have hkl := (hkm l hlr).2
  have hlk := (hlm k hkr).2
  rcases Nat.lt_trichotomy k l with hlt | rfl | hlt
  · have := hlf k hlt; omega
  · rfl
  · have := hkf l hlt; omega

theorem FirstZero.not_firstLeast {k l : Nat} (hk : FirstZero h n k) : ¬FirstLeast h n l := by
  obtain ⟨hkr, hk0, -⟩ := hk
  rintro ⟨-, hlm, -⟩
  exact Nat.ne_of_gt (hlm k hkr).1 hk0

/-- The three ways R141 ends: at the first zero, without an offset to examine, or at the first least sum. -/
theorem matchPattern_ends (tol : MatchTol) (h n : List U8) :
    (∃ k, FirstZero h n k ∧ matchPattern tol h n = some ⟨k, .exact⟩) ∨
    (h.length ≤ n.length ∧ matchPattern tol h n = none) ∨
    ∃ k, FirstLeast h n k ∧ matchPattern tol h n =
      if accept tol (dist h n k) h.length n.length then some ⟨k, .best⟩ else none := by
  rcases matchPattern_cases tol h n with ⟨k, hm, hk, hz, hne⟩ | ⟨hm, hz⟩ | ⟨k, hk, hall, hfirst, hm⟩
  · exact .inl ⟨k, ⟨by omega, hz, hne⟩, hm⟩
  · exact .inr (.inl ⟨by omega, hm⟩)
  · refine .inr (.inr ⟨k, ⟨by omega, fun t ht => ?_, hfirst⟩, hm⟩)
    obtain ⟨hpos, hle⟩ := hall t (by omega)
    exact ⟨Nat.pos_of_ne_zero hpos, hle⟩

theorem FirstZero.matchPattern_eq {k : Nat} (hk : FirstZero h n k) (tol : MatchTol) :
    matchPattern tol h n = some ⟨k, .exact⟩ := by
  rcases matchPattern_ends tol h n with ⟨l, hl, hm⟩ | ⟨hshort, -⟩ | ⟨l, hl, -⟩
  · rw [hm, hk.unique hl]
  · have := hk.1; omega
  · exact absurd hl hk.not_firstLeast

theorem FirstLeast.matchPattern_eq {k : Nat} (hk : FirstLeast h n k) (tol : MatchTol) :
    matchPattern tol h n =
      if accept tol (dist h n k) h.length n.length then some ⟨k, .best⟩ else none := by
  rcases matchPattern_ends tol h n with ⟨l, hl, -⟩ | ⟨hshort, -⟩ | ⟨l, hl, hm⟩
  · exact absurd hk hl.not_firstLeast
  · have := hk.1; omega
  · rw [hm, hk.unique hl]

theorem matchPattern_eq_exact_iff {tol : MatchTol} {k : Nat} :
    matchPattern tol h n = some ⟨k, .exact⟩ ↔ FirstZero h n k := by
  refine ⟨fun hr => ?_, fun hk => hk.matchPattern_eq tol⟩
  rcases matchPattern_ends tol h n with ⟨l, hl, hm⟩ | ⟨-, hm⟩ | ⟨l, -, hm⟩ <;> rw [hm] at hr
  · cases hr; exact hl
  · cases hr
  · split at hr <;> cases hr

theorem matchPattern_eq_best_iff {tol : MatchTol} {k : Nat} :
    matchPattern tol h n = some ⟨k, .best⟩ ↔
      FirstLeast h n k ∧ accept tol (dist h n k) h.length n.length = true := by
  refine ⟨fun hr => ?_, fun ⟨hk, ha⟩ => by rw [hk.matchPattern_eq, if_pos ha]⟩
  rcases matchPattern_ends tol h n with ⟨l, -, hm⟩ | ⟨-, hm⟩ | ⟨l, hl, hm⟩ <;> rw [hm] at hr
  · cases hr
  · cases hr
  · split at hr <;> cases hr
    exact ⟨hl, ‹_›⟩

/-- R143: an examined sum that the tolerance accepts makes a match, whichever it is. -/
theorem matchPattern_ne_none_of_accept {tol : MatchTol} {t : Nat} (ht : t + n.length < h.length)
    (ha : ∀ m ≤ dist h n t, accept tol m h.length n.length = true) : matchPattern tol h n ≠ none := by
  rcases matchPattern_ends tol h n with ⟨k, -, hm⟩ | ⟨hshort, -⟩ | ⟨k, ⟨-, hmin, -⟩, hm⟩
  · simp [hm]
  · omega
  · simp [hm, ha _ (hmin t ht).2]

/-- R143: without a zero and without an examined sum that the tolerance accepts there is no match. -/
theorem matchPattern_eq_none_of_reject {tol : MatchTol}
    (hr : ∀ t, t + n.length < h.length →
      dist h n t ≠ 0 ∧ ¬accept tol (dist h n t) h.length n.length = true) :
    matchPattern tol h n = none := by
  rcases matchPattern_ends tol h n with ⟨k, ⟨hk, hz, -⟩, -⟩ | ⟨-, hm⟩ | ⟨k, ⟨hk, -⟩, hm⟩
  · exact absurd hz (hr k hk).1
  · exact hm
  · rw [hm, if_neg (hr k hk).2]

/-- The distance of bit-valued lists counts at most one for each item of the needle. -/
theorem dist_le_of_isBit (hh : ∀ b ∈ h, b = 0 ∨ b = 1) (hn : ∀ b ∈ n, b = 0 ∨ b = 1) (t : Nat) :
    dist h n t ≤ n.length := by
  have hone : ∀ d ∈ List.zipWith absDiff (h.drop t) n, d ≤ 1 := fun d hd => by
    rw [← List.map_uncurry_zip_eq_zipWith] at hd
    obtain ⟨⟨x, y⟩, hxy, rfl⟩ := List.mem_map.mp hd
    rcases hh x (List.mem_of_mem_drop (List.of_mem_zip hxy).1) with rfl | rfl <;>
      rcases hn y (List.of_mem_zip hxy).2 with rfl | rfl <;> decide
  calc dist h n t ≤ (List.zipWith absDiff (h.drop t) n).length • 1 := List.sum_le_card_nsmul _ 1 hone
    _ ≤ n.length := by simp

end Matcher

/-- Settles O33, from the three ends of the scan, each of which fixes its offset. -/
theorem matcherFollowsItsRule : Obligations.MatcherFollowsItsRule := by
  intro tol h n _
  refine ⟨fun t ht => dist_eq_sum ht, fun k => matchPattern_eq_exact_iff, fun k => ?_⟩
  cases tol with
  | tolGlobal => simp only [matchPattern_eq_best_iff, accept_tolGlobal, FirstLeast, and_assoc]
  | tolNeedle => simp only [matchPattern_eq_best_iff, accept_tolNeedle, FirstLeast, and_assoc]

/-- Settles O34: each consequence compares an examined sum with what the tolerance accepts. -/
theorem matcherConsequences : Obligations.MatcherConsequences := by
  intro h n hn
  have hglobal : ∀ t, t + n.length < h.length → dist h n t ≤ n.length →
      4 * n.length ≤ 3 * (h.length - n.length) → matchPattern .tolGlobal h n ≠ none :=
    fun t ht hd hlen => matchPattern_ne_none_of_accept ht fun m hm => accept_tolGlobal.mpr (by omega)
  refine ⟨fun tol k hk hz hne => FirstZero.matchPattern_eq ⟨hk, hz, hne⟩ tol,
    fun tol => matchPattern_short tol, ?_, fun hh hb hlen => ?_, fun hd => ?_⟩
  · rintro ⟨t, ht, hd⟩
    exact hglobal t ht hd
  · exact hglobal 0 (by omega) (dist_le_of_isBit hh hb 0) (by omega)
  · refine matchPattern_eq_none_of_reject fun t ht => ?_
    rw [hd t ht, accept_tolNeedle]
    omega

end Sys2Proof.Machine
end

section
/-! PROOF. ArrayOps (40_primitives.md R131 to R137). -/

namespace Sys2Proof.Machine

section Copy
variable {α : Type}

theorem length_copy {src : List α} {len : Nat} (h : len ≤ src.length) : (copy src len).length = len :=
  List.length_take_of_le h

theorem getElem?_copy {i len : Nat} (src : List α) (h : i < len) : (copy src len)[i]? = src[i]? :=
  List.getElem?_take_of_lt h

end Copy

/-- Settles O35, each operation by the lemmas that say its length and its items. -/
theorem arrayOpsItemByItem : Obligations.ArrayOpsItemByItem :=
  ⟨fun n v => ⟨length_fill n v, fun _ hi => getElem?_fill v hi⟩,
    fun src _ hl => ⟨length_copy hl, fun _ hi => getElem?_copy src hi⟩,
    fun src ratio _ => ⟨length_interpolate src ratio, fun x _ _ hr => getElem?_interpolate src x hr⟩,
    fun src _ hr => decimate_spec src hr⟩

/-- Settles O36: the sum of R135 undoes R134, and 16 items of at most 255 bound it by 255 · 65535. -/
theorem bitConversionsAreInverse : Obligations.BitConversionsAreInverse :=
  ⟨fun n len => ⟨length_numberToBits n len, fun _ hi => getElem?_numberToBits n hi⟩,
    fun bits len _ => bitsToNumber_eq_sum bits len, bitsToNumber_numberToBits,
    fun bits _ => bitsToNumber_le bits 16⟩

/-! ## linearMap and weightedAverage -/

theorem getElem?_linearMap {src : List ℚ} {i : Nat} (a b : ℚ) (h : i < src.length) :
    (linearMap src a b)[i]? = some (src[i] * a + b) := by
  simp [linearMap, h]

/-- What `f` gives at the indices c − k and c + k, each where it is in range (R137). -/
def bothSides (c len k : Nat) (f : Nat → ℚ) : ℚ :=
  (if k ≤ c then f (c - k) else 0) + (if c + k < len then f (c + k) else 0)

section Average
variable {buf weights : List ℚ} {c len : Nat}

/-- One more term of R137 adds both of its sides to each running sum. -/
theorem weightedSums_succ {m : Nat} (w0 b0 : ℚ) (hc : c < len) (hlen : len ≤ buf.length)
    (hm : m + 1 < weights.length) :
    weightedSums buf weights c len w0 b0 (m + 1) =
      ((weightedSums buf weights c len w0 b0 m).1 +
          bothSides c len (m + 1) fun i => weights[m + 1]?.getD 0 * buf[i]?.getD 0,
        (weightedSums buf weights c len w0 b0 m).2 +
          bothSides c len (m + 1) fun _ => weights[m + 1]?.getD 0) := by
  have hlow : c - (m + 1) < buf.length := by omega
  simp only [weightedSums, bothSides, List.getElem?_eq_getElem hm, List.getElem?_eq_getElem hlow]
  by_cases hk : m + 1 ≤ c <;> by_cases hr : c + (m + 1) < len
  · simp [hk, hr, hr.trans_le hlen, add_assoc]
  · simp [hk, hr]
  · simp [hk, hr, hr.trans_le hlen]
  · simp [hk, hr]

theorem weightedSums_eq {m : Nat} (w0 b0 : ℚ) (hc : c < len) (hlen : len ≤ buf.length)
    (hm : m < weights.length) :
    weightedSums buf weights c len w0 b0 m =
      (w0 * b0 + ((List.range m).map fun j =>
          bothSides c len (j + 1) fun i => weights[j + 1]?.getD 0 * buf[i]?.getD 0).sum,
        w0 + ((List.range m).map fun j =>
          bothSides c len (j + 1) fun _ => weights[j + 1]?.getD 0).sum) := by
  induction m with
  | zero => simp [weightedSums]
  | succ m ih =>
    rw [weightedSums_succ w0 b0 hc hlen hm, ih (by omega)]
    simp [List.range_succ, add_assoc]

/-- Within the domain of R137, `weightedAverage` divides the running sums after the last weight. -/
theorem weightedAverage_eq {wl : Nat} (hc : c < len) (hlen : len ≤ buf.length) (hwl : 1 ≤ wl)
    (hw : wl ≤ weights.length) :
    let sums := weightedSums buf weights c len (weights[0]?.getD 0) (buf[c]?.getD 0) (wl - 1)
    weightedAverage buf weights c len wl = if sums.2 = 0 then none else some (sums.1 / sums.2) := by
  have hw0 : 0 < weights.length := by omega
  have hb : c < buf.length := by omega
  simp [weightedAverage, hc, hlen, hw, hw0, hb]

end Average

/-- Settles O37: the running sums of `weightedAverage` are the two sums of R137. -/
theorem averagesFollowTheirFormulas : Obligations.AveragesFollowTheirFormulas := by
  refine ⟨fun src a b i hi => getElem?_linearMap a b hi, fun buf weights c len wl hc hlen hwl hw => ?_⟩
  have h := weightedAverage_eq hc hlen hwl hw
  rw [weightedSums_eq _ _ hc hlen (by omega)] at h
  exact h

end Sys2Proof.Machine
end

section
/-! PROOF. The RingBank (40_primitives.md R150 to R156). -/

namespace Sys2Proof.Machine

/-- Settles O38, operation by operation. -/
theorem bankIsAQueueOfFive : Obligations.BankIsAQueueOfFive := by
  refine fun b item h => ⟨h.length_contents, fun hlt => ?_, fun hfull => h.push_full hfull item,
    Bank.pop_empty, fun hpos => ?_⟩
  · obtain ⟨hinv, hcontents, hocc, -⟩ := h.push_room hlt item
    exact ⟨hinv, hcontents, hocc⟩
  · obtain ⟨oldest, slot, b', hpop, hinv, hcontents, hocc, hfreed, hempty, -⟩ := h.pop_some hpos
    exact ⟨oldest, slot, b', hpop, hinv, hcontents, hocc, hfreed, hempty⟩

/-- Pushes of at most five packets into an empty bank are its contents. -/
theorem Bank.Inv.pushAll_empty {b : Bank} (h : b.Inv) (h0 : b.occ = 0) {items : List (List U8)}
    (hl : items.length ≤ 5) :
    (b.pushAll items).Inv ∧ (b.pushAll items).contents = items ∧
      (b.pushAll items).occ = items.length := by
  obtain ⟨hinv, hcontents, hocc, -⟩ :=
    h.pushAll_room (P := fun _ => True) (fun _ _ _ => trivial) items (fun _ _ => trivial) (by omega)
  have hnil : b.contents = [] := List.eq_nil_of_length_eq_zero (h.length_contents.trans h0)
  exact ⟨hinv, by simpa [hnil] using hcontents, by omega⟩

/-- As many pops as a bank holds packets give its contents and leave it empty. -/
theorem Bank.Inv.popMany_occ {b : Bank} (h : b.Inv) :
    (Bank.popMany b.occ b).1 = b.contents ∧ (Bank.popMany b.occ b).2.occ = 0 := by
  obtain ⟨hitems, -, -, hocc, -⟩ :=
    h.popMany_spec (P := fun _ => True) (fun _ _ _ => trivial) b.occ le_rfl
  exact ⟨hitems.trans (List.take_of_length_le h.length_contents.le), by omega⟩

/-- Settles O39: the pushed packets are the contents, which pops return and one more push shifts. -/
theorem bankIsFirstInFirstOut : Obligations.BankIsFirstInFirstOut := by
  refine fun b items h => ⟨fun h0 hl => ?_, fun item h0 hl => ?_, Bank.clear_inv h.slotCount,
    Bank.pop_empty (Bank.clear_occ b)⟩
  · obtain ⟨hinv, hcontents, hocc⟩ := h.pushAll_empty h0 hl
    obtain ⟨hitems, hleft⟩ := hinv.popMany_occ
    rw [hocc] at hitems hleft
    exact ⟨hitems.trans hcontents, hleft⟩
  · obtain ⟨hinv, hcontents, hocc⟩ := h.pushAll_empty h0 hl.le
    obtain ⟨-, hpush, -⟩ := hinv.push_full (hocc.trans hl) item
    rw [hpush, hcontents]

end Sys2Proof.Machine
end

section
/-! PROOF. ENC's configuration commands (41_encoder.md R170 to R175), what ENC.ENCODE emits (R176, R177), and
the counting of its frames from a reset on (R178). -/

namespace Sys2Proof.Machine

/-! ## Configuration -/

/-- Settles O19: the layout is valid or not, and the reset does one thing in each case. -/
theorem encResetLoadsTheLayout : Obligations.EncResetLoadsTheLayout := by
  intro s pre lab spb psz sc
  rcases execEncReset_cases pre lab spb psz sc s with ⟨hbad, e⟩ | ⟨hok, u, hu, e⟩
  · exact ⟨fun h => absurd h hbad, fun _ => e⟩
  · exact ⟨fun _ => ⟨u, hu, e⟩, fun h => absurd hok h⟩

/-- An instruction that reconfigures ENC to a layout takes it when ENC is configured and the layout valid,
with SC and the counter as they were, and is rejected otherwise. -/
theorem encTakes_of_relaid {i : Instr} {s : State} {pre lab : List U8} {spb psz : U32}
    (hi : exec i s = s.configureEnc (s.enc.regs.relaid s.params pre lab spb psz)) :
    (s.enc.regs.cfgd = true → LayoutOk s.params pre lab spb psz →
      EncTakes i s pre lab spb psz s.enc.regs.sc s.enc.cnt) ∧
      (s.enc.regs.cfgd = false ∨ ¬LayoutOk s.params pre lab spb psz → Rejected i s) := by
  refine ⟨fun hc hl => ?_, fun h => ?_⟩
  · obtain ⟨v, hv, hconf⟩ := FrameRegs.relaid_some hc hl
    exact ⟨v, hconf, by rw [hi, hv]; rfl⟩
  · rw [Rejected, hi, FrameRegs.relaid_none h]; rfl

/-- Settles O21: each setter relays ENC with one parameter of the old layout replaced. -/
theorem encSettersReplaceOneParameter : Obligations.EncSettersReplaceOneParameter :=
  fun _ _ _ _ _ => ⟨encTakes_of_relaid rfl, encTakes_of_relaid rfl, encTakes_of_relaid rfl,
    encTakes_of_relaid rfl⟩

/-! ## ENC.ENCODE -/

theorem exec_encEncode_of_fits {s : State} {sci : Option (List U32)} (hc : s.enc.regs.cfgd = true)
    (hsc : s.enc.regs.sc = sci.isSome) (pay : List U8) (out : U32) :
    exec (.encEncode pay sci out) s = .next
      ({ s with enc := ⟨s.enc.regs,
          BitVec.ofNat 16 (s.enc.cnt.toNat + encCount s.enc.regs pay sci out)⟩ }.answered
        ⟨.ok, .enc (encRun s.enc pay sci out)⟩) := by
  rcases execEncEncode_cases pay sci out s with ⟨hno, -⟩ | ⟨-, -, e⟩
  · exact absurd ⟨hc, hsc⟩ hno
  · exact e

/-- The frame count in the spec's words (R176). -/
theorem encCount_eq {u : FrameRegs} {pre lab : List U8} {spb psz : U32} {sc : Bool}
    (hu : Configured u pre lab spb psz sc) (pay : List U8) (sci : Option (List U32)) (out : U32) :
    encCount u pay sci out =
      min ((sci.elim pay.length fun xs => min pay.length xs.length) / psz.toNat)
        (out.toNat / wireLength pre lab spb psz) := by
  rw [encCount, available_eq, hu.pszHeld, hu.flHeld]

/-- Settles O24: the chunks ENC counts are whole ones, so its frames and its side-channel frames are the
tables of R95 and R97. -/
theorem encodeFramesWholeChunks : Obligations.EncodeFramesWholeChunks := by
  intro s pay sci out hs hc hsc u p fl avail m
  obtain ⟨⟨-, -, -, -, ⟨hspb, -⟩, -⟩, hu⟩ := hs.encInv hc
  have hfl : u.fl = fl := hu.flHeld
  have hm : encCount u pay sci out = m := encCount_eq hu pay sci out
  have hwhole : encCount u pay sci out * p ≤ available pay sci := encCount_mul_psz
  obtain ⟨hlength, hitems⟩ := encFrames_spec hu hspb s.enc.cnt (hwhole.trans (available_le_main ..))
  rw [← hm, ← hfl]
  refine ⟨encRun s.enc pay sci out, exec_encEncode_of_fits hc hsc pay out, rfl, rfl, hlength, hitems,
    ?_, ?_⟩
  · rintro rfl; rfl
  · rintro xs rfl
    exact ⟨_, rfl, encSideFrames_spec hu (hwhole.trans (available_le_side pay xs))⟩

/-! ## The counter -/

section Counting
variable {i : Instr} {is : List Instr} {s t : State}

theorem configureEnc_cnt {o : Option FrameRegs} (h : s.configureEnc o = .next t) :
    t.enc.cnt = s.enc.cnt := by
  rcases s.configureEnc_cases o with ⟨-, e⟩ | ⟨u, -, e⟩
  all_goals rw [Host.Outcome.next.inj (h.symm.trans e)]; rfl

/-- Every command but enc.reset adds to CNT the frames it emits (R175, R176, R178). -/
theorem exec_cnt (hi : i.opcode ≠ .encReset) (h : exec i s = .next t) :
    t.enc.cnt = s.enc.cnt + BitVec.ofNat 16 (framesOf i s) := by
  have hkeep (hf : framesOf i s = 0) (he : t.enc.cnt = s.enc.cnt) :
      t.enc.cnt = s.enc.cnt + BitVec.ofNat 16 (framesOf i s) := by
    rw [hf, he]; exact (BitVec.add_zero _).symm
  cases i with
  | encReset => exact absurd rfl hi
  | encSetpre => exact hkeep rfl (configureEnc_cnt h)
  | encSetlab => exact hkeep rfl (configureEnc_cnt h)
  | encSetspb => exact hkeep rfl (configureEnc_cnt h)
  | encSetpsz => exact hkeep rfl (configureEnc_cnt h)
  | encEncode pay sci out =>
    rcases execEncEncode_cases pay sci out s with ⟨hno, e⟩ | ⟨hc, hsc, e⟩
    · exact hkeep (if_neg hno) (by rw [Host.Outcome.next.inj (h.symm.trans e)]; rfl)
    · rw [Host.Outcome.next.inj (h.symm.trans e), framesOf, if_pos ⟨hc, hsc⟩, cnt_add]; rfl
  | _ => exact hkeep rfl (congrArg Enc.cnt ((commandTouchesOnlyItsUnit _ s t h).1 nofun))

/-- The first command of a list is performed, then the others. -/
theorem execAll_cons (h : exec i s = .next t) : execAll (i :: is) s = execAll is t := by
  rw [execAll, h]

theorem framesEmitted_cons (h : exec i s = .next t) :
    framesEmitted (i :: is) s = framesOf i s + framesEmitted is t := by
  rw [framesEmitted, h]

/-- Commands performed in order keep the invariant and, with no enc.reset among them, add to CNT the frames
they emit. -/
theorem State.Inv.execAll_keeps (hs : s.Inv) (his : ∀ i ∈ is, i.opcode ≠ .encReset)
    (h : execAll is s = .next t) :
    t.Inv ∧ t.enc.cnt = s.enc.cnt + BitVec.ofNat 16 (framesEmitted is s) := by
  induction is generalizing s with
  | nil =>
    obtain rfl := Host.Outcome.next.inj h
    exact ⟨hs, (BitVec.add_zero _).symm⟩
  | cons i is ih =>
    obtain ⟨hi, his⟩ := List.forall_mem_cons.mp his
    obtain ⟨a, e, ha⟩ := hs.exec_keeps i
    obtain ⟨ht, hcnt⟩ := ih ha his ((execAll_cons e).symm.trans h)
    refine ⟨ht, ?_⟩
    rw [hcnt, exec_cnt hi e, framesEmitted_cons e, BitVec.ofNat_add, BitVec.add_assoc]

end Counting

/-- An item of one of `n` blocks of `len` items stands within the blocks. -/
theorem mul_add_lt_mul {n len b r : Nat} (hb : b < n) (hr : r < len) : b * len + r < n * len :=
  calc b * len + r < (b + 1) * len := by rw [Nat.add_mul]; omega
    _ ≤ n * len := Nat.mul_le_mul_right _ hb

/-- Each of the SPB items of a counter bit, and not only the first (R95). -/
theorem wireItem_counter_held (pre lab : List U8) {spb : U32} (c : Nat) (chunk : List U8) {b r : Nat}
    (hb : b < 16) (hr : r < spb.toNat) :
    wireItem pre lab spb c chunk (headerLength pre lab spb + b * spb.toNat + r) =
      some (BitVec.ofNat 8 (c / 2 ^ b % 2)) := by
  have hbit : (b * spb.toNat + r) / spb.toNat = b := by
    rw [Nat.mul_comm, Nat.mul_add_div (by omega), Nat.div_eq_of_lt hr, Nat.add_zero]
  have hend := mul_add_lt_mul hb hr
  rw [wireItem, if_neg (by omega), if_pos (by omega), Nat.add_assoc, Nat.add_sub_cancel_left, hbit]

/-- Settles O25: before the ENCODE, CNT is the number of frames emitted, modulo 2^16, and each frame holds CNT
plus its own number. -/
theorem framesAreCountedFromTheReset : Obligations.FramesAreCountedFromTheReset := by
  intro s t is pay sci out hs h0 his ht hc hsc
  obtain ⟨hinv, hcnt⟩ := hs.execAll_keeps his ht
  obtain ⟨⟨-, -, -, -, ⟨hspb, -⟩, -⟩, hu⟩ := hinv.encInv hc
  have hcount : t.enc.cnt.toNat = framesEmitted is s % 65536 := by
    rw [hcnt, h0, toNat_cnt_add]; simp
  have hframes : framesOf (.encEncode pay sci out) t = encCount t.enc.regs pay sci out :=
    if_pos ⟨hc, hsc⟩
  refine ⟨_, encRun t.enc pay sci out, exec_encEncode_of_fits hc hsc pay out,
    State.lastResult_answered .., fun f hf b hb r hr => ?_⟩
  have hin : t.enc.regs.n + b * t.enc.regs.spb.toNat + r < t.enc.regs.fl := by
    have hend := mul_add_lt_mul hb hr
    rw [hu.fl_eq, hu.hdrtLength, hu.nHeld]; omega
  obtain ⟨-, hitems⟩ := encFrames_spec hu hspb t.enc.cnt
    (encCount_mul_psz.trans (available_le_main pay sci))
  have hitem := hitems f (hframes ▸ hf) _ hin
  rw [hu.nHeld, wireItem_counter_held _ _ _ _ hb hr, hcount, Nat.mod_add_mod] at hitem
  rw [hu.nHeld, Nat.add_assoc _ _ (b * _), Nat.add_assoc]
  exact hitem

end Sys2Proof.Machine
end

section
/-! PROOF. DEC's configuration commands (42_decoder.md R200 to R205), the three paths of DEC.DECODE (R206 to
R210), and what DEC makes of a stream of whole frames (R211, 70_reset_and_hazards.md R306). -/

namespace Sys2Proof.Machine

/-! ## Configuration -/

/-- Settles O20: the layout is valid or not, and the reset does one thing in each case. -/
theorem decResetLoadsTheLayout : Obligations.DecResetLoadsTheLayout := by
  intro s pre lab spb psz sc
  rcases execDecReset_cases pre lab spb psz sc s with ⟨hbad, e⟩ | ⟨hok, u, hu, e⟩
  · exact ⟨fun h => absurd h hbad, fun _ => e⟩
  · exact ⟨fun _ => ⟨u, hu, e⟩, fun h => absurd hok h⟩

/-- An instruction that reconfigures DEC to a layout takes it when DEC is configured and the layout valid,
with SC as it was, and is rejected otherwise. -/
theorem decTakes_of_relaid {i : Instr} {s : State} {pre lab : List U8} {spb psz : U32}
    (hi : exec i s = s.configureDec (s.dec.relaid s.params pre lab spb psz)) :
    (s.dec.cfgd = true → LayoutOk s.params pre lab spb psz →
      DecTakes i s pre lab spb psz s.dec.sc) ∧
      (s.dec.cfgd = false ∨ ¬LayoutOk s.params pre lab spb psz → Rejected i s) := by
  refine ⟨fun hc hl => ?_, fun h => ?_⟩
  · obtain ⟨v, hv, hconf⟩ := FrameRegs.relaid_some hc hl
    exact ⟨v, hconf, by rw [hi, hv]; rfl⟩
  · rw [Rejected, hi, FrameRegs.relaid_none h]; rfl

/-- Settles O22: each setter relays DEC with one parameter of the old layout replaced. -/
theorem decSettersReplaceOneParameter : Obligations.DecSettersReplaceOneParameter :=
  fun _ _ _ _ _ => ⟨decTakes_of_relaid rfl, decTakes_of_relaid rfl, decTakes_of_relaid rfl,
    decTakes_of_relaid rfl⟩

/-! ## DEC.DECODE, path by path -/

/-- An accepted DECODE answers its run. -/
theorem exec_decDecode_of_fits {s : State} {raw : List U8} {sci : Option (List U32)} {out : U32}
    {run : DecRun} (hc : s.dec.cfgd = true) (hsc : s.dec.sc = sci.isSome)
    (hrun : decRun s.params.matchTol s.dec raw sci out = run) :
    exec (.decDecode raw sci out) s = .next (s.answered ⟨.ok, .dec run⟩) := by
  subst hrun
  rcases execDecDecode_cases raw sci out s with ⟨hno, -⟩ | ⟨-, -, e⟩
  · exact absurd ⟨hc, hsc⟩ hno
  · exact e

section Paths
variable {tol : MatchTol} {u : FrameRegs} {raw : List U8} {sci : Option (List U32)} {out : U32}

theorem decRun_of_nothing (h : available raw sci = 0 ∨ out.toNat / u.psz.toNat = 0) :
    decRun tol u raw sci out = ⟨0, 0, [], [], [], sci.map fun _ => []⟩ := by
  rcases decRun_cases tol u raw sci out with ⟨-, e⟩ | ⟨hinput, hroom, -⟩ | ⟨r, hinput, hroom, -⟩
  · exact e
  · omega
  · omega

theorem decRun_of_noMatch (hinput : 0 < available raw sci) (hroom : 0 < out.toNat / u.psz.toNat)
    (hm : matchPattern tol (raw.take (available raw sci)) u.hdrt = none) :
    decRun tol u raw sci out =
      decLossOfSync (out.toNat / u.psz.toNat * u.psz.toNat) (available raw sci) sci.isSome := by
  rcases decRun_cases tol u raw sci out with ⟨hnone, -⟩ | ⟨-, -, -, e⟩ | ⟨r, -, -, hr, -⟩
  · omega
  · exact e
  · rw [hm] at hr; cases hr

/-- A match is input enough: the window is longer than the header. -/
theorem decRun_of_match {r : MatchResult} (hroom : 0 < out.toNat / u.psz.toNat)
    (hm : matchPattern tol (raw.take (available raw sci)) u.hdrt = some r) :
    decRun tol u raw sci out = decFramePath tol u (raw.take (available raw sci))
      (sci.map fun xs => xs.take (available raw sci)) (out.toNat / u.psz.toNat) r.offset := by
  rcases decRun_cases tol u raw sci out with ⟨hnone, -⟩ | ⟨-, -, hr, -⟩ | ⟨r', -, -, hr, e⟩
  · have hlt := matchPattern_lt hm
    rw [List.length_take] at hlt
    omega
  · rw [hm] at hr; cases hr
  · obtain rfl := Option.some.inj (hm.symm.trans hr)
    exact e

end Paths

/-- Settles O26: each of the three causes leaves no input or no room. -/
theorem decodeWithoutInputOrRoomDoesNothing : Obligations.DecodeWithoutInputOrRoomDoesNothing := by
  intro s raw sci out hc hsc hcause
  have hnone : available raw sci = 0 ∨ out.toNat / s.dec.psz.toNat = 0 := by
    rcases hcause with rfl | rfl | hroom
    · exact .inl (Nat.le_zero.mp (available_le_main [] sci))
    · exact .inl (Nat.le_zero.mp (available_le_side raw []))
    · exact .inr (Nat.div_eq_of_lt hroom)
  exact exec_decDecode_of_fits hc hsc (decRun_of_nothing hnone)

/-- Settles O27: no match is the loss-of-sync path, which is R207 item by item. -/
theorem lossOfSyncFillsTheRoom : Obligations.LossOfSyncFillsTheRoom := by
  intro s raw sci out hc hsc n room hinput hroom hm
  have hn : available raw sci = n := available_eq raw sci
  rw [← hn] at hinput hm
  rw [exec_decDecode_of_fits hc hsc (decRun_of_noMatch hinput hroom hm), decLossOfSync_eq, hn]
  cases sci <;> rfl

/-- Every output of the frame path is a row of blocks of PSZ items, one block a frame (R209, R210). -/
theorem decFramePath_delivers {tol : MatchTol} {u : FrameRegs} {pre lab : List U8} {spb psz : U32} {sc : Bool}
    (hu : Configured u pre lab spb psz sc) (hspb : 1 ≤ u.spb.toNat) {raw : List U8} {sci : Option (List U32)}
    (hsci : ∀ xs, sci = some xs → xs.length = raw.length) {packets start k pos : Nat}
    (hk : (framePositions tol u raw packets start)[k]? = some pos) :
    DeliversFrame u raw sci (decFramePath tol u raw sci packets start) k pos := by
  have hfit : ∀ p ∈ framePositions tol u raw packets start, p + u.fl ≤ raw.length := framePositions_fit
  intro j hj
  rw [decFramePath_eq hu raw sci hsci]
  refine ⟨?_, ?_, ?_, fun xs hxs => ⟨_, Option.map_eq_some_iff.mpr ⟨xs, hxs, rfl⟩, ?_⟩⟩
  · rw [(flatten_map_blocks _ _ fun p hp => length_framePayload hu.fl_eq (hfit p hp)).2 k pos hk j hj,
      getElem?_framePayload _ _ hj]
  · rw [(flatten_map_blocks _ _ fun _ _ => length_syncPacket _).2 k pos hk j hj, getElem?_syncPacket hj]
  · have hin := hfit pos (List.mem_of_getElem? hk)
    rw [hu.fl_eq] at hin
    rw [(flatten_map_blocks _ _ fun _ _ => length_fill ..).2 k pos hk j hj, getElem?_fill _ hj,
      frameCounter_eq hspb (by omega)]
  · rw [(flatten_map_blocks _ _ fun p hp =>
        length_framePayload hu.fl_eq ((hfit p hp).trans_eq (hsci xs hxs).symm)).2 k pos hk j hj,
      getElem?_framePayload _ _ hj]

/-- Settles O29: the match leads to the frame path, whose frames are the chain. -/
theorem framePathDecodesTheChain : Obligations.FramePathDecodesTheChain := by
  intro s raw sci out r hs hc hsc n p window hroom hm
  obtain ⟨⟨-, -, -, -, ⟨hspb, -⟩, ⟨hpsz, -⟩⟩, hu⟩ := hs.decInv hc
  have hn : available raw sci = n := available_eq raw sci
  have hsci := (length_take_available (raw := raw) (sci := sci)).2
  have hwithin := decRun_within hs.decInv hc s.params.matchTol raw sci out
  have hrun := decRun_of_match (raw := raw) (sci := sci) (Nat.div_pos hroom hpsz) (by rw [hn]; exact hm)
  rw [hn] at hsci hrun
  have hpath := hrun.trans (decFramePath_eq hu window _ hsci _ _)
  refine ⟨_, _, exec_decDecode_of_fits hc hsc rfl, framePositions_chain .., ?_, ?_,
    hwithin.payLength, hwithin.syncLength, hwithin.cntLength, ?_, hwithin.scLength, fun k pos hk => ?_⟩
  · rw [hpath, consumedBy_eq]
  · rw [hpath]
  · rw [hpath]; simp
  · rw [hrun]; exact decFramePath_delivers hu hspb hsci hk

end Sys2Proof.Machine
end

section
/-! PROOF. What DEC makes of a stream of whole frames (42_decoder.md R211, 70_reset_and_hazards.md R306): of one
window that starts at a frame boundary, of the frames ENC emits, and window after window. -/

namespace Sys2Proof.Machine

/-! ## A window with the header at its frame boundaries -/

/-- Wherever a frame boundary of the window is followed by more items than the header has, the header stands
there. -/
def HeaderAtBoundaries (u : FrameRegs) (raw : List U8) : Prop :=
  ∀ q, q * u.fl + u.hdrt.length < raw.length → (raw.drop (q * u.fl)).take u.hdrt.length = u.hdrt

theorem consumedBy_boundaries (u : FrameRegs) (m : Nat) :
    consumedBy u 0 ((List.range m).map (· * u.fl)) = m * u.fl := by
  cases m with
  | zero => simp [consumedBy]
  | succ m => simp [consumedBy, List.range_succ, Nat.add_mul]

section Boundaries
variable {u : FrameRegs}

theorem Configured.hdrt_lt_fl (hu : Configured u u.pre u.lab u.spb u.psz u.sc) (hspb : 1 ≤ u.spb.toNat) :
    u.hdrt.length < u.fl := by
  rw [hu.fl_eq]; omega

/-- DECODE takes the whole frames of such a window, as many as there is room for, and nothing else (R211). -/
theorem decRun_of_headerAtBoundaries (hu : Configured u u.pre u.lab u.spb u.psz u.sc) (hspb : 1 ≤ u.spb.toNat)
    {raw : List U8} {sci : Option (List U32)} (hsci : ∀ xs, sci = some xs → xs.length = raw.length)
    (hlen : raw.length = 0 ∨ u.hdrt.length < raw.length) (hh : HeaderAtBoundaries u raw) (tol : MatchTol)
    {out : U32} {m : Nat} (hm : m = min (out.toNat / u.psz.toNat) (raw.length / u.fl)) :
    decRun tol u raw sci out =
      { consumed := m * u.fl
        produced := m * u.psz.toNat
        pay := ((List.range m).map fun i => framePayload u raw (i * u.fl)).flatten
        sync := ((List.range m).map fun _ => syncPacket u.psz.toNat).flatten
        cnt := ((List.range m).map fun i =>
          fill u.psz.toNat (BitVec.ofNat 32 (frameCounter u raw (i * u.fl)))).flatten
        sc := sci.map fun xs => ((List.range m).map fun i => framePayload u xs (i * u.fl)).flatten } := by
  have hinput : available raw sci = raw.length := by
    cases sci with
    | none => rfl
    | some xs => simp [available, hsci xs rfl]
  by_cases hnone : raw.length = 0 ∨ out.toNat / u.psz.toNat = 0
  · have hm0 : m = 0 := by rcases hnone with h | h <;> simp [hm, h]
    subst hm0
    rw [decRun_of_nothing (by rwa [hinput])]
    simp
  · have hmatch : matchPattern tol raw u.hdrt = some ⟨0, .exact⟩ :=
      matchPattern_aligned tol (by omega) (by simpa using hh 0 (by omega))
    have hframes := framePositions_aligned (tol := tol) (hu.hdrt_lt_fl hspb) hh (out.toNat / u.psz.toNat) 0
    simp only [Nat.zero_mul, Nat.sub_zero, ← hm, Nat.zero_add] at hframes
    have hwindow : (sci.map fun xs => xs.take raw.length) = sci := by
      cases sci with
      | none => rfl
      | some xs => rw [Option.map_some, ← hsci xs rfl, List.take_length]
    rw [decRun_of_match (r := ⟨0, .exact⟩) (by omega) (by rwa [hinput, List.take_length]), hinput,
      List.take_length, hwindow, decFramePath_eq hu raw sci hsci, hframes, consumedBy_boundaries]
    simp [List.map_map, Function.comp_def]

end Boundaries

/-! ## A stream of whole frames -/

/-- Values given for the first `m` places of a list are the images of its first `m` elements. -/
theorem map_range_eq_map_take {α β : Type} {xs : List α} {m : Nat} (hm : m ≤ xs.length) {f : Nat → β}
    {g : α → β} (h : ∀ i x, i < m → xs[i]? = some x → f i = g x) :
    (List.range m).map f = (xs.take m).map g := by
  refine List.ext_getElem (by simpa using hm) fun i hi _ => ?_
  have him : i < m := by simpa using hi
  simpa using h i xs[i] him (List.getElem?_eq_getElem _)

/-- A block that is one of the first `m` ends where they end, or before. -/
theorem mul_add_len_le {i m len n : Nat} (hi : i < m) (h : m * len ≤ n) : i * len + len ≤ n :=
  calc i * len + len = (i + 1) * len := (Nat.succ_mul ..).symm
    _ ≤ m * len := Nat.mul_le_mul_right _ hi
    _ ≤ n := h

section Stream
variable {u : FrameRegs} {raw : List U8} {frames : List (U16 × List U8)} {m : Nat}

/-- The stream is the frames' tables, one after another (R95). -/
theorem wireStream_spec (hu : Configured u u.pre u.lab u.spb u.psz u.sc) (hspb : 1 ≤ u.spb.toNat)
    (hpay : ∀ x ∈ frames, x.2.length = u.psz.toNat) :
    (frames.map (wireFrame u)).flatten.length = frames.length * u.fl ∧
      ∀ k x, frames[k]? = some x → ∀ o < u.fl, (frames.map (wireFrame u)).flatten[k * u.fl + o]? =
        wireItem u.pre u.lab u.spb x.1.toNat x.2 o := by
  obtain ⟨hlength, hitems⟩ := flatten_map_blocks frames (wireFrame u) fun x hx =>
    (wireFrame_spec hu hspb x (hpay x hx)).1
  refine ⟨hlength, fun k x hk o ho => ?_⟩
  rw [hitems k x hk o ho, (wireFrame_spec hu hspb x (hpay x (List.mem_of_getElem? hk))).2 o ho]

theorem headerAtBoundaries_take_wireStream (hu : Configured u u.pre u.lab u.spb u.psz u.sc)
    (hspb : 1 ≤ u.spb.toNat) (hpay : ∀ x ∈ frames, x.2.length = u.psz.toNat) (len : Nat) :
    HeaderAtBoundaries u ((frames.map (wireFrame u)).flatten.take len) := by
  intro q hq
  obtain ⟨hlength, hitems⟩ := wireStream_spec hu hspb hpay
  rw [List.length_take, hlength] at hq
  have hqlt : q < frames.length := Nat.lt_of_mul_lt_mul_right (a := u.fl) (by omega)
  refine List.ext_getElem? fun o => ?_
  by_cases ho : o < u.hdrt.length
  · rw [List.getElem?_take_of_lt ho, List.getElem?_drop, List.getElem?_take_of_lt (by omega),
      hitems q _ (List.getElem?_eq_getElem hqlt) o (ho.trans (hu.hdrt_lt_fl hspb)),
      wireItem_header hu hspb _ _ ho]
  · rw [List.getElem?_eq_none (by rw [List.length_take]; omega), List.getElem?_eq_none (by omega)]

/-- The window starts with `m` whole frames, which are the first ones of the list. -/
structure CarriesFrames (u : FrameRegs) (raw : List U8) (frames : List (U16 × List U8)) (m : Nat) : Prop where
  countLe : m ≤ frames.length
  wholeLe : m * u.fl ≤ raw.length
  item : ∀ i x, i < m → frames[i]? = some x → ∀ o < u.fl,
    raw[i * u.fl + o]? = wireItem u.pre u.lab u.spb x.1.toNat x.2 o

theorem carriesFrames_take_wireStream (hu : Configured u u.pre u.lab u.spb u.psz u.sc)
    (hspb : 1 ≤ u.spb.toNat) (hpay : ∀ x ∈ frames, x.2.length = u.psz.toNat) {len : Nat}
    (hm : m * u.fl ≤ min len (frames.length * u.fl)) :
    CarriesFrames u ((frames.map (wireFrame u)).flatten.take len) frames m := by
  obtain ⟨hlength, hitems⟩ := wireStream_spec hu hspb hpay
  have hfl := hu.hdrt_lt_fl hspb
  refine ⟨Nat.le_of_mul_le_mul_right (c := u.fl) (by omega) (by omega),
    by rwa [List.length_take, hlength], fun i x hi hx o ho => ?_⟩
  have hend := mul_add_len_le hi (hm.trans (Nat.min_le_left ..))
  rw [List.getElem?_take_of_lt (by omega), hitems i x hx o ho]

theorem CarriesFrames.payloads (h : CarriesFrames u raw frames m)
    (hu : Configured u u.pre u.lab u.spb u.psz u.sc) (hpay : ∀ x ∈ frames, x.2.length = u.psz.toNat) :
    ((List.range m).map fun i => framePayload u raw (i * u.fl)) = (frames.take m).map Prod.snd :=
  map_range_eq_map_take h.countLe fun i x hi hx => framePayload_of_wire hu (h.item i x hi hx)
    (mul_add_len_le hi h.wholeLe) (hpay x (List.mem_of_getElem? hx))

theorem CarriesFrames.counters (h : CarriesFrames u raw frames m)
    (hu : Configured u u.pre u.lab u.spb u.psz u.sc) (hspb : 1 ≤ u.spb.toNat) :
    ((List.range m).map fun i => fill u.psz.toNat (BitVec.ofNat 32 (frameCounter u raw (i * u.fl)))) =
      (frames.take m).map fun x => List.replicate u.psz.toNat (BitVec.ofNat 32 x.1.toNat) :=
  map_range_eq_map_take h.countLe fun i x hi hx => by
    have hend := mul_add_len_le hi h.wholeLe
    have hparts := hu.fl_eq
    rw [frameCounter_eq hspb (by omega), counterSum_of_wire hu hspb (h.item i x hi hx),
      Nat.mod_eq_of_lt x.1.isLt, fill]

/-- What DEC delivers for the first `m` frames of a stream, `side` being the stream's side channel. -/
def wholeFramesRun (u : FrameRegs) (frames : List (U16 × List U8)) (side : Option (List U32)) (m : Nat) :
    DecRun where
  consumed := m * u.fl
  produced := m * u.psz.toNat
  pay := ((frames.take m).map Prod.snd).flatten
  sync := ((List.range m).map fun _ => syncPacket u.psz.toNat).flatten
  cnt := ((frames.take m).map fun x =>
    List.replicate u.psz.toNat (BitVec.ofNat 32 x.1.toNat)).flatten
  sc := side.map fun xs => ((List.range m).map fun i => framePayload u xs (i * u.fl)).flatten

@[simp] theorem wholeFramesRun_consumed (u : FrameRegs) (frames : List (U16 × List U8))
    (side : Option (List U32)) (m : Nat) : (wholeFramesRun u frames side m).consumed = m * u.fl := rfl

/-- A window of the stream, empty or longer than the header, delivers the first frames and consumes exactly
those: as many as stand in it whole and have room. -/
theorem decRun_take_wireStream (hu : Configured u u.pre u.lab u.spb u.psz u.sc) (hspb : 1 ≤ u.spb.toNat)
    (hpay : ∀ x ∈ frames, x.2.length = u.psz.toNat) {sci : Option (List U32)}
    (hsci : ∀ xs, sci = some xs → xs.length = frames.length * u.fl) {len : Nat}
    (hlen : len = 0 ∨ u.hdrt.length < len) (tol : MatchTol) {out : U32} {m : Nat}
    (hm : m = min (out.toNat / u.psz.toNat) (min len (frames.length * u.fl) / u.fl)) :
    m ≤ frames.length ∧
      decRun tol u ((frames.map (wireFrame u)).flatten.take len) (sci.map fun xs => xs.take len) out =
        wholeFramesRun u frames (sci.map fun xs => xs.take len) m := by
  obtain ⟨hlength, -⟩ := wireStream_spec hu hspb hpay
  have hfl := hu.hdrt_lt_fl hspb
  have hheader := headerAtBoundaries_take_wireStream hu hspb hpay len
  have hcarries : CarriesFrames u ((frames.map (wireFrame u)).flatten.take len) frames m :=
    carriesFrames_take_wireStream hu hspb hpay (hm ▸
      (Nat.mul_le_mul_right _ (Nat.min_le_right ..)).trans (Nat.div_mul_le_self ..))
  have hrawLength : ((frames.map (wireFrame u)).flatten.take len).length = min len (frames.length * u.fl) := by
    rw [List.length_take, hlength]
  generalize (frames.map (wireFrame u)).flatten.take len = raw at *
  refine ⟨hcarries.countLe, ?_⟩
  rw [decRun_of_headerAtBoundaries hu hspb ?_ ?_ hheader tol (hrawLength ▸ hm), hcarries.payloads hu hpay,
    hcarries.counters hu hspb]
  · rfl
  · intro xs hxs
    obtain ⟨ys, hys, rfl⟩ := Option.map_eq_some_iff.mp hxs
    rw [List.length_take, hsci ys hys, hrawLength]
  · rw [hrawLength]
    rcases Nat.eq_zero_or_pos frames.length with h0 | hpos
    · simp [h0]
    · have := Nat.le_mul_of_pos_left u.fl hpos
      omega

end Stream

/-! ## The frames ENC emits -/

/-- The counters and payloads of the `m` frames ENC emits (R176). -/
def emittedFrames (u : FrameRegs) (cnt : U16) (pay : List U8) (m : Nat) : List (U16 × List U8) :=
  (List.range m).map fun f => (cnt + BitVec.ofNat 16 f, packet u.psz.toNat pay f)

section Emitted
variable {u : FrameRegs} {pay : List U8} {m : Nat}

@[simp] theorem length_emittedFrames (u : FrameRegs) (cnt : U16) (pay : List U8) (m : Nat) :
    (emittedFrames u cnt pay m).length = m := by
  simp [emittedFrames]

theorem payload_of_mem_emittedFrames (cnt : U16) (hm : m * u.psz.toNat ≤ pay.length) :
    ∀ x ∈ emittedFrames u cnt pay m, x.2.length = u.psz.toNat := by
  intro x hx
  obtain ⟨f, hf, rfl⟩ := List.mem_map.mp hx
  exact length_chunk (List.mem_range.mp hf) hm

/-- ENC's frame of a whole chunk is the frame of R95. -/
theorem encFrame_eq_wireFrame (hu : Configured u u.pre u.lab u.spb u.psz u.sc) (hspb : 1 ≤ u.spb.toNat)
    (x : U16 × List U8) (hx : x.2.length = u.psz.toNat) : encFrame u x.1 x.2 = wireFrame u x := by
  obtain ⟨hencLength, henc⟩ := encFrame_spec hu hspb x.1 hx
  obtain ⟨hwireLength, hwire⟩ := wireFrame_spec hu hspb x hx
  refine List.ext_getElem? fun o => ?_
  by_cases ho : o < u.fl
  · rw [henc o ho, hwire o ho]
  · rw [List.getElem?_eq_none (by omega), List.getElem?_eq_none (by omega)]

theorem encFrames_eq_map_wireFrame (hu : Configured u u.pre u.lab u.spb u.psz u.sc)
    (hspb : 1 ≤ u.spb.toNat) (cnt : U16) (hm : m * u.psz.toNat ≤ pay.length) :
    encFrames u cnt pay m = (emittedFrames u cnt pay m).map (wireFrame u) := by
  rw [encFrames, emittedFrames, List.map_map]
  exact List.map_congr_left fun f hf =>
    encFrame_eq_wireFrame hu hspb (_, _) (length_chunk (List.mem_range.mp hf) hm)

/-- The payload regions of the side-channel frames are the side-channel items they were made of (R177,
R210). -/
theorem framePayload_encSideFrames (hu : Configured u u.pre u.lab u.spb u.psz u.sc) {xs : List U32}
    (hm : m * u.psz.toNat ≤ xs.length) :
    ((List.range m).map fun i =>
      framePayload u (encSideFrames u xs m).flatten (i * u.fl)).flatten = xs.take (m * u.psz.toNat) := by
  rw [← flatten_packets]
  obtain ⟨hlength, hitems⟩ := encSideFrames_spec hu hm
  refine congrArg List.flatten (List.map_congr_left fun i hi => ?_)
  have him : i < m := List.mem_range.mp hi
  exact framePayload_of_side hu (hitems i him) (mul_add_len_le him hlength.ge) (length_chunk him hm)

/-- What DEC delivers for the frames ENC emits: the items ENC took, and the counters it gave them (R211). -/
theorem wholeFramesRun_emittedFrames (hu : Configured u u.pre u.lab u.spb u.psz u.sc) (cnt : U16)
    (pay : List U8) {sci : Option (List U32)} (hsci : ∀ xs, sci = some xs → m * u.psz.toNat ≤ xs.length) :
    wholeFramesRun u (emittedFrames u cnt pay m) (sci.map fun xs => (encSideFrames u xs m).flatten) m =
      { consumed := m * u.fl
        produced := m * u.psz.toNat
        pay := pay.take (m * u.psz.toNat)
        sync := ((List.range m).map fun _ => syncPacket u.psz.toNat).flatten
        cnt := ((List.range m).map fun f =>
          List.replicate u.psz.toNat (BitVec.ofNat 32 ((cnt.toNat + f) % 65536))).flatten
        sc := sci.map fun xs => xs.take (m * u.psz.toNat) } := by
  rw [wholeFramesRun, List.take_of_length_le (length_emittedFrames ..).le, emittedFrames, List.map_map,
    List.map_map, Option.map_map, ← flatten_packets]
  congr 1
  · simp only [Function.comp_def, toNat_cnt_add]
  · exact Option.map_congr fun xs hxs => framePayload_encSideFrames hu (hsci xs hxs)

end Emitted

/-- DECODE of what an ENCODE emitted, with room for its packets, by a DEC of the same layout (R211). -/
theorem decRun_encRun {e : Enc} {c : Params} (he : e.regs.Inv c) (hc : e.regs.cfgd = true) (pay : List U8)
    (sci : Option (List U32)) (out : U32) (tol : MatchTol) {out' : U32}
    (hroom : (encRun e pay sci out).consumed ≤ out'.toNat) :
    let m := encCount e.regs pay sci out
    decRun tol e.regs (encRun e pay sci out).frm (encRun e pay sci out).sc out' =
      wholeFramesRun e.regs (emittedFrames e.regs e.cnt pay m) (encRun e pay sci out).sc m := by
  intro m
  obtain ⟨⟨-, -, -, -, ⟨hspb, -⟩, ⟨hpsz, -⟩⟩, hu⟩ := he hc
  have hpay : m * e.regs.psz.toNat ≤ pay.length := encCount_mul_psz.trans (available_le_main pay sci)
  have hwithin := encRun_within he hc pay sci out
  have hfl := hu.hdrt_lt_fl hspb
  have hframes : (encRun e pay sci out).frm =
      ((emittedFrames e.regs e.cnt pay m).map (wireFrame e.regs)).flatten :=
    congrArg List.flatten (encFrames_eq_map_wireFrame hu hspb e.cnt hpay)
  have hside : (encRun e pay sci out).sc.map (fun ys => ys.take (m * e.regs.fl)) = (encRun e pay sci out).sc :=
    (Option.map_congr fun ys hys => List.take_of_length_le (hwithin.scLength ys hys).le).trans Option.map_id'
  have hcount : m = min (out'.toNat / e.regs.psz.toNat)
      (min (m * e.regs.fl) ((emittedFrames e.regs e.cnt pay m).length * e.regs.fl) / e.regs.fl) := by
    rw [length_emittedFrames, Nat.min_self, Nat.mul_div_cancel _ (by omega)]
    exact (Nat.min_eq_right ((Nat.le_div_iff_mul_le hpsz).mpr hroom)).symm
  have hlen : m * e.regs.fl = 0 ∨ e.regs.hdrt.length < m * e.regs.fl := by
    rcases Nat.eq_zero_or_pos m with h0 | hpos
    · exact .inl (by rw [h0, Nat.zero_mul])
    · exact .inr (hfl.trans_le (Nat.le_mul_of_pos_left _ hpos))
  obtain ⟨-, hrun⟩ := decRun_take_wireStream hu hspb (payload_of_mem_emittedFrames e.cnt hpay)
    (sci := (encRun e pay sci out).sc) (by rw [length_emittedFrames]; exact hwithin.scLength) hlen tol hcount
  have hlength : (encRun e pay sci out).frm.length ≤ m * e.regs.fl := hwithin.frmLength.le
  rwa [hside, ← hframes, List.take_of_length_le hlength] at hrun

/-- An item of a row of blocks, by its place in the row. -/
theorem getElem?_flatten_blocks_div {α : Type} (g : Nat → List α) {len m o : Nat}
    (hg : ∀ f < m, (g f).length = len) (ho : o < m * len) :
    ((List.range m).map g).flatten[o]? = (g (o / len))[o % len]? := by
  have hlen : 0 < len := Nat.pos_of_mul_pos_left (Nat.zero_lt_of_lt ho)
  have h := (flatten_blocks g hg).2 _ (Nat.div_lt_of_lt_mul (Nat.mul_comm .. ▸ ho)) _ (Nat.mod_lt o hlen)
  rwa [Nat.div_add_mod'] at h

/-- Settles O31: the ENCODE was performed, its frames are a whole stream with room for every packet, and the
packets delivered are the chunks framed. -/
theorem decodeOfEncodeRecoversThePayloads : Obligations.DecodeOfEncodeRecoversThePayloads := by
  intro s t pay sci out out' run hs hc heq he hlast hroom
  rcases execEncEncode_cases pay sci out s with ⟨-, e⟩ | ⟨-, hsc, e⟩
  · rw [Host.Outcome.next.inj (he.symm.trans e), State.lastResult_answered] at hlast
    cases hlast
  obtain rfl := Host.Outcome.next.inj (he.symm.trans e)
  rw [State.lastResult_answered] at hlast
  cases hlast
  rw [← heq]
  obtain ⟨⟨-, -, -, -, -, ⟨hpsz, -⟩⟩, hu⟩ := hs.encInv hc
  have hfits : s.enc.regs.sc = (encRun s.enc pay sci out).sc.isSome := hsc.trans Option.isSome_map.symm
  have hside : ∀ xs, sci = some xs →
      encCount s.enc.regs pay sci out * s.enc.regs.psz.toNat ≤ xs.length := by
    rintro xs rfl
    exact encCount_mul_psz.trans (available_le_side pay xs)
  have hrun := (decRun_encRun hs.encInv hc pay sci out s.params.matchTol hroom).trans
    (wholeFramesRun_emittedFrames hu s.enc.cnt pay hside)
  refine ⟨_, exec_decDecode_of_fits hc hfits hrun, rfl, rfl, rfl, rfl, ?_, ?_, fun x hx => ?_⟩
  · exact (flatten_blocks _ fun _ _ => length_syncPacket _).1
  · exact (flatten_blocks _ fun _ _ => List.length_replicate).1
  · have hitem : x % s.enc.regs.psz.toNat < s.enc.regs.psz.toNat := Nat.mod_lt _ hpsz
    constructor
    · rw [getElem?_flatten_blocks_div _ (fun _ _ => length_syncPacket _) hx, getElem?_syncPacket hitem]
    · rw [getElem?_flatten_blocks_div _ (fun _ _ => List.length_replicate) hx,
        List.getElem?_replicate_of_lt hitem]

/-! ## Window after window -/

/-- One round of the host's loop (R73). -/
theorem decodeStream_cons {s : State} {raw left : List U8} {sci : Option (List U32)} {len : Nat} {out : U32}
    {ws : List (Nat × U32)} {run : DecRun} {runs : List DecRun} (hc : s.dec.cfgd = true)
    (hsc : s.dec.sc = sci.isSome)
    (hrun : decRun s.params.matchTol s.dec (raw.take len) (sci.map fun xs => xs.take len) out = run)
    (hrest : decodeStream ws (raw.drop run.consumed) (sci.map fun xs => xs.drop run.consumed)
      (s.answered ⟨.ok, .dec run⟩) = some (runs, left)) :
    decodeStream ((len, out) :: ws) raw sci s = some (run :: runs, left) := by
  rw [decodeStream, exec_decDecode_of_fits hc (by rw [Option.isSome_map]; exact hsc) hrun]
  simp only [State.lastResult_answered, hrest, Option.map_some]

/-- A stream of blocks of one length, from a block boundary on. -/
theorem drop_flatten_blocks {α β : Type} {xs : List β} {g : β → List α} {len m : Nat}
    (hg : ∀ x ∈ xs, (g x).length = len) (hm : m ≤ xs.length) :
    (xs.map g).flatten.drop (m * len) = ((xs.drop m).map g).flatten := by
  have hfirst : ((xs.take m).map g).flatten.length = m * len := by
    rw [(flatten_map_blocks _ g fun x hx => hg x (List.mem_of_mem_take hx)).1, List.length_take,
      Nat.min_eq_left hm]
  conv_lhs => rw [← List.take_append_drop m xs, List.map_append, List.flatten_append, ← hfirst]
  exact List.drop_left

/-- Settles O32, by induction on the windows: each consumes whole frames, so the next one starts at a frame
boundary again. -/
theorem windowsFromAFrameBoundaryDecodeTrueFrames : Obligations.WindowsFromAFrameBoundaryDecodeTrueFrames := by
  intro s frames sci windows hs hc hsc hpay hsci hwindows
  induction windows generalizing s frames sci with
  | nil => exact ⟨[], 0, Nat.zero_le _, rfl, rfl, rfl⟩
  | cons w ws ih =>
    obtain ⟨⟨-, -, -, -, ⟨hspb, -⟩, -⟩, hu⟩ := hs.decInv hc
    obtain ⟨len, out⟩ := w
    obtain ⟨hlen, hws⟩ := List.forall_mem_cons.mp hwindows
    rw [hu.n_eq] at hlen
    obtain ⟨hm, hrun⟩ := decRun_take_wireStream hu hspb hpay hsci hlen s.params.matchTol (out := out) rfl
    generalize min (out.toNat / s.dec.psz.toNat) _ = m at hm hrun
    have hrest := drop_flatten_blocks (fun x hx => (wireFrame_spec hu hspb x (hpay x hx)).1) hm
    have hside : ∀ xs, (sci.map fun xs => xs.drop (m * s.dec.fl)) = some xs →
        xs.length = (frames.drop m).length * s.dec.fl := fun xs hxs => by
      obtain ⟨ys, hys, rfl⟩ := Option.map_eq_some_iff.mp hxs
      rw [List.length_drop, List.length_drop, hsci ys hys, Nat.sub_mul]
    obtain ⟨runs, j, hj, hstream, hpays, hcnts⟩ := ih
      (s.answered ⟨.ok, .dec (wholeFramesRun s.dec frames (sci.map fun xs => xs.take len) m)⟩)
      (frames.drop m) (sci.map fun xs => xs.drop (m * s.dec.fl)) (hs.answered _) hc
      (by rw [Option.isSome_map]; exact hsc) (fun x hx => hpay x (List.mem_of_mem_drop hx)) hside hws
    rw [List.length_drop] at hj
    refine ⟨wholeFramesRun s.dec frames (sci.map fun xs => xs.take len) m :: runs, m + j, by omega,
      ?_, ?_, ?_⟩
    · refine decodeStream_cons hc hsc hrun ?_
      rw [wholeFramesRun_consumed, hrest, ← List.drop_drop]
      exact hstream
    · rw [List.map_cons, List.flatten_cons, hpays, List.take_add, List.map_append, List.flatten_append]
      rfl
    · rw [List.map_cons, List.flatten_cons, hcnts, List.take_add, List.map_append, List.flatten_append]
      rfl

end Sys2Proof.Machine
end

section
/-! PROOF. ALN's commands one at a time: aln.reset, the window aln.align needs, and each branch of a full
window (43_aligner.md R230 to R242). -/

namespace Sys2Proof.Machine

/-- Settles O40, by the two ways aln.reset can end. -/
theorem alnResetEmptiesTheBank : Obligations.AlnResetEmptiesTheBank := by
  intro s p k
  rcases execAlnReset_cases p k s with ⟨hbad, e⟩ | ⟨hdim, e⟩
  · exact ⟨fun h => absurd h hbad, fun _ => e⟩
  · exact ⟨fun _ => ⟨_, Aln.cleared_clearAlignment _, e⟩, fun h => absurd hdim h⟩

/-! ## Items beyond the window -/

section Take
variable {s : State} {p k : Nat}

/-- The packets of a window lie within its first `k · p` items. -/
theorem packet_take_window {j : Nat} (hj : j < k) (xs : List U8) :
    packet p (xs.take (k * p)) j = packet p xs j :=
  packet_take xs (Nat.mul_le_mul_right p hj)

theorem steadyLead_take (popped : List (List U8)) (d : Nat) (lead : List U8) :
    steadyLead popped p k d (lead.take (k * p)) = steadyLead popped p k d lead := by
  have hpackets : (List.range (k - d)).map (packet p (lead.take (k * p))) =
      (List.range (k - d)).map (packet p lead) :=
    List.map_congr_left fun j hj =>
      packet_take_window ((List.mem_range.mp hj).trans_le (Nat.sub_le k d)) lead
  rw [steadyLead, steadyLead, hpackets]

theorem steadyPushed_take (d : Nat) (lead : List U8) :
    steadyPushed p k d (lead.take (k * p)) = steadyPushed p k d lead := by
  refine List.map_congr_left fun j hj => packet_take_window ?_ lead
  have := List.mem_range.mp hj
  omega

theorem alignSteady_take (bank : Bank) (delay : Int) (lead lag : List U8) :
    alignSteady bank delay (lead.take s.aln.w) (lag.take s.aln.w) s =
      alignSteady bank delay lead lag s := by
  have hlag : copy (lag.take s.aln.w) s.aln.w = copy lag s.aln.w := by
    rw [copy, copy, List.take_take, min_self]
  simp only [alignSteady, hlag]
  rw [Aln.w, steadyLead_take, steadyPushed_take]

theorem alignFill_take (bank : Bank) (delay : Int) (lead : List U8) :
    alignFill bank delay (lead.take s.aln.w) s = alignFill bank delay lead s := by
  have hpackets : (List.range (min (delay.natAbs - bank.occ) s.aln.k.toNat)).map
        (packet s.aln.p.toNat (lead.take s.aln.w)) =
      (List.range (min (delay.natAbs - bank.occ) s.aln.k.toNat)).map (packet s.aln.p.toNat lead) :=
    List.map_congr_left fun j hj =>
      packet_take_window ((List.mem_range.mp hj).trans_le (min_le_right ..)) lead
  simp only [alignFill, hpackets]

theorem alignSkew_take (x : AlnWindows) (delay : Int) :
    alignSkew (x.take s.aln.w) delay s = alignSkew x delay s := by
  simp only [alignSkew, AlnWindows.take, ← apply_ite (List.take s.aln.w), alignSteady_take, alignFill_take]

theorem alignSync_take (x : AlnWindows) : alignSync (x.take s.aln.w) s = alignSync x s := by
  simp only [alignSync_eq, AlnWindows.take, List.take_take, min_self]

/-- The branch and its outcome are those of the first W items (R231). -/
theorem alignBranch_take (hp : 1 ≤ s.aln.p.toNat) (hw : s.aln.p.toNat ≤ s.aln.w) (x : AlnWindows) :
    alignBranch (x.take s.aln.w) s = alignBranch x s := by
  have hsync : ∀ xs, syncIndex s.aln.p.toNat (xs.take s.aln.w) = syncIndex s.aln.p.toNat xs :=
    fun xs => syncIndex_take xs hw
  have hcounter : ∀ c, counterAtZero (c.take s.aln.w) = counterAtZero c :=
    fun c => counterAtZero_take c (hp.trans hw)
  simp only [alignBranch, alignSync_take, alignSkew_take]
  simp only [AlnWindows.take, hsync, hcounter]

theorem AlnWindows.Holds.take {x : AlnWindows} {w : Nat} (h : x.Holds w) : (x.take w).Holds w := by
  simpa only [AlnWindows.Holds, AlnWindows.take, List.length_take, le_min_iff, le_refl, true_and] using h

end Take

/-- An ALIGN reads the first W items of its windows only (R231). -/
theorem exec_align_take {s : State} (hs : s.Inv) {x : AlnWindows} {out : U32} (hf : FullWindow s x out) :
    exec (x.align out) s = exec ((x.take s.aln.w).align out) s := by
  obtain ⟨hc, hx, hout⟩ := hf
  obtain ⟨hp, hpw, -⟩ := hs.window hc
  rw [(execAlnAlign_eq ..).1 ⟨hc, hx, hout⟩, (execAlnAlign_eq ..).1 ⟨hc, hx.take, hout⟩,
    alignBranch_take hp hpw]

/-- Settles O41: a command without a full window is rejected, and one with it reads no item past W. -/
theorem alignNeedsAFullWindow : Obligations.AlignNeedsAFullWindow :=
  fun s x out => ⟨(execAlnAlign_eq x out s).2, fun hs hf => exec_align_take hs hf⟩

/-! ## The branches of a full window -/

section Branches
variable {s : State} {x : AlnWindows} {out : U32}

/-- The branch by the places of the first pulses (R232 to R235). -/
theorem exec_align_of_pulseAt (hs : s.Inv) (hf : FullWindow s x out) {i1 i2 : Nat}
    (h1 : PulseAt s.aln.p.toNat x.s1 i1) (h2 : PulseAt s.aln.p.toNat x.s2 i2) :
    exec (x.align out) s =
      if i1 ≠ i2 then alignMis i1 i2 s
      else if i1 ≠ 0 then alignOff i1 s
      else if 5 < (delayOf x).natAbs then alignOvf (delayOf x) s
      else if delayOf x = 0 then alignSync x s
      else alignSkew x (delayOf x) s := by
  have ⟨hc, ⟨_, hs1, _, _, hs2, _⟩, _⟩ := hf
  obtain ⟨-, hpw, -⟩ := hs.window hc
  rw [(execAlnAlign_eq ..).1 hf, alignBranch, syncIndex_of_pulseAt (hpw.trans hs1) h1,
    syncIndex_of_pulseAt (hpw.trans hs2) h2]
  rfl

/-- The branch by the delay, when both pulses stand at index 0 (R237 to R239). -/
theorem exec_align_of_pulsesAtZero (hs : s.Inv) (hf : FullWindow s x out) {delay : Int}
    (hz : PulsesAtZero s x delay) :
    exec (x.align out) s =
      if 5 < delay.natAbs then alignOvf delay s
      else if delay = 0 then alignSync x s
      else alignSkew x delay s := by
  rw [exec_align_of_pulseAt hs hf hz.1 hz.2.1, delayOf_of_pulsesAtZero hz]
  rfl

theorem exec_align_of_skew (hs : s.Inv) (hf : FullWindow s x out) {delay : Int}
    (hz : PulsesAtZero s x delay) (hne : delay ≠ 0) (hcap : delay.natAbs ≤ 5) :
    exec (x.align out) s = alignSkew x delay s := by
  rw [exec_align_of_pulsesAtZero hs hf hz, if_neg (Nat.not_lt.mpr hcap), if_neg hne]

end Branches

/-- Settles O42: the MIS branch, whose control items are free values only outside `s32` (log entry 8). -/
theorem misalignedPulsesGive251 : Obligations.MisalignedPulsesGive251 := by
  intro s x out i1 i2 hs hf h1 h2 hne w v
  refine ⟨_, _, _, s.aln.cleared_clearAlignment, length_indexControl s.draws w v, ?_,
    fun hv => (indexControl_fits hv).symm⟩
  rw [exec_align_of_pulseAt hs hf h1 h2, if_pos hne, alignMis_eq]

/-- Settles O43: the OFF branch, whose control items are free values only outside `s32` (log entry 8). -/
theorem offsetPulsesGive252 : Obligations.OffsetPulsesGive252 := by
  intro s x out i hs hf h1 h2 hne
  refine ⟨_, _, drawsAfter s.draws i, s.aln.cleared_clearAlignment, length_indexControl s.draws i i, ?_,
    fun hi => ?_⟩
  · rw [exec_align_of_pulseAt hs hf h1 h2, if_neg (not_not.mpr rfl), if_pos hne, alignOff_eq]
  · obtain ⟨hctl, hdraws⟩ := indexControl_fits (draws := s.draws) (n := i) (v := i) (by omega)
    exact ⟨hdraws, hctl.trans (by rw [BitVec.ofInt_natCast])⟩

/-- Settles O44: the OVF branch, the first of those with both pulses at index 0. -/
theorem excessDelayGives253 : Obligations.ExcessDelayGives253 := by
  intro s x out delay hs hf hz hcap
  refine ⟨_, s.aln.cleared_clearAlignment, ?_⟩
  rw [exec_align_of_pulsesAtZero hs hf hz, if_pos hcap, alignOvf_eq]

/-- Settles O45: a delay of 0 is no excess, so the SYNC branch is taken. -/
theorem streamsInSyncPassThrough : Obligations.StreamsInSyncPassThrough := by
  intro s x out hs hf hz
  refine ⟨_, s.aln.cleared_clearAlignment, ?_⟩
  rw [exec_align_of_pulsesAtZero hs hf hz, if_neg (by decide), if_pos rfl, alignSync_eq]

/-- Settles O46: of the two paths of a skew, the one for fewer packets kept than D. -/
theorem fillingPathCollectsLeadPackets : Obligations.FillingPathCollectsLeadPackets := by
  intro s x out delay hs hf hz hne hcap p kept hkept n
  rcases alignSkew_cases (hs.alnInv hf.1) x hf.2.1 hcap with
    ⟨heq, -⟩ | ⟨-, bank, -, hcontents, hocc, -, hn, -, e⟩
  · exact absurd heq hkept
  · exact ⟨_, (exec_align_of_skew hs hf hz hne hcap).trans e, hcontents, hocc, hn, beq_iff_eq,
      toInt_wrapS32 hcap, hf.1, rfl, rfl⟩

/-- Settles O47: of the two paths of a skew, the one for D packets kept. -/
theorem steadyPathDelaysTheLead : Obligations.SteadyPathDelaysTheLead := by
  intro s x out delay hs hf hz hne hcap p k w kept hkept line lead lag
  rcases alignSkew_cases (hs.alnInv hf.1) x hf.2.1 hcap with
    ⟨-, bank, -, hcontents, hocc, -, -, e⟩ | ⟨hlt, -⟩
  · exact ⟨_, (exec_align_of_skew hs hf hz hne hcap).trans e, hcontents, hocc, rfl,
      toInt_wrapS32 hcap, hf.1, rfl, rfl⟩
  · exact absurd hkept hlt.ne

/-- Settles O48: a record with counts is no rejection's, so the window was full. -/
theorem alignProducesWhatItConsumes : Obligations.AlignProducesWhatItConsumes := by
  intro s t x out run hs ht hr
  obtain ⟨hfull, hshort⟩ := execAlnAlign_eq x out s
  by_cases hf : FullWindow s x out
  · obtain ⟨t', run', e, hr', h⟩ := alignBranch_within hs hf.1 hf.2.1
    cases record_unique ht hr ((hfull hf).trans e) hr'
    exact ⟨h.consumedEq, h.producedPos, h.producedLe, h.o1Length, h.o2Length, h.ctlLength⟩
  · cases record_unique ht hr (hshort hf) rfl

end Sys2Proof.Machine
end

section
/-! PROOF. The host's loop over a pair of streams whose counters differ by a constant delay (43_aligner.md
R243): in sync, and skewed by 1 to 5 packets. -/

namespace Sys2Proof.Machine

/-! ## Skewed streams -/

section Streams
variable {p total : Nat} {x : AlnStreams} {delay : Int}

theorem AlnWindows.Holds.drop {m n : Nat} (h : x.Holds (n + m)) : (x.drop n).Holds m := by
  simp only [AlnWindows.Holds, AlnWindows.drop, List.length_drop] at h ⊢
  omega

/-- The streams from a packet boundary on. -/
theorem SkewedStreams.drop (h : SkewedStreams p total x delay) {n : Nat} (hn : n ≤ total) :
    SkewedStreams p (total - n) (x.drop (n * p)) delay := by
  obtain ⟨hlen, hpulse⟩ := h
  have hfrom : ∀ g, n * p + g * p = (n + g) * p := fun g => (Nat.add_mul ..).symm
  refine ⟨?_, fun g hg => ?_⟩
  · rw [← Nat.add_sub_cancel' hn, Nat.add_mul] at hlen
    exact hlen.drop
  · simpa only [AlnWindows.drop, List.getElem?_drop, hfrom] using hpulse (n + g) (by omega)

/-- A pulse at the first item. -/
theorem pulseAt_zero {xs : List U8} (hp : 1 ≤ p) (h : ∃ v, xs[0]? = some v ∧ v ≠ 0) : PulseAt p xs 0 :=
  ⟨fun j hj => absurd hj (Nat.not_lt_zero j), .inr ⟨hp, h⟩⟩

/-- A packet of the streams starts with both pulses, the delay apart. -/
theorem SkewedStreams.pulsesAtZero {s : State} (h : SkewedStreams s.aln.p.toNat total x delay)
    (hp : 1 ≤ s.aln.p.toNat) (htotal : 0 < total) : PulsesAtZero s x delay := by
  have hfirst := h.2 0 htotal
  rw [Nat.zero_mul] at hfirst
  obtain ⟨h1, h2, hcounters⟩ := hfirst
  exact ⟨pulseAt_zero hp h1, pulseAt_zero hp h2, hcounters⟩

theorem SkewedStreams.holds {s : State} (h : SkewedStreams s.aln.p.toNat total x delay)
    (hk : s.aln.k.toNat ≤ total) : x.Holds s.aln.w :=
  h.1.mono (Nat.mul_le_mul_right _ hk)

end Streams

/-! ## What the outputs are still to be -/

/-- The packets the delay line lacks of a skew's D (R241). -/
def packetsLacking (a : Aln) (delay : Int) : Nat := delay.natAbs - (keptPackets a delay).length

/-- The packets the next window consumes and produces (R238, R240, R241). -/
def windowPackets (a : Aln) (delay : Int) : Nat :=
  if packetsLacking a delay = 0 then a.k.toNat else min (packetsLacking a delay) a.k.toNat

/-- The lead's output from now on: 255 until the delay line is complete, then the packets kept and the
stream. -/
def leadToCome (a : Aln) (x : AlnStreams) (delay : Int) : List U8 :=
  List.replicate (packetsLacking a delay * a.p.toNat) 255 ++
    ((keptPackets a delay).flatten ++ x.lead delay)

/-- The lag's output from now on: 255 in place of its items until the delay line is complete. -/
def lagToCome (a : Aln) (x : AlnStreams) (delay : Int) : List U8 :=
  List.replicate (packetsLacking a delay * a.p.toNat) 255 ++
    (x.lag delay).drop (packetsLacking a delay * a.p.toNat)

/-- The two outputs in port order (R239). -/
def o1ToCome (a : Aln) (x : AlnStreams) (delay : Int) : List U8 :=
  if 0 < delay then leadToCome a x delay else lagToCome a x delay

def o2ToCome (a : Aln) (x : AlnStreams) (delay : Int) : List U8 :=
  if 0 < delay then lagToCome a x delay else leadToCome a x delay

/-- ALN after a window of `n` packets: dimensions as before, and the outputs to come are what they were less
the window's. -/
structure Advanced (n : Nat) (x : AlnStreams) (delay : Int) (a b : Aln) : Prop where
  cfgdKept : b.cfgd = a.cfgd
  pKept : b.p = a.p
  kKept : b.k = a.k
  lackingLess : packetsLacking b delay = packetsLacking a delay - n
  leadRest : leadToCome b (x.drop (n * a.p.toNat)) delay = (leadToCome a x delay).drop (n * a.p.toNat)
  lagRest : lagToCome b (x.drop (n * a.p.toNat)) delay = (lagToCome a x delay).drop (n * a.p.toNat)

section ToCome
variable {a b : Aln} {x : AlnStreams} {delay : Int} {n : Nat}

theorem leadToCome_eq_byPort (a : Aln) (x : AlnStreams) (delay : Int) :
    leadToCome a x delay = if 0 < delay then o1ToCome a x delay else o2ToCome a x delay := by
  unfold o1ToCome o2ToCome; split <;> rfl

theorem lagToCome_eq_byPort (a : Aln) (x : AlnStreams) (delay : Int) :
    lagToCome a x delay = if 0 < delay then o2ToCome a x delay else o1ToCome a x delay := by
  unfold o1ToCome o2ToCome; split <;> rfl

theorem Advanced.o1Rest (h : Advanced n x delay a b) :
    o1ToCome b (x.drop (n * a.p.toNat)) delay = (o1ToCome a x delay).drop (n * a.p.toNat) := by
  rw [o1ToCome, o1ToCome, h.leadRest, h.lagRest, apply_ite (List.drop _)]

theorem Advanced.o2Rest (h : Advanced n x delay a b) :
    o2ToCome b (x.drop (n * a.p.toNat)) delay = (o2ToCome a x delay).drop (n * a.p.toNat) := by
  rw [o2ToCome, o2ToCome, h.leadRest, h.lagRest, apply_ite (List.drop _)]

theorem AlnWindows.lead_drop (x : AlnWindows) (n : Nat) (delay : Int) :
    (x.drop n).lead delay = (x.lead delay).drop n :=
  (apply_ite (List.drop n) ..).symm

theorem AlnWindows.lag_drop (x : AlnWindows) (n : Nat) (delay : Int) :
    (x.drop n).lag delay = (x.lag delay).drop n :=
  (apply_ite (List.drop n) ..).symm

theorem AlnWindows.Holds.length_lead {w : Nat} (h : x.Holds w) : w ≤ (x.lead delay).length := by
  obtain ⟨h1, -, -, h2, -⟩ := h
  unfold AlnWindows.lead; split
  · exact h1
  · exact h2

theorem AlnWindows.Holds.length_lag {w : Nat} (h : x.Holds w) : w ≤ (x.lag delay).length := by
  obtain ⟨h1, -, -, h2, -⟩ := h
  unfold AlnWindows.lag; split
  · exact h2
  · exact h1

/-- The filling takes the place of lag items, and so shortens nothing. -/
theorem length_lag_le : (x.lag delay).length ≤ (lagToCome a x delay).length := by
  rw [lagToCome, List.length_append, List.length_replicate, List.length_drop]
  omega

theorem windowPackets_le : windowPackets a delay ≤ a.k.toNat := by
  unfold windowPackets; split
  · exact le_rfl
  · exact min_le_right ..

/-- No packets are kept for streams in sync. -/
theorem keptPackets_zero (a : Aln) : keptPackets a 0 = [] :=
  if_neg fun ⟨hpos, _, hle⟩ => absurd (hpos.trans_le hle) (by decide)

theorem keptPackets_of_empty (h : a.bank.occ = 0) : keptPackets a delay = [] :=
  if_neg fun ⟨hpos, _⟩ => absurd h hpos.ne'

/-- The packets a window has collected for a delay are kept at the next of that delay. -/
theorem keptPackets_of_collected (hdelay : b.bdelay.toInt = delay) (hpos : 0 < b.bank.occ)
    (hle : b.bank.occ ≤ delay.natAbs) : keptPackets b delay = b.bank.contents :=
  if_pos ⟨hpos, by rw [hdelay], hle⟩

theorem length_of_mem_keptPackets {c : Params} (h : a.Inv c) :
    ∀ item ∈ keptPackets a delay, item.length = a.p.toNat := by
  obtain ⟨hinv, hcontents, -, hpackets, -⟩ := skewBank_spec h (delay := delay)
  rw [← hcontents]
  exact hinv.data_contents hpackets

/-- With the delay line complete the outputs to come are the streams, the lead's behind the packets kept. -/
theorem toCome_of_complete (h : (keptPackets a delay).length = delay.natAbs) :
    packetsLacking a delay = 0 ∧ windowPackets a delay = a.k.toNat ∧
      leadToCome a x delay = (keptPackets a delay).flatten ++ x.lead delay ∧
      lagToCome a x delay = x.lag delay := by
  have hzero : packetsLacking a delay = 0 := by rw [packetsLacking, h, Nat.sub_self]
  exact ⟨hzero, if_pos hzero, by simp [leadToCome, hzero], by simp [lagToCome, hzero]⟩

/-- A window of the complete delay line passes W items on. -/
theorem Advanced.of_complete (hcfgd : b.cfgd = a.cfgd) (hp : b.p = a.p) (hk : b.k = a.k)
    (ha : (keptPackets a delay).length = delay.natAbs)
    (hb : (keptPackets b delay).length = delay.natAbs)
    (hlead : (keptPackets b delay).flatten ++ (x.lead delay).drop a.w =
      ((keptPackets a delay).flatten ++ x.lead delay).drop a.w) :
    Advanced a.k.toNat x delay a b := by
  obtain ⟨hza, -, hleada, hlaga⟩ := toCome_of_complete (x := x) ha
  obtain ⟨hzb, -, hleadb, hlagb⟩ := toCome_of_complete (x := x.drop a.w) hb
  rw [Aln.w] at hlead hleadb hlagb
  refine ⟨hcfgd, hp, hk, by rw [hza, hzb, Nat.zero_sub], ?_, ?_⟩
  · rw [hleadb, hleada, x.lead_drop, hlead]
  · rw [hlagb, hlaga, x.lag_drop]

/-- A window that collects `n` more packets leaves the lead's packets in order behind the filling. -/
theorem Advanced.of_filling (hcfgd : b.cfgd = a.cfgd) (hp : b.p = a.p) (hk : b.k = a.k)
    (hn : n ≤ packetsLacking a delay)
    (hb : keptPackets b delay = keptPackets a delay ++ packets a.p.toNat n (x.lead delay)) :
    Advanced n x delay a b := by
  have hlacking : packetsLacking b delay = packetsLacking a delay - n := by
    rw [packetsLacking, hb, List.length_append, length_packets, packetsLacking, Nat.sub_add_eq]
  have hitems : n * a.p.toNat ≤ packetsLacking a delay * a.p.toNat := Nat.mul_le_mul_right _ hn
  refine ⟨hcfgd, hp, hk, hlacking, ?_, ?_⟩
  · rw [leadToCome, leadToCome, hlacking, hp, Nat.sub_mul, x.lead_drop, hb, List.flatten_append, packets,
      flatten_packets, List.append_assoc, List.take_append_drop,
      List.drop_append_of_le_length (by rwa [List.length_replicate]), List.drop_replicate]
  · rw [lagToCome, lagToCome, hlacking, hp, Nat.sub_mul, x.lag_drop, List.drop_drop,
      Nat.add_sub_cancel' hitems, List.drop_append_of_le_length (by rwa [List.length_replicate]),
      List.drop_replicate]

/-- While the delay line fills, both outputs are 255. -/
theorem take_toCome_of_filling (hn : n ≤ packetsLacking a delay) :
    (o1ToCome a x delay).take (n * a.p.toNat) = List.replicate (n * a.p.toNat) 255 ∧
      (o2ToCome a x delay).take (n * a.p.toNat) = List.replicate (n * a.p.toNat) 255 := by
  have hitems : n * a.p.toNat ≤ packetsLacking a delay * a.p.toNat := Nat.mul_le_mul_right _ hn
  have hfill : ∀ rest : List U8,
      (List.replicate (packetsLacking a delay * a.p.toNat) 255 ++ rest).take (n * a.p.toNat) =
        List.replicate (n * a.p.toNat) 255 := fun rest => by
    rw [List.take_append_of_le_length (by rwa [List.length_replicate]), List.take_replicate,
      min_eq_left hitems]
  simp only [o1ToCome, o2ToCome, leadToCome, lagToCome, apply_ite (List.take _), hfill, ite_self, and_self]

end ToCome

/-! ## One window -/

section Window
variable {s : State} {x : AlnStreams} {out : U32} {delay : Int}

/-- A window delivers its share of the outputs to come. -/
def DeliversToCome (s : State) (x : AlnStreams) (out : U32) (delay : Int) : Prop :=
  let n := windowPackets s.aln delay * s.aln.p.toNat
  ∃ b, Advanced (windowPackets s.aln delay) x delay s.aln b ∧
    exec (x.align out) s = .next (s.aligned b (alignRecord n ((o1ToCome s.aln x delay).take n)
      ((o2ToCome s.aln x delay).take n) (List.replicate n (BitVec.ofInt 32 delay))))

/-- Blocks of one length, cut at a block boundary. -/
theorem flatten_take_drop_blocks {p n : Nat} {items : List (List U8)}
    (h : ∀ item ∈ items, item.length = p) (hn : n ≤ items.length) :
    (items.take n).flatten = items.flatten.take (n * p) ∧
      (items.drop n).flatten = items.flatten.drop (n * p) := by
  have hsum : ((items.map List.length).take n).sum = n * p := by
    rw [List.map_eq_replicate_iff.mpr h, List.take_replicate, List.sum_replicate, min_eq_left hn,
      smul_eq_mul]
  exact ⟨by rw [← hsum, List.take_sum_flatten], by rw [← hsum, List.drop_sum_flatten]⟩

/-- The delay line of the steady path, cut after K packets: the window's output and the packets it keeps. -/
theorem flatten_line {p k : Nat} {kept : List (List U8)} {lead : List U8}
    (hkept : ∀ item ∈ kept, item.length = p) (hlead : k * p ≤ lead.length) :
    ((kept ++ packets p k lead).take k).flatten = (kept.flatten ++ lead).take (k * p) ∧
      ((kept ++ packets p k lead).drop k).flatten ++ lead.drop (k * p) =
        (kept.flatten ++ lead).drop (k * p) := by
  have hblocks : ∀ item ∈ kept ++ packets p k lead, item.length = p := fun item hi =>
    (List.mem_append.mp hi).elim (hkept item) (length_of_mem_packets hlead item)
  obtain ⟨htake, hdrop⟩ := flatten_take_drop_blocks hblocks (n := k)
    (by rw [List.length_append, length_packets]; exact Nat.le_add_left ..)
  have hline : (kept ++ packets p k lead).flatten = kept.flatten ++ lead.take (k * p) := by
    rw [List.flatten_append, packets, flatten_packets]
  have hall : kept.flatten ++ lead = (kept.flatten ++ lead.take (k * p)) ++ lead.drop (k * p) := by
    rw [List.append_assoc, List.take_append_drop]
  have hlen : k * p ≤ (kept.flatten ++ lead.take (k * p)).length := by
    rw [List.length_append, List.length_take_of_le hlead]; exact Nat.le_add_left ..
  rw [htake, hdrop, hline, hall, List.take_append_of_le_length hlen, List.drop_append_of_le_length hlen]
  exact ⟨rfl, rfl⟩

/-- R238: streams in sync. -/
theorem delivers_in_sync (hs : s.Inv) (hf : FullWindow s x out) (hz : PulsesAtZero s x 0) :
    DeliversToCome s x out 0 := by
  obtain ⟨b, hb, e⟩ := streamsInSyncPassThrough s x out hs hf hz
  have hkept : ∀ a, (keptPackets a 0).length = (0 : Int).natAbs := fun a => by rw [keptPackets_zero]; rfl
  obtain ⟨-, hn, hlead, hlag⟩ := toCome_of_complete (x := x) (hkept s.aln)
  rw [keptPackets_zero] at hlead
  unfold DeliversToCome
  rw [hn]
  refine ⟨b, .of_complete hb.cfgdKept hb.pKept hb.kKept (hkept _) (hkept _) ?_, ?_⟩
  · rw [keptPackets_zero, keptPackets_zero]; rfl
  · rw [o1ToCome, o2ToCome, hlead, hlag]; exact e

/-- R240: the steady path. -/
theorem delivers_steady (hs : s.Inv) (hf : FullWindow s x out) (hz : PulsesAtZero s x delay)
    (hne : delay ≠ 0) (hcap : delay.natAbs ≤ 5)
    (hkept : (keptPackets s.aln delay).length = delay.natAbs) : DeliversToCome s x out delay := by
  obtain ⟨b, e, hcontents, hocc, -, hdelay, hcfgd, hp, hk⟩ :=
    steadyPathDelaysTheLead s x out delay hs hf hz hne hcap hkept
  obtain ⟨-, hn, hlead, hlag⟩ := toCome_of_complete (x := x) hkept
  obtain ⟨htake, hdrop⟩ := flatten_line (length_of_mem_keptPackets (hs.alnInv hf.1) (delay := delay))
    (show s.aln.k.toNat * s.aln.p.toNat ≤ (x.lead delay).length from hf.2.1.length_lead)
  have hkeptb := (keptPackets_of_collected hdelay (by omega) hocc.le).trans hcontents
  rw [htake] at e
  unfold DeliversToCome
  rw [hn]
  refine ⟨b, .of_complete (hcfgd.trans hf.1.symm) hp hk hkept ?_ ?_, e.trans ?_⟩
  · rw [hkeptb, List.length_drop, List.length_append, length_packets, hkept, Nat.add_sub_cancel]
  · rw [hkeptb]; exact hdrop
  · rw [o1ToCome, o2ToCome, hlead, hlag, apply_ite (List.take _), apply_ite (List.take _)]; rfl

/-- R241: the filling path. -/
theorem delivers_filling (hs : s.Inv) (hf : FullWindow s x out) (hz : PulsesAtZero s x delay)
    (hne : delay ≠ 0) (hcap : delay.natAbs ≤ 5)
    (hkept : (keptPackets s.aln delay).length ≠ delay.natAbs) : DeliversToCome s x out delay := by
  obtain ⟨b, e, hcontents, hocc, hpos, -, hdelay, hcfgd, hp, hk⟩ :=
    fillingPathCollectsLeadPackets s x out delay hs hf hz hne hcap hkept
  have hn : windowPackets s.aln delay = min (packetsLacking s.aln delay) s.aln.k.toNat :=
    if_neg fun hzero => by
      rw [packetsLacking] at hzero
      omega
  have hle : windowPackets s.aln delay ≤ packetsLacking s.aln delay := hn.trans_le (min_le_left ..)
  obtain ⟨ho1, ho2⟩ := take_toCome_of_filling (x := x) hle
  have hkeptb := (keptPackets_of_collected hdelay (by omega) (by omega)).trans hcontents
  refine ⟨b, .of_filling (hcfgd.trans hf.1.symm) hp hk hle (hn ▸ hkeptb), e.trans ?_⟩
  rw [ho1, ho2, hn]; rfl

/-- R238 to R241: a window of streams at most CAP packets apart takes one of the three paths. -/
theorem delivers_of_skew (hs : s.Inv) (hf : FullWindow s x out) (hz : PulsesAtZero s x delay)
    (hcap : delay.natAbs ≤ 5) : DeliversToCome s x out delay := by
  by_cases hne : delay = 0
  · subst hne
    exact delivers_in_sync hs hf hz
  · by_cases hkept : (keptPackets s.aln delay).length = delay.natAbs
    · exact delivers_steady hs hf hz hne hcap hkept
    · exact delivers_filling hs hf hz hne hcap hkept

end Window

/-! ## Window after window -/

/-- One round of the host's loop (R73), its window cut from streams that hold one. -/
theorem alignStream_succ {s : State} {x : AlnStreams} {out : U32} (hs : s.Inv) (hf : FullWindow s x out)
    {a : Aln} {n : Nat} {o1 o2 : List U8} {ctl : List S32}
    (h : exec (x.align out) s = .next (s.aligned a (alignRecord n o1 o2 ctl))) (rounds : Nat) :
    alignStream (rounds + 1) x out s =
      let rest := alignStream rounds (x.drop n) out (s.aligned a (alignRecord n o1 o2 ctl))
      (o1 ++ rest.1, o2 ++ rest.2.1, ctl ++ rest.2.2.1, rest.2.2.2) := by
  rw [exec_align_take hs hf] at h
  simp only [alignStream, h, State.lastResult_aligned, alignRecord]

/-- Whatever an instruction leaves keeps the invariant. -/
theorem State.Inv.of_exec {s t : State} (hs : s.Inv) {i : Instr} (h : exec i s = .next t) : t.Inv := by
  obtain ⟨t', e, ht'⟩ := hs.exec_keeps i
  rwa [Host.Outcome.next.inj (h.symm.trans e)]

/-- The packets a number of windows of K delivers, from a delay line that lacks some on. -/
def packetsOver (k : Nat) : Nat → Nat → Nat
  | 0, _ => 0
  | rounds + 1, lacking =>
    let n := if lacking = 0 then k else min lacking k
    n + packetsOver k rounds (lacking - n)

theorem packetsOver_le (k rounds lacking : Nat) : packetsOver k rounds lacking ≤ rounds * k := by
  induction rounds generalizing lacking with
  | zero => exact Nat.zero_le _
  | succ rounds ih =>
    have hfirst : (if lacking = 0 then k else min lacking k) ≤ k := by split <;> omega
    rw [Nat.succ_mul, Nat.add_comm (rounds * k)]
    exact Nat.add_le_add hfirst (ih _)

/-- `ceil(lacking / K)` windows fill the delay line, and every later one delivers K packets. -/
theorem packetsOver_eq {k : Nat} (hk : 1 ≤ k) {rounds lacking : Nat}
    (h : (lacking + k - 1) / k ≤ rounds) :
    packetsOver k rounds lacking = lacking + (rounds - (lacking + k - 1) / k) * k := by
  have hnone : (0 + k - 1) / k = 0 := Nat.div_eq_of_lt (by omega)
  induction rounds generalizing lacking with
  | zero =>
    have := (Nat.div_eq_zero_iff_lt hk).mp (Nat.le_zero.mp h)
    rw [packetsOver, Nat.zero_sub, Nat.zero_mul]; omega
  | succ rounds ih =>
    rw [packetsOver]
    by_cases hzero : lacking = 0
    · subst hzero
      simp only [if_true, Nat.zero_sub]
      rw [ih (hnone.trans_le (Nat.zero_le _)), hnone, Nat.sub_zero, Nat.sub_zero, Nat.succ_mul]
      omega
    · simp only [if_neg hzero]
      by_cases hlast : lacking ≤ k
      · have hone : (lacking + k - 1) / k = 1 := Nat.div_eq_of_lt_le (by omega) (by omega)
        rw [min_eq_left hlast, Nat.sub_self, ih (hnone.trans_le (Nat.zero_le _)), hnone, hone,
          Nat.add_sub_cancel, Nat.sub_zero, Nat.zero_add]
      · have hmore : (lacking + k - 1) / k = (lacking - k + k - 1) / k + 1 := by
          rw [← Nat.add_div_right _ hk]; congr 1; omega
        rw [min_eq_right (by omega), ih (by omega), hmore, Nat.add_sub_add_right]
        omega

/-- The host's loop delivers the outputs to come, by induction on the windows: each delivers its share and
leaves the rest to come of the streams from its end on. -/
theorem alignStream_skewed {rounds total : Nat} {s : State} {x : AlnStreams} {out : U32} {delay : Int}
    (hs : s.Inv) (hc : s.aln.cfgd = true) (hout : s.aln.w ≤ out.toNat) (hcap : delay.natAbs ≤ 5)
    (hx : SkewedStreams s.aln.p.toNat total x delay) (hrounds : rounds * s.aln.k.toNat ≤ total) :
    let n := packetsOver s.aln.k.toNat rounds (packetsLacking s.aln delay) * s.aln.p.toNat
    let outs := alignStream rounds x out s
    outs.1 = (o1ToCome s.aln x delay).take n ∧ outs.2.1 = (o2ToCome s.aln x delay).take n ∧
      outs.2.2.1 = List.replicate n (BitVec.ofInt 32 delay) := by
  induction rounds generalizing s x total with
  | zero => simp [alignStream, packetsOver]
  | succ rounds ih =>
    rw [Nat.succ_mul] at hrounds
    obtain ⟨hp, -, hk⟩ := hs.window hc
    have hf : FullWindow s x out := ⟨hc, hx.holds (by omega), hout⟩
    obtain ⟨b, hb, e⟩ := delivers_of_skew hs hf (hx.pulsesAtZero hp (by omega)) hcap
    have hle : windowPackets s.aln delay ≤ s.aln.k.toNat := windowPackets_le
    have hw : b.w = s.aln.w := by rw [Aln.w, Aln.w, hb.pKept, hb.kKept]
    have hrest := ih (hs.of_exec e) (hb.cfgdKept.trans hc) (hw.trans_le hout)
      (by rw [State.aligned_aln, hb.pKept]; exact hx.drop (n := windowPackets s.aln delay) (by omega))
      (by rw [State.aligned_aln, hb.kKept]; omega)
    simp only [State.aligned_aln, hb.pKept, hb.kKept, hb.lackingLess, hb.o1Rest, hb.o2Rest] at hrest
    obtain ⟨h1, h2, hctl⟩ := hrest
    have hn : packetsOver s.aln.k.toNat (rounds + 1) (packetsLacking s.aln delay) =
        windowPackets s.aln delay + packetsOver s.aln.k.toNat rounds
          (packetsLacking s.aln delay - windowPackets s.aln delay) := rfl
    simp only [alignStream_succ hs hf e, h1, h2, hctl, hn, Nat.add_mul, List.take_add,
      List.replicate_add, and_self]

/-- Settles O49: in sync the delay line lacks nothing, and what is to come are the streams. -/
theorem streamsInSyncComeOutUnchanged : Obligations.StreamsInSyncComeOutUnchanged := by
  intro s x out total rounds hs hc hout hx hrounds
  obtain ⟨-, -, hk⟩ := hs.window hc
  obtain ⟨hzero, -, hlead, hlag⟩ := toCome_of_complete (a := s.aln) (x := x) (delay := 0)
    (by rw [keptPackets_zero]; rfl)
  have hnone : (0 + s.aln.k.toNat - 1) / s.aln.k.toNat = 0 := Nat.div_eq_of_lt (by omega)
  have h := alignStream_skewed hs hc hout (by decide) hx hrounds
  rw [hzero, packetsOver_eq hk (hnone.trans_le (Nat.zero_le _)), hnone, o1ToCome, o2ToCome, hlead, hlag,
    keptPackets_zero, Nat.zero_add, Nat.sub_zero, Nat.mul_assoc] at h
  exact h

/-- Settles O50: from an empty bank the delay line lacks |delay| packets. -/
theorem skewedStreamsComeOutAligned : Obligations.SkewedStreamsComeOutAligned := by
  intro s x out total rounds delay hs hc hempty hout hne hcap hx hrounds fillItems outs lead lag n
  obtain ⟨-, -, hk⟩ := hs.window hc
  have hkept : keptPackets s.aln delay = [] := keptPackets_of_empty hempty
  have hlacking : packetsLacking s.aln delay = delay.natAbs := by rw [packetsLacking, hkept]; rfl
  obtain ⟨h1, h2, hctl⟩ := alignStream_skewed hs hc hout hcap hx hrounds
  rw [hlacking] at h1 h2 hctl
  have hitems : packetsOver s.aln.k.toNat rounds delay.natAbs * s.aln.p.toNat ≤ (x.lag delay).length :=
    (Nat.mul_le_mul_right _ ((packetsOver_le ..).trans hrounds)).trans hx.1.length_lag
  have hlead : lead = (leadToCome s.aln x delay).take
      (packetsOver s.aln.k.toNat rounds delay.natAbs * s.aln.p.toNat) := by
    rw [leadToCome_eq_byPort, apply_ite (List.take _), ← h1, ← h2]
  have hlag : lag = (lagToCome s.aln x delay).take
      (packetsOver s.aln.k.toNat rounds delay.natAbs * s.aln.p.toNat) := by
    rw [lagToCome_eq_byPort, apply_ite (List.take _), ← h1, ← h2]
  have hn : n = packetsOver s.aln.k.toNat rounds delay.natAbs * s.aln.p.toNat :=
    (congrArg List.length hlag).trans (List.length_take_of_le (hitems.trans length_lag_le))
  rw [leadToCome, hlacking, hkept, ← hn] at hlead
  rw [lagToCome, hlacking, ← hn] at hlag
  refine ⟨hlead, hlag, hn ▸ hctl, fun hfilled => ?_⟩
  rw [hn, packetsOver_eq hk hfilled, Nat.add_mul, Nat.mul_assoc]
  rfl

end Sys2Proof.Machine
end

section
/-! PROOF. A step with a command pending returns, with one record, and is all or nothing (60_exceptions.md
R270, R273, R274, R282). -/

namespace Sys2Proof.Machine

/-- The three answers to a pending command, in the state with the command taken off the list (R273, R274):
a rejection, an illegal word, or an acceptance in the unit of the instruction it decodes to. -/
theorem step_answers {s : State} {c : Command} {rest : List Command} (hp : s.pending = c :: rest) :
    ∃ t, step s = .next t ∧
      (t = { s with pending := rest }.answered rejection ∨
        t = { s with pending := rest }.answered ⟨.illegal, .nothing⟩ ∨
        ∃ i, decode c = .instr i ∧ Accepted i.opcode.unit { s with pending := rest } t) := by
  cases hd : decode c with
  | instr i =>
    have hstep := stepRunsTheDecodedInstruction s c rest i hp hd
    rcases exec_cases i { s with pending := rest } with hrej | ⟨t, hok, hacc⟩
    · exact ⟨_, hstep.trans hrej, .inl rfl⟩
    · exact ⟨t, hstep.trans hok, .inr (.inr ⟨i, rfl, hacc⟩)⟩
  | illegalWord => exact ⟨_, step_of_illegalWord hp hd, .inr (.inl rfl)⟩
  | badRecord => exact ⟨_, step_of_badRecord hp hd, .inl rfl⟩

/-- An accepted command adds one record, of status OK. -/
theorem Accepted.results {u : UnitId} {s t : State} (h : Accepted u s t) :
    ∃ d, t.results = s.results ++ [⟨.ok, d⟩] := by
  obtain ⟨enc, dec, aln, draws, d, rfl, -⟩ := h
  exact ⟨d, rfl⟩

/-- Settles O11: each of the three answers adds its one record and keeps the parameters and the rest of the
list, an acceptance by its frame. -/
theorem everyCommandReturnsOneRecord : Obligations.EveryCommandReturnsOneRecord := by
  intro s c rest hp
  obtain ⟨t, hstep, rfl | rfl | ⟨i, -, hacc⟩⟩ := step_answers hp
  · exact ⟨_, rejection, hstep, rfl, rfl, rfl⟩
  · exact ⟨_, ⟨.illegal, .nothing⟩, hstep, rfl, rfl, rfl⟩
  · obtain ⟨d, hresults⟩ := hacc.results
    obtain ⟨-, -, -, hparams, hpending⟩ := hacc.frame
    exact ⟨t, ⟨.ok, d⟩, hstep, hpending, hresults, hparams⟩

/-- Settles O12: the step's one outcome is an acceptance, whose record is OK, or the old state answered. -/
theorem commandCompletesOrChangesNothing : Obligations.CommandCompletesOrChangesNothing := by
  intro s t c rest hp ht
  obtain ⟨t', hstep, hanswer⟩ := step_answers hp
  obtain rfl : t = t' := Host.Outcome.next.inj (ht.symm.trans hstep)
  rcases hanswer with hrej | hill | ⟨i, -, hacc⟩
  · exact .inr (.inl hrej)
  · exact .inr (.inr hill)
  · exact .inl hacc.results

end Sys2Proof.Machine
end

section
/-! PROOF. Reset and hazards (70_reset_and_hazards.md): a short decoder window loses sync (R307), and the
values the spec leaves unspecified are never seen (R300; 93_implementation_defined.md I1, I2). -/

namespace Sys2Proof.Machine

/-- Settles O28: the window is no longer than the needle, so the matcher finds nothing and R207 applies. -/
theorem shortWindowLosesSync : Obligations.ShortWindowLosesSync := by
  intro s raw sci out hs hc hsc hroom n hpos hshort
  obtain ⟨⟨-, -, -, -, -, ⟨hpsz, -⟩⟩, hu⟩ := hs.decInv hc
  have hlen : (raw.take n).length ≤ s.dec.hdrt.length :=
    (List.length_take_le ..).trans (hshort.trans hu.n_eq.le)
  exact ⟨_, lossOfSyncFillsTheRoom s raw sci out hc hsc hpos (Nat.div_pos hroom hpsz)
    (matchPattern_short _ hlen), rfl, rfl, rfl, rfl⟩

/-! ## Slots and banks alike to the host -/

/-- Two slots are alike when both are empty or they are the same. -/
theorem Slot.alike_iff {a b : Slot} : a.Alike b ↔ (a.v = false ∧ b.v = false) ∨ a = b := by
  refine ⟨fun ⟨hv, heq⟩ => ?_, ?_⟩
  · cases ha : a.v with
    | false => exact .inl ⟨rfl, hv ▸ ha⟩
    | true => exact .inr (heq ha)
  · rintro (⟨ha, hb⟩ | rfl)
    · exact ⟨ha.trans hb.symm, fun h => absurd (ha.symm.trans h) Bool.false_ne_true⟩
    · exact ⟨rfl, fun _ => rfl⟩

theorem Slot.Alike.refl (a : Slot) : a.Alike a := Slot.alike_iff.mpr (.inr rfl)

theorem Slot.Alike.holds {a b : Slot} (h : a.Alike b) (r : Nat) : a.holds r = b.holds r := by
  rcases Slot.alike_iff.mp h with ⟨ha, hb⟩ | rfl
  · simp [Slot.holds, ha, hb]
  · rfl

/-- A change of a slot that leaves an empty slot empty keeps slots alike. -/
theorem Slot.Alike.map {a b : Slot} (h : a.Alike b) {f : Slot → Slot}
    (hf : ∀ s : Slot, s.v = false → (f s).v = false) : (f a).Alike (f b) := by
  rcases Slot.alike_iff.mp h with ⟨ha, hb⟩ | rfl
  · exact Slot.alike_iff.mpr (.inl ⟨hf a ha, hf b hb⟩)
  · exact .refl _

theorem Slot.afterPop_empty {s : Slot} (h : s.v = false) : s.afterPop.v = false := by
  simp [Slot.afterPop, h]

theorem Slot.afterEviction_empty {s : Slot} (item : List U8) (h : s.v = false) :
    (s.afterEviction item).v = false := by
  unfold Slot.afterEviction
  split
  · exact h
  · exact h

section Slots
variable {l l' : List Slot}

/-- The first empty slot stands at the same place. -/
theorem findIdx_empty_alike (h : List.Forall₂ Slot.Alike l l') :
    (l.findIdx fun s => !s.v) = l'.findIdx fun s => !s.v := by
  induction h with
  | nil => rfl
  | cons hab _ ih => simp only [List.findIdx_cons, hab.1, ih]

/-- The valid slot of a rank is the same one. -/
theorem find?_holds_alike (h : List.Forall₂ Slot.Alike l l') (r : Nat) :
    l.find? (Slot.holds r) = l'.find? (Slot.holds r) := by
  induction h with
  | nil => rfl
  | @cons a b _ _ hab _ ih =>
    cases hr : a.holds r with
    | false => rw [List.find?_cons_of_neg (by simp [hr]),
        List.find?_cons_of_neg (by simp [← hab.holds r, hr]), ih]
    | true =>
      obtain rfl : a = b := hab.2 (Bool.and_eq_true_iff.mp hr).1
      rw [List.find?_cons_of_pos hr, List.find?_cons_of_pos hr]

theorem set_alike (h : List.Forall₂ Slot.Alike l l') (i : Nat) (x : Slot) :
    List.Forall₂ Slot.Alike (l.set i x) (l'.set i x) := by
  induction h generalizing i with
  | nil => exact .nil
  | cons hab htail ih =>
    cases i with
    | zero => exact .cons (.refl x) htail
    | succ i => exact .cons hab (ih i)

theorem map_alike (h : List.Forall₂ Slot.Alike l l') {f : Slot → Slot}
    (hf : ∀ s : Slot, s.v = false → (f s).v = false) :
    List.Forall₂ Slot.Alike (l.map f) (l'.map f) :=
  List.rel_map (fun _ _ hab => hab.map hf) h

end Slots

/-- Two banks are alike to the host: they hold the same packets in the same slots. -/
structure Bank.Alike (a b : Bank) : Prop where
  occ : a.occ = b.occ
  slots : List.Forall₂ Slot.Alike a.slots b.slots

/-- Emptied banks of one size are alike, whatever they held. -/
theorem Bank.clear_alike {a b : Bank} (h : a.slots.length = b.slots.length) : a.clear.Alike b.clear where
  occ := rfl
  slots := List.forall₂_iff_get.mpr ⟨by simpa using h, fun i _ _ => by
    simp only [Bank.clear_slots, List.get_eq_getElem, List.getElem_map]
    exact Slot.alike_iff.mpr (.inl ⟨rfl, rfl⟩)⟩

section Banks
variable {a b : Bank}

theorem Bank.Alike.clear (h : a.Alike b) : a.clear.Alike b.clear := Bank.clear_alike h.slots.length_eq

theorem Bank.Alike.push (h : a.Alike b) (item : List U8) : (a.push item).Alike (b.push item) := by
  unfold Bank.push
  rw [h.occ, findIdx_empty_alike h.slots]
  split
  · exact ⟨rfl, set_alike h.slots ..⟩
  · exact ⟨rfl, map_alike h.slots fun _ => Slot.afterEviction_empty item⟩

theorem Bank.Alike.pushAll (h : a.Alike b) (items : List (List U8)) :
    (a.pushAll items).Alike (b.pushAll items) := by
  induction items generalizing a b with
  | nil => exact h
  | cons item items ih => exact ih (h.push item)

/-- Banks alike pop the same packet, and what is left is alike. -/
theorem Bank.Alike.pop (h : a.Alike b) :
    (a.pop = none ∧ b.pop = none) ∨
      ∃ item i j a' b', a.pop = some (item, i, a') ∧ b.pop = some (item, j, b') ∧ a'.Alike b' := by
  have hoccs := h.occ
  have holdest : a.slotOfRank 0 = b.slotOfRank 0 := find?_holds_alike h.slots 0
  unfold Bank.pop
  rw [hoccs, holdest]
  split
  · exact .inl ⟨rfl, rfl⟩
  · cases b.slotOfRank 0 with
    | none => exact .inl ⟨rfl, rfl⟩
    | some oldest =>
      exact .inr ⟨_, _, _, _, _, rfl, rfl, rfl, map_alike h.slots fun _ => Slot.afterPop_empty⟩

theorem Bank.Alike.popMany (h : a.Alike b) (m : Nat) :
    (Bank.popMany m a).1 = (Bank.popMany m b).1 ∧ (Bank.popMany m a).2.Alike (Bank.popMany m b).2 := by
  induction m generalizing a b with
  | zero => exact ⟨rfl, h⟩
  | succ m ih =>
    unfold Bank.popMany
    rcases h.pop with ⟨ha, hb⟩ | ⟨item, i, j, a', b', ha, hb, hrest⟩
    · rw [ha, hb]; exact ⟨rfl, h⟩
    · obtain ⟨hpackets, hleft⟩ := ih hrest
      rw [ha, hb]
      exact ⟨congrArg (item :: ·) hpackets, hleft⟩

end Banks

/-! ## States alike to the host -/

/-- ALN units that differ in the bank alone are alike when the banks are. -/
theorem Bank.Alike.aln {a b : Bank} (h : a.Alike b) (cfgd : Bool) (p k : U32) (f : Bool) (bdelay : S32) :
    Aln.Alike ⟨cfgd, p, k, a, f, bdelay⟩ ⟨cfgd, p, k, b, f, bdelay⟩ :=
  ⟨rfl, h.slots.length_eq, fun _ => ⟨rfl, rfl, rfl, rfl, h.occ, h.slots⟩⟩

theorem Aln.Alike.refl (a : Aln) : a.Alike a :=
  Bank.Alike.aln ⟨rfl, List.forall₂_same.mpr fun x _ => .refl x⟩ ..

section States
variable {s s' : State}

theorem State.Alike.withPending (h : s.Alike s') (rest : List Command) :
    State.Alike { s with pending := rest } { s' with pending := rest } :=
  { h with pending := rfl }

theorem State.Alike.answered (h : s.Alike s') (r : Result) : (s.answered r).Alike (s'.answered r) :=
  { h with results := by simp [h.results] }

theorem State.Alike.withEnc (h : s.Alike s') (enc : Enc) :
    State.Alike { s with enc := enc } { s' with enc := enc } :=
  { h with encCfgd := rfl, enc := fun _ => rfl }

theorem State.Alike.withDec (h : s.Alike s') (dec : FrameRegs) :
    State.Alike { s with dec := dec } { s' with dec := dec } :=
  { h with decCfgd := rfl, dec := fun _ => rfl }

theorem State.Alike.withAln (h : s.Alike s') {a a' : Aln} (ha : a.Alike a') :
    State.Alike { s with aln := a } { s' with aln := a' } :=
  { h with aln := ha }

theorem State.Alike.withDraws (h : s.Alike s') (draws : Nat) :
    State.Alike { s with draws := draws } { s' with draws := draws } :=
  { h with draws := rfl }

theorem State.Alike.loadUnit (h : s.Alike s') (u : UnitId) (t : State) :
    (s.loadUnit u t).Alike (s'.loadUnit u t) := by
  cases u with
  | enc => exact h.withEnc t.enc
  | dec => exact h.withDec t.dec
  | aln => exact (h.withAln (.refl t.aln)).withDraws t.draws

end States

/-- Both outcomes are next states, and these are alike to the host. -/
def AnswersAlike (o o' : StepOutcome) : Prop := ∃ t t', o = .next t ∧ o' = .next t' ∧ t.Alike t'

section Answers
variable {s s' : State}

theorem State.Alike.next (h : s.Alike s') : AnswersAlike (.next s) (.next s') := ⟨s, s', rfl, rfl, h⟩

theorem State.Alike.configured_eq (h : s.Alike s') (u : UnitId) : s'.configured u = s.configured u := by
  cases u with
  | enc => exact h.encCfgd.symm
  | dec => exact h.decCfgd.symm
  | aln =>
    obtain ⟨hcfgd, -⟩ := h.aln
    exact hcfgd.symm

/-- An instruction whose unit is the same in both states loads the same unit and answers the same record. -/
theorem State.Alike.exec_of_agreesOn (h : s.Alike s') {i : Instr} (hu : s.AgreesOn i.opcode.unit s') :
    AnswersAlike (exec i s) (exec i s') := by
  obtain ⟨t, r, hact⟩ := exec_actsWithin i s
  exact ⟨_, _, hact s (.refl ..), hact s' hu, (h.loadUnit _ t).answered r⟩

/-- An instruction but a reset is rejected in both states while its unit is unconfigured (R33). -/
theorem State.Alike.exec_of_unconfigured (h : s.Alike s') {i : Instr} (hr : i.opcode.isReset = false)
    (hu : s.configured i.opcode.unit = false) : AnswersAlike (exec i s) (exec i s') :=
  ⟨_, _, rejected_of_unconfigured hr hu, rejected_of_unconfigured hr ((h.configured_eq _).trans hu),
    h.answered rejection⟩

/-- A configured ENC or DEC is the same in both states. -/
theorem State.Alike.agreesOn (h : s.Alike s') {u : UnitId} (hu : u ≠ .aln) (hc : s.configured u = true) :
    s.AgreesOn u s' := by
  cases u with
  | enc => exact ⟨h.params.symm, (h.enc hc).symm⟩
  | dec => exact ⟨h.params.symm, (h.dec hc).symm⟩
  | aln => exact absurd rfl hu

/-- The commands of ENC and DEC but the resets: the unit is unconfigured in both states, or the same. -/
theorem State.Alike.exec_of_not_aln (h : s.Alike s') {i : Instr} (hr : i.opcode.isReset = false)
    (hu : i.opcode.unit ≠ .aln) : AnswersAlike (exec i s) (exec i s') := by
  cases hc : s.configured i.opcode.unit with
  | false => exact h.exec_of_unconfigured hr hc
  | true => exact h.exec_of_agreesOn (h.agreesOn hu hc)

/-! ## Resets: what the unit held before is not read -/

theorem State.Alike.encReset (h : s.Alike s') (pre lab : List U8) (spb psz : U32) (sc : Bool) :
    AnswersAlike (execEncReset pre lab spb psz sc s) (execEncReset pre lab spb psz sc s') := by
  cases hregs : FrameRegs.afterReset s.params pre lab spb psz sc with
  | none =>
    have hregs' := h.params ▸ hregs
    simp only [execEncReset, hregs, hregs']
    exact (h.answered rejection).next
  | some u =>
    have hregs' := h.params ▸ hregs
    simp only [execEncReset, hregs, hregs']
    exact ((h.withEnc ⟨u, 0⟩).answered acceptance).next

theorem State.Alike.decReset (h : s.Alike s') (pre lab : List U8) (spb psz : U32) (sc : Bool) :
    AnswersAlike (execDecReset pre lab spb psz sc s) (execDecReset pre lab spb psz sc s') := by
  unfold execDecReset
  rw [h.params]
  cases FrameRegs.afterReset s'.params pre lab spb psz sc with
  | none => exact (h.answered rejection).next
  | some u => exact ((h.withDec u).answered acceptance).next

/-- An aln.reset keeps the rank and data of every slot (R154), but no slot is valid after it. -/
theorem State.Alike.alnReset (h : s.Alike s') (p k : U32) :
    AnswersAlike (execAlnReset p k s) (execAlnReset p k s') := by
  have hparams := h.params
  rcases execAlnReset_cases p k s with ⟨hd, e⟩ | ⟨hd, e⟩
  · rcases execAlnReset_cases p k s' with ⟨-, e'⟩ | ⟨hd', -⟩
    · rw [e, e']; exact (h.answered rejection).next
    · exact absurd (hparams ▸ hd') hd
  · rcases execAlnReset_cases p k s' with ⟨hd', -⟩ | ⟨-, e'⟩
    · exact absurd (hparams ▸ hd) hd'
    · obtain ⟨-, hlen, -⟩ := h.aln
      rw [e, e']
      exact ((h.withAln ((Bank.clear_alike hlen).aln ..)).answered acceptance).next

end Answers

/-! ## ALIGN: what empty slots hold is not read -/

/-- `s` with other registers in ENC and DEC and another bank: all that may differ between states alike to the
host whose ALN is configured. -/
def State.withBank (s : State) (enc : Enc) (dec : FrameRegs) (bank : Bank) : State :=
  { s with enc := enc, dec := dec, aln := { s.aln with bank := bank } }

theorem State.Alike.exists_withBank {s s' : State} (h : s.Alike s') (hc : s.aln.cfgd = true) :
    ∃ enc dec bank, s' = s.withBank enc dec bank ∧ s.aln.bank.Alike bank := by
  obtain ⟨enc, dec, ⟨cfgd, p, k, bank, f, bdelay⟩, params, draws, pending, results⟩ := s'
  obtain ⟨hcfgd, -, hregs⟩ := h.aln
  obtain ⟨hp, hk, hf, hbdelay, hocc, hslots⟩ := hregs hc
  obtain rfl := h.params
  obtain rfl := h.draws
  obtain rfl := h.pending
  obtain rfl := h.results
  obtain rfl : s.aln.cfgd = cfgd := hcfgd
  obtain rfl : s.aln.p = p := hp
  obtain rfl : s.aln.k = k := hk
  obtain rfl : s.aln.f = f := hf
  obtain rfl : s.aln.bdelay = bdelay := hbdelay
  exact ⟨enc, dec, bank, rfl, hocc, hslots⟩

/-- `f` answers alike in states that differ in ENC, DEC and the empty slots alone. -/
def EmptySlotsUnseen (f : State → StepOutcome) : Prop :=
  ∀ (s : State) (enc : Enc) (dec : FrameRegs) (bank : Bank), s.Alike (s.withBank enc dec bank) →
    s.aln.bank.Alike bank → AnswersAlike (f s) (f (s.withBank enc dec bank))

section Unseen
variable {f g : State → StepOutcome}

/-- A choice by what such states have in common. -/
theorem EmptySlotsUnseen.ite {c : State → Prop} {_ : DecidablePred c}
    (hc : ∀ s enc dec bank, s.aln.bank.Alike bank → (c (s.withBank enc dec bank) ↔ c s))
    (hf : EmptySlotsUnseen f) (hg : EmptySlotsUnseen g) :
    EmptySlotsUnseen fun s => if c s then f s else g s := by
  intro s enc dec bank h hbank
  have hiff := hc s enc dec bank hbank
  by_cases hs : c s
  · simp only [if_pos hs, if_pos (hiff.mpr hs)]; exact hf s enc dec bank h hbank
  · simp only [if_neg hs, if_neg (mt hiff.mp hs)]; exact hg s enc dec bank h hbank

/-- A window delivered while the alignment is cleared (R236). -/
theorem emptySlotsUnseen_of_clear {draws : State → Nat} {d : State → Delivery}
    (hf : ∀ s, f s = State.deliver { s with aln := s.aln.clearAlignment, draws := draws s } (d s))
    (hdraws : ∀ s enc dec bank, draws (s.withBank enc dec bank) = draws s)
    (hd : ∀ s enc dec bank, d (s.withBank enc dec bank) = d s) : EmptySlotsUnseen f := by
  intro s enc dec bank h hbank
  rw [hf, hf, hdraws, hd]
  exact (((h.withAln (hbank.clear.aln ..)).withDraws (draws s)).answered ⟨.ok, d s⟩).next

end Unseen

theorem skewBank_alike {a : Aln} {bank : Bank} (h : a.bank.Alike bank) (delay : Int) :
    (skewBank a delay).Alike (skewBank { a with bank := bank } delay) := by
  unfold skewBank
  rw [h.occ]
  split
  · exact h
  · exact h.clear

section Skew
variable {s : State} {enc : Enc} {dec : FrameRegs} {bank b b' : Bank}

/-- The steady path (R240): banks alike pop the same packets and take the same pushes. -/
theorem alignSteady_alike (h : s.Alike (s.withBank enc dec bank)) (hb : b.Alike b') (delay : Int)
    (lead lag : List U8) :
    AnswersAlike (alignSteady b delay lead lag s)
      (alignSteady b' delay lead lag (s.withBank enc dec bank)) := by
  obtain ⟨hpackets, hleft⟩ := hb.popMany (min delay.natAbs s.aln.k.toNat)
  simp only [alignSteady, State.withBank, hpackets, hb.occ]
  exact ((h.withAln ((hleft.pushAll _).aln ..)).answered _).next

/-- The filling path (R241): banks alike lack the same number of packets and take the same pushes. -/
theorem alignFill_alike (h : s.Alike (s.withBank enc dec bank)) (hb : b.Alike b') (delay : Int)
    (lead : List U8) :
    AnswersAlike (alignFill b delay lead s) (alignFill b' delay lead (s.withBank enc dec bank)) := by
  have hfilled := hb.pushAll
    (packets s.aln.p.toNat (min (delay.natAbs - b'.occ) s.aln.k.toNat) lead)
  simp only [packets] at hfilled
  simp only [alignFill, State.withBank, hb.occ, hfilled.occ]
  exact ((h.withAln (hfilled.aln ..)).answered _).next

end Skew

/-- The skew branch (R239): both states start from banks alike, so they take the same path. -/
theorem emptySlotsUnseen_alignSkew (x : AlnWindows) (delay : Int) : EmptySlotsUnseen (alignSkew x delay) :=
  .ite (fun _ _ _ _ hbank => (Eq.congr_left (skewBank_alike hbank delay).occ).symm)
    (fun _ _ _ _ h hbank => alignSteady_alike h (skewBank_alike hbank delay) ..)
    fun _ _ _ _ h hbank => alignFill_alike h (skewBank_alike hbank delay) ..

/-- An ALIGN with a full window, branch by branch (R232): all but the skew branch clear the alignment. -/
theorem emptySlotsUnseen_alignBranch (x : AlnWindows) : EmptySlotsUnseen (alignBranch x) := by
  refine .ite (fun _ _ _ _ _ => .rfl) ?mis (.ite (fun _ _ _ _ _ => .rfl) ?off
    (.ite (fun _ _ _ _ _ => .rfl) ?ovf
      (.ite (fun _ _ _ _ _ => .rfl) ?sync (emptySlotsUnseen_alignSkew x _))))
  all_goals exact emptySlotsUnseen_of_clear (fun _ => rfl) (fun _ _ _ _ => rfl) fun _ _ _ _ => rfl

theorem emptySlotsUnseen_alnAlign (x : AlnWindows) (out : U32) : EmptySlotsUnseen (exec (x.align out)) :=
  .ite (fun _ _ _ _ _ => .rfl) (emptySlotsUnseen_alignBranch x)
    fun _ _ _ _ h _ => (h.answered rejection).next

/-! ## Steps and runs -/

section Runs
variable {s s' : State}

/-- An ALIGN is rejected in both states while ALN is unconfigured; then only empty slots may differ. -/
theorem State.Alike.exec_align (h : s.Alike s') (x : AlnWindows) (out : U32) :
    AnswersAlike (exec (x.align out) s) (exec (x.align out) s') := by
  cases hc : s.aln.cfgd with
  | false => exact h.exec_of_unconfigured rfl hc
  | true =>
    obtain ⟨enc, dec, bank, rfl, hbank⟩ := h.exists_withBank hc
    exact emptySlotsUnseen_alnAlign x out s enc dec bank h hbank

/-- Every instruction answers alike in states alike to the host. -/
theorem State.Alike.exec_alike (h : s.Alike s') (i : Instr) : AnswersAlike (exec i s) (exec i s') := by
  cases i with
  | encReset pre lab spb psz sc => exact h.encReset pre lab spb psz sc
  | decReset pre lab spb psz sc => exact h.decReset pre lab spb psz sc
  | alnReset p k => exact h.alnReset p k
  | alnAlign d1 s1 c1 d2 s2 c2 out => exact h.exec_align ⟨d1, s1, c1, d2, s2, c2⟩ out
  | _ => exact h.exec_of_not_aln rfl nofun

/-- With no command pending a step changes nothing (R276). -/
theorem step_of_nothingPending (hp : s.pending = []) : step s = .next s := by
  rw [step, State.fetch_nil hp, State.idle_eq]

/-- Every step does: it performs the same command, or none. -/
theorem State.Alike.step_alike (h : s.Alike s') : AnswersAlike (step s) (step s') := by
  cases hp : s.pending with
  | nil =>
    rw [step_of_nothingPending hp, step_of_nothingPending (h.pending ▸ hp)]
    exact h.next
  | cons c rest =>
    have hp' : s'.pending = c :: rest := h.pending ▸ hp
    have hrest := h.withPending rest
    cases hd : decode c with
    | instr i =>
      rw [stepRunsTheDecodedInstruction s c rest i hp hd, stepRunsTheDecodedInstruction s' c rest i hp' hd]
      exact hrest.exec_alike i
    | illegalWord =>
      rw [step_of_illegalWord hp hd, step_of_illegalWord hp' hd]
      exact (hrest.answered _).next
    | badRecord =>
      rw [step_of_badRecord hp hd, step_of_badRecord hp' hd]
      exact (hrest.answered _).next

/-- A run whose first step answers a next state goes on from there. -/
theorem run_succ {t : State} (h : step s = .next t) (k : Nat) :
    Host.Core.run Sys2Proof.core (k + 1) s = Host.Core.run Sys2Proof.core k t := by
  have hstep : Sys2Proof.core.step s = .next t := h
  simp only [Host.Core.run, hstep]

theorem State.Alike.run_alike (h : s.Alike s') (k : Nat) :
    ∃ t t', Host.Core.run Sys2Proof.core k s = .next t ∧ Host.Core.run Sys2Proof.core k s' = .next t' ∧
      t.Alike t' := by
  induction k generalizing s s' with
  | zero => exact ⟨s, s', rfl, rfl, h⟩
  | succ k ih =>
    obtain ⟨t, t', ht, ht', hnext⟩ := h.step_alike
    rw [run_succ ht, run_succ ht']
    exact ih hnext

end Runs

/-- Settles O16: being alike to the host is kept by every step, and states alike hold the same results. -/
theorem unspecifiedValuesAreNeverSeen : Obligations.UnspecifiedValuesAreNeverSeen := by
  intro k s s' h
  obtain ⟨t, t', ht, ht', hrun⟩ := h.run_alike k
  exact ⟨t, t', ht, ht', hrun.results, hrun⟩

end Sys2Proof.Machine
end

section
/-! PROOF. Power-on and the idle step (10_state.md section 7, 60_exceptions.md section 4), and what the
primitives answer outside the domain the spec gives them (40_primitives.md R135, R141; log entry 20). -/

namespace Sys2Proof.Machine

/-- Settles O10: without a command to fetch, the step is the idle one. -/
theorem noCommandNoChange : Obligations.NoCommandNoChange := fun _ hp => step_of_nothingPending hp

/-! ## Power-on -/

/-- R56: the invariant asks nothing of the registers of an unconfigured ENC or DEC. -/
theorem FrameRegs.inv_of_unconfigured {u : FrameRegs} (h : u.cfgd = false) (c : Params) : u.Inv c :=
  fun hc => absurd (h.symm.trans hc) Bool.false_ne_true

/-- With every unit unconfigured, the invariant is legal parameters and five slots. -/
theorem State.inv_of_unconfigured {s : State} (h : ∀ u, s.configured u = false) (hp : s.params.Wf)
    (hslots : s.aln.bank.slots.length = 5) : s.Inv where
  paramsWf := hp
  encInv := FrameRegs.inv_of_unconfigured (h .enc) _
  decInv := FrameRegs.inv_of_unconfigured (h .dec) _
  slotCount := hslots
  alnInv hc := absurd ((h .aln).symm.trans hc) Bool.false_ne_true

/-- Settles O17: no unit is configured at power-on, and the named parameters are legal. -/
theorem powerOnMeetsTheInvariant : Obligations.PowerOnMeetsTheInvariant := by
  obtain ⟨hunconfigured, -, -⟩ := unitIsUsableOnlyAfterItsReset
  exact State.inv_of_unconfigured hunconfigured (by decide) rfl

/-! ## Missing bits and the empty needle -/

/-- One more element counts at its weight. -/
theorem bitsToNumber_succ (bits : List U8) (len : Nat) :
    bitsToNumber bits (len + 1) = bitsToNumber bits len + (bits[len]?.getD 0).toNat * 2 ^ len := by
  simp only [bitsToNumber_eq_sum, List.sum_range_succ]

/-- The elements past the end of the list count as 0. -/
theorem bitsToNumber_of_length_le {bits : List U8} {len : Nat} (h : bits.length ≤ len) :
    bitsToNumber bits len = bitsToNumber bits bits.length := by
  induction len, h using Nat.le_induction with
  | base => rfl
  | succ len hle ih => simp [bitsToNumber_succ, List.getElem?_eq_none hle, ih]

/-- Settles O52: the missing elements count as 0, and 16 items of at most 255 are bounded as in R135. -/
theorem missingBitsCountAsZero : Obligations.MissingBitsCountAsZero :=
  ⟨fun _ _ h => bitsToNumber_of_length_le h.le, fun bits _ => bitsToNumber_le bits 16⟩

/-- Settles O53: the empty haystack has no offset to examine, and any other starts with the empty needle. -/
theorem emptyNeedleMatchesAtTheStart : Obligations.EmptyNeedleMatchesAtTheStart := by
  intro tol h
  split
  next hnil => exact matchPattern_short tol (by simp [hnil])
  next hne => exact matchPattern_prefix tol (List.length_pos_of_ne_nil hne) List.take_zero

end Sys2Proof.Machine
end
